-- ==== Sys2Proof/Word.lean ====
section
/-! DEFINITION. The words of the block: register, counter, symbol and byte types, and bit sequences. -/

namespace Sys2Proof

/-- A coder register: 32 bits (10_state R21, R22, R23). -/
abbrev Word := BitVec 32

/-- A run counter, a header or a 64-bit operand (10_state R25). -/
abbrev Count := BitVec 64

/-- A symbol, one byte value 0 to 255 (00_scope R17, 30_encoding R100). -/
abbrev Sym := BitVec 8

/-- A byte of the sink or of the source (20_memory R61). -/
abbrev Byte := BitVec 8

/-- A bit sequence in stream order, first bit first (20_memory R61). -/
abbrev Bits := List Bool

end Sys2Proof
end

