-- ==== Sys2Proof/Config.lean ====
section
/-! DEFINITION. What an implementation fixes (00_scope R7, R8, R9) and the free values of everything the spec leaves
without a value. -/

namespace Sys2Proof

/-- `INTERVAL_BITS`, the width of `l`, `h`, `value` (00_scope R7). -/
def intervalBits : Nat := 32
/-- `ALPHABET_SIZE` (00_scope R7). -/
def alphabetSize : Nat := 256
/-- `RESCALE_DIVISOR` (00_scope R7). -/
def rescaleDivisor : Nat := 2
/-- `HEADER_BITS` (00_scope R7). -/
def headerBits : Nat := 64
/-- `PAD_BIT` = 0 (00_scope R7; 92_eei_decisions D8). -/
def padBit : Bool := false
/-- `BS_MAX_N`, the widest bit stream transfer (00_scope R7). -/
def bsMaxN : Nat := 64

/-- `top = 2^INTERVAL_BITS - 1` (00_scope R8). -/
def top : Nat := 0xFFFFFFFF
/-- `firstQuart = (top+1)/4` (00_scope R8). -/
def firstQuart : Nat := 0x40000000
/-- `half = 2*firstQuart` (00_scope R8). -/
def half : Nat := 0x80000000
/-- `thirdQuart = 3*firstQuart` (00_scope R8). -/
def thirdQuart : Nat := 0xC0000000

/-- The configuration value of one instance: `COUNT_BITS`, the one parameter the spec leaves open, with the proof that
it is legal, so that a configuration outside 9 to 30 cannot be built (00_scope R7, R9; 93 U1, U2). -/
structure Config where
  countBits : Nat
  legal : 9 ≤ countBits ∧ countBits ≤ 30
deriving DecidableEq, Repr

/-- Construction of an instance's configuration: a value outside 9 to 30 is refused (00_scope R9, 93 U2). -/
def Config.make? (countBits : Nat) : Option Config :=
  if legal : 9 ≤ countBits ∧ countBits ≤ 30 then some ⟨countBits, legal⟩ else none

/-- `CEILING = 2^COUNT_BITS - 1` (00_scope R8). -/
def Config.ceiling (c : Config) : Nat := 2 ^ c.countBits - 1

/-- The reference configuration of the spec's vectors, `COUNT_BITS = 16` (00_scope R7). DESIGN CHOICE (log 2): the
configuration of `State.reset`; statements quantify over every configuration. -/
def Config.reference : Config := ⟨16, by decide⟩

/-- The places where the spec leaves a value open. Each has free values of its own. -/
inductive FreeSite where
  /-- a coder register, run counter or table entry once it is unspecified (10_state R34, R41; 93 U7, U8) -/
  | l | h | value | bitsToFollow | nTotal | symIdx | count (i : Nat) | interval (i : Nat) | totalCount
  /-- how many bits of a failing (or cut off) command reached `wr_bits` (60_exceptions R230, 93 U12, U29) -/
  | bitsKept
  /-- the read position after a fault or a reset in the middle of a command (60_exceptions R230, 93 U29) -/
  | readPos
  /-- how many whole bytes move to the sink (10_state R37, 93 U10) -/
  | sinkGrowth
  /-- a new bound of `NARROW` on a table that breaks its invariants (log 16) -/
  | narrowH | narrowL
  /-- the decoder's `position` on such a table (log 17) -/
  | position
  /-- the symbol found by `T_SYM` on such a table (log 17) -/
  | symbol
  /-- a table entry that would not fit `COUNT_BITS` bits (log 15) -/
  | newCount | newInterval (i : Nat) | rebuilt (i : Nat)
  /-- `sym_idx + 1` past 64 bits (log 18) -/
  | nextSymIdx
deriving DecidableEq, Repr

/-- The free values: what the spec leaves open at a place, for the step numbered by `State.tick`. It has no body, so
nothing can be proved of a value of it (log 3). -/
opaque Config.free : FreeSite → Nat → Nat

end Sys2Proof
end

