-- ==== Sys2Proof/Syntax.lean ====
section
/-! DEFINITION. The operations, one constructor per row of spec/opcode_table.json, and the request words by which they
are asked for (30_encoding R101 to R105). -/

namespace Sys2Proof

/-- The direction operand of `RENORM`: emit (encoder) or consume (decoder) (42_renormalizer R160, R165). -/
inductive Dir where
  | emit
  | consume
deriving DecidableEq, Repr

/-- The 17 operations (30_encoding R105, R108). -/
inductive Instr where
  /-- `ENC_BEGIN n` (43_encoder R181) -/
  | encBegin (n : Count)
  /-- `ENC_SYM v` (43_encoder R182) -/
  | encSym (v : Sym)
  /-- `ENC_END` (43_encoder R183) -/
  | encEnd
  /-- `DEC_BEGIN -> n` (44_decoder R201) -/
  | decBegin
  /-- `DEC_SYM -> s` (44_decoder R202) -/
  | decSym
  /-- `DEC_END` (44_decoder R203) -/
  | decEnd
  /-- `ABORT`; its `arg` is ignored, so it is no operand (45_run_control R211, 30_encoding R107) -/
  | abort
  /-- `T_NEW` (41_frequency_table R141) -/
  | tNew
  /-- `T_IEND s -> c`, the operand carried as `idx = s + 1` (41_frequency_table R142, 30_encoding R99) -/
  | tIend (idx : BitVec 9)
  /-- `T_SYM p -> s` (41_frequency_table R144) -/
  | tSym (p : BitVec 30)
  /-- `T_UPD s` (41_frequency_table R148) -/
  | tUpd (s : Sym)
  /-- `NARROW s` (42_renormalizer R161) -/
  | narrow (s : Sym)
  /-- `RENORM E` or `RENORM C` (42_renormalizer R165) -/
  | renorm (dir : Dir)
  /-- `BPF b` (42_renormalizer R164) -/
  | bpf (b : Bool)
  /-- `WRITEBITS v, n` (40_bit_stream R121) -/
  | writebits (v : Count) (n : BitVec 7)
  /-- `READBITS n -> v` (40_bit_stream R122) -/
  | readbits (n : BitVec 7)
  /-- `FLUSH` (40_bit_stream R123) -/
  | flush
deriving DecidableEq, Repr

/-- A request word on one of the block's four ports, as wide as the port's format. -/
inductive Request where
  /-- format `HOST`, the host command port (30_encoding R101) -/
  | host (w : BitVec 68)
  /-- format `AFT`, the table's port (30_encoding R102) -/
  | aft (w : BitVec 32)
  /-- format `RN`, the renormalizer's port (30_encoding R103) -/
  | rn (w : BitVec 10)
  /-- format `BSB`, the bit stream port (30_encoding R104) -/
  | bsb (w : BitVec 73)
deriving DecidableEq, Repr

/-- The host commands; the other operations are unit operations (30_encoding R106). -/
def Instr.isHost : Instr → Bool
  | .encBegin _ | .encSym _ | .encEnd | .decBegin | .decSym | .decEnd | .abort => true
  | .tNew | .tIend _ | .tSym _ | .tUpd _ | .narrow _ | .renorm _ | .bpf _ | .writebits _ _ | .readbits _ | .flush => false

end Sys2Proof
end

