-- ==== Sys2Proof/WellFormed.lean ====
section
/-! DEFINITION. Which operations a request word can carry: the two operand constraints the table's bit patterns do not
say (30_encoding R102, R104, R107). -/

namespace Sys2Proof

/-- `idx <= 256` for `T_IEND`, `n <= 64` for `WRITEBITS` and `READBITS`; every other operand is legal at every value of
its width. -/
def Instr.wellFormed : Instr → Bool
  | .tIend idx => decide (idx.toNat ≤ alphabetSize)
  | .writebits _ n => decide (n.toNat ≤ bsMaxN)
  | .readbits n => decide (n.toNat ≤ bsMaxN)
  | .encBegin _ | .encSym _ | .encEnd | .decBegin | .decSym | .decEnd | .abort => true
  | .tNew | .tSym _ | .tUpd _ | .narrow _ | .renorm _ | .bpf _ | .flush => true

/-- The operation can be carried by a request word that selects its row. -/
abbrev Instr.WellFormed (i : Instr) : Prop := i.wellFormed = true

end Sys2Proof
end

