-- ==== Sys2Proof/Decode.lean ====
section
/-! DEFINITION. Decoding of request words (30_encoding R101 to R105, R107), total, rejecting by name; after it the
encoder, and the rows of spec/opcode_table.json as mask and match. -/

namespace Sys2Proof

/-- Why a word selects no operation. The block treats all four alike: `ILLEGAL_CMD` (30_encoding R107). -/
inductive Reject where
  /-- a reserved `op` value -/
  | reservedOp
  /-- a bit set where the format requires 0 -/
  | mustBeZero
  /-- `T_IEND` with `idx > 256` -/
  | indexRange
  /-- `WRITEBITS` or `READBITS` with `n > 64` -/
  | widthRange
deriving DecidableEq, Repr

/-- Accepts `i` when a must-be-zero field is zero. -/
def whenZero {w : Nat} (field : BitVec w) (i : Instr) : Except Reject Instr :=
  if field = 0 then .ok i else .error .mustBeZero

/-- Format `HOST`: `op = cmd[67:64]`, `arg = cmd[63:0]` (30_encoding R101). -/
def decodeHost (w : BitVec 68) : Except Reject Instr :=
  let arg : BitVec 64 := w.extractLsb' 0 64
  match (w.extractLsb' 64 4).toNat with
  | 0x1 => .ok (.encBegin arg)
  | 0x2 => whenZero (w.extractLsb' 8 56) (.encSym (w.extractLsb' 0 8))
  | 0x3 => whenZero arg .encEnd
  | 0x4 => whenZero arg .decBegin
  | 0x5 => whenZero arg .decSym
  | 0x6 => whenZero arg .decEnd
  | 0x7 => .ok .abort
  | _ => .error .reservedOp

/-- Format `AFT`: `op = req[31:30]`, `arg = req[29:0]` (30_encoding R102). -/
def decodeAft (w : BitVec 32) : Except Reject Instr :=
  match (w.extractLsb' 30 2).toNat with
  | 0 => whenZero (w.extractLsb' 0 30) .tNew
  | 1 =>
    let idx : BitVec 9 := w.extractLsb' 0 9
    if w.extractLsb' 9 21 ≠ 0 then .error .mustBeZero
    else if idx.toNat ≤ alphabetSize then .ok (.tIend idx)
    else .error .indexRange
  | 2 => .ok (.tSym (w.extractLsb' 0 30))
  | _ => whenZero (w.extractLsb' 8 22) (.tUpd (w.extractLsb' 0 8))

/-- `dir` 0 is emit, 1 is consume (30_encoding R103). -/
def dirOfBit : Bool → Dir
  | false => .emit
  | true => .consume

/-- Format `RN`: `op = req[9:8]`, `arg = req[7:0]` (30_encoding R103). -/
def decodeRn (w : BitVec 10) : Except Reject Instr :=
  match (w.extractLsb' 8 2).toNat with
  | 0 => .ok (.narrow (w.extractLsb' 0 8))
  | 1 => whenZero (w.extractLsb' 1 7) (.renorm (dirOfBit (w.getLsbD 0)))
  | 2 => whenZero (w.extractLsb' 1 7) (.bpf (w.getLsbD 0))
  | _ => .error .reservedOp

/-- Format `BSB`: `op = req[72:71]`, `n = req[70:64]`, `val = req[63:0]` (30_encoding R104). -/
def decodeBsb (w : BitVec 73) : Except Reject Instr :=
  let n : BitVec 7 := w.extractLsb' 64 7
  match (w.extractLsb' 71 2).toNat with
  | 0 => if n.toNat ≤ bsMaxN then .ok (.writebits (w.extractLsb' 0 64) n) else .error .widthRange
  | 1 =>
    if w.extractLsb' 0 64 ≠ 0 then .error .mustBeZero
    else if n.toNat ≤ bsMaxN then .ok (.readbits n)
    else .error .widthRange
  | 2 => whenZero (w.extractLsb' 0 71) .flush
  | _ => .error .reservedOp

/-- The operation a request word asks for, or the reason it selects none (30_encoding R105, R107). -/
def decode : Request → Except Reject Instr
  | .host w => decodeHost w
  | .aft w => decodeAft w
  | .rn w => decodeRn w
  | .bsb w => decodeBsb w

/-- The direction bit of `RENORM` (30_encoding R103). -/
def bitOfDir : Dir → BitVec 1
  | .emit => 0
  | .consume => 1

/-- The request word of an operation, from the formats of 30_encoding R101 to R104. -/
def encode : Instr → Request
  | .encBegin n => .host (0x1#4 ++ n)
  | .encSym v => .host (0x2#4 ++ 0#56 ++ v)
  | .encEnd => .host (0x3#4 ++ 0#64)
  | .decBegin => .host (0x4#4 ++ 0#64)
  | .decSym => .host (0x5#4 ++ 0#64)
  | .decEnd => .host (0x6#4 ++ 0#64)
  | .abort => .host (0x7#4 ++ 0#64)
  | .tNew => .aft (0#2 ++ 0#30)
  | .tIend idx => .aft (1#2 ++ 0#21 ++ idx)
  | .tSym p => .aft (2#2 ++ p)
  | .tUpd s => .aft (3#2 ++ 0#22 ++ s)
  | .narrow s => .rn (0#2 ++ s)
  | .renorm dir => .rn (1#2 ++ 0#7 ++ bitOfDir dir)
  | .bpf b => .rn (2#2 ++ 0#7 ++ BitVec.ofBool b)
  | .writebits v n => .bsb (0#2 ++ n ++ v)
  | .readbits n => .bsb (1#2 ++ n ++ 0#64)
  | .flush => .bsb (2#2 ++ 0#7 ++ 0#64)

/-- A row of spec/opcode_table.json: a word selects it when its bits under the mask are the match (30_encoding R105). -/
inductive Row where
  | host (mask pattern : BitVec 68)
  | aft (mask pattern : BitVec 32)
  | rn (mask pattern : BitVec 10)
  | bsb (mask pattern : BitVec 73)
deriving DecidableEq, Repr

/-- The row of an operation, mask and match as spec/opcode_table.json gives them. -/
def Instr.row : Instr → Row
  | .encBegin _ => .host 0xF0000000000000000 0x10000000000000000
  | .encSym _ => .host 0xFFFFFFFFFFFFFFF00 0x20000000000000000
  | .encEnd => .host 0xFFFFFFFFFFFFFFFFF 0x30000000000000000
  | .decBegin => .host 0xFFFFFFFFFFFFFFFFF 0x40000000000000000
  | .decSym => .host 0xFFFFFFFFFFFFFFFFF 0x50000000000000000
  | .decEnd => .host 0xFFFFFFFFFFFFFFFFF 0x60000000000000000
  | .abort => .host 0xF0000000000000000 0x70000000000000000
  | .tNew => .aft 0xFFFFFFFF 0x00000000
  | .tIend _ => .aft 0xFFFFFE00 0x40000000
  | .tSym _ => .aft 0xC0000000 0x80000000
  | .tUpd _ => .aft 0xFFFFFF00 0xC0000000
  | .narrow _ => .rn 0x300 0x000
  | .renorm _ => .rn 0x3FE 0x100
  | .bpf _ => .rn 0x3FE 0x200
  | .writebits _ _ => .bsb 0x1800000000000000000 0x0000000000000000000
  | .readbits _ => .bsb 0x180FFFFFFFFFFFFFFFF 0x0800000000000000000
  | .flush => .bsb 0x1FFFFFFFFFFFFFFFFFF 0x1000000000000000000

/-- `w & mask = match`, on the row's own port (30_encoding R105). -/
def Row.selects : Row → Request → Bool
  | .host m p, .host w => w &&& m == p
  | .aft m p, .aft w => w &&& m == p
  | .rn m p, .rn w => w &&& m == p
  | .bsb m p, .bsb w => w &&& m == p
  | _, _ => false

/-- One operation of each row, with some operand, for statements about the rows. -/
def tableRows : List Row :=
  [Instr.encBegin 0, .encSym 0, .encEnd, .decBegin, .decSym, .decEnd, .abort, .tNew, .tIend 0, .tSym 0, .tUpd 0,
    .narrow 0, .renorm .emit, .bpf false, .writebits 0 0, .readbits 0, .flush].map Instr.row

/-- The request word with the bits `w`, on the port whose format has `nbits` bits counted in whole bytes: 16 for `RN`
(10 bits), 32 for `AFT`, 72 for `HOST` (68 bits), 80 for `BSB` (73 bits); none when a bit stands above the format's
width (log 24). -/
def requestOfWord (nbits w : Nat) : Option Request :=
  if nbits ≤ 16 then if w < 2 ^ 10 then some (.rn (BitVec.ofNat 10 w)) else none
  else if nbits ≤ 32 then if w < 2 ^ 32 then some (.aft (BitVec.ofNat 32 w)) else none
  else if nbits ≤ 72 then if w < 2 ^ 68 then some (.host (BitVec.ofNat 68 w)) else none
  else if w < 2 ^ 73 then some (.bsb (BitVec.ofNat 73 w)) else none

/-- What the decoder reads from the opcode table's word `w` (log 24). -/
def decodeTableWord (nbits w : Nat) : Option Instr :=
  match requestOfWord nbits w with
  | none => none
  | some r =>
    match decode r with
    | .ok i => some i
    | .error _ => none

end Sys2Proof
end

