-- ==== Sys2Proof/Machine/State.lean ====
section
/-! DEFINITION. The state of one engine instance (10_state R20), plain data, with the inputs of a step (10_state R42) as
fields of it, and the state after reset (10_state R41). -/

namespace Sys2Proof.Machine

/-- The operating mode (10_state R27). -/
inductive Mode where
  /-- no run in progress -/
  | idle
  /-- an encode run is in progress -/
  | enc
  /-- a decode run is in progress -/
  | dec
  /-- a fault was raised; the run's output is invalid -/
  | fault
deriving DecidableEq, Repr

/-- The fault codes 0 to 8; 9 to 15 are never raised (60_exceptions R221). -/
inductive FaultCode where
  | none
  | ioError
  | shortRead
  | intervalOverflow
  | illegalCmd
  | badMode
  | countMismatch
  | tableRange
  | counterOverflow
deriving DecidableEq, Repr

/-- The stages 0 to 9 of a fault report (60_exceptions R229). -/
inductive Stage where
  | none
  | command
  | header
  | window
  | search
  | narrow
  | renorm
  | update
  | terminate
  | flush
deriving DecidableEq, Repr

/-- The sticky `fault` record, the block's only status (10_state R28). -/
structure FaultRecord where
  code : FaultCode
  symIdx : Count
  stage : Stage
deriving DecidableEq, Repr

/-- The adaptive frequency table (10_state R30, R31, R32): entries 0 to 256 of `count[]` and `interval[]`, each of
`COUNT_BITS` bits. -/
structure Table where
  count : Vector Nat 257
  interval : Vector Nat 257
  totalCount : Nat
deriving DecidableEq, Repr

/-- The response to a request: `status[3:0]` and `result[63:0]` (30_encoding R101, R104). `result` is none where the
spec gives no valid result, a fault (60_exceptions R230), and for a unit word without one (log 9). -/
structure Response where
  status : BitVec 4
  result : Option Count
deriving DecidableEq, Repr

/-- What the world outside may do to the block next (60_exceptions R245, 70_reset R260, R264). -/
inductive HostEvent where
  /-- a request word on one of the ports; a new one comes only after the response to the one before (30_encoding R101) -/
  | request (r : Request)
  /-- reset, at a command boundary (70_reset R260) -/
  | reset
  /-- reset in the middle of a command that was just accepted: it gets no response (70_reset R260, 93 U29) -/
  | resetDuring (r : Request)
  /-- a fresh sink is attached (70_reset R264) -/
  | attachSink
  /-- a source is attached at its first bit (70_reset R264, 10_state R38) -/
  | attachSource (bytes : List Byte)
deriving DecidableEq, Repr

/-- The state of one engine instance (10_state R20). The last five fields are the model's own: the output port and the
inputs of the step (10_state R42) with the counter of the free values. -/
structure State where
  /-- inclusive low bound of the working interval (R21) -/
  l : Word
  /-- inclusive high bound of the working interval (R22) -/
  h : Word
  /-- the decoder's window (R23) -/
  value : Word
  /-- pending opposite bits, a natural number with no upper bound (R24) -/
  bitsToFollow : Nat
  /-- symbol count of the run (R25) -/
  nTotal : Count
  /-- symbols completed in the run (R25) -/
  symIdx : Count
  /-- operating mode (R27) -/
  mode : Mode
  /-- the fault record (R28) -/
  fault : FaultRecord
  /-- the configuration, never written (R29) -/
  cfg : Config
  /-- the frequency table (R30, R31, R32) -/
  table : Table
  /-- every bit accepted by `WRITEBITS` or added by `FLUSH`; `wr_pos` is its length (R37) -/
  wrBits : Bits
  /-- the bytes the far side of the write stream has received (R37) -/
  sink : List Byte
  /-- all bits of the attached source, an input (R38) -/
  rdBits : Bits
  /-- bits already consumed (R38) -/
  rdPos : Nat
  /-- the last response, none before the first (log 9) -/
  response : Option Response
  /-- what the host does next, in order, an input (R42, log 6) -/
  inbox : List HostEvent
  /-- which of the coming transfers the environment fails, in order, an input; a list that has run out fails none
  (40_bit_stream R124, log 5) -/
  ioFails : List Bool
  /-- number of the step, which the free values of the step are taken for (log 3) -/
  tick : Nat
deriving DecidableEq, Repr

/-- The spec's own faults are NEXT states with `mode = FAULT`; this type is for a stop of the model itself. -/
inductive Fault where
  /-- raised by the loop of `RENORM` if it took more than 32 shifts, which it does in no state (42_renormalizer R169);
  safe: the model would stop where the hardware goes on (log 20) -/
  | renormNotEnded
deriving DecidableEq, Repr

/-- What the model has no meaning for. -/
inductive Refusal where
  /-- an instruction that has no meaning yet, named as the opcode table names it; raised only by an arm of `exec`;
  safe -/
  | notModelled (mnemonic : String)
  /-- the host attaches a stream in the middle of a run: not representable (93 U22); raised by the host event, never by
  an instruction; safe (log 8) -/
  | streamAttachedDuringRun
deriving DecidableEq, Repr

/-- `fault` with all fields 0 (10_state R28, R41). -/
def FaultRecord.clear : FaultRecord := { code := .none, symIdx := 0, stage := .none }

/-- A table of zeros. DESIGN CHOICE (log 1): the table at reset, whose content the spec leaves unspecified. -/
def Table.zero : Table :=
  { count := Vector.replicate 257 0, interval := Vector.replicate 257 0, totalCount := 0 }

/-- The machine right after reset (10_state R41): `mode`, `fault`, `wr_bits`, `sink` and `rd_pos` as the spec gives
them; the registers it leaves unspecified at 0, DESIGN CHOICE (log 1); the configuration (log 2), the attached source
(log 7) and the model's own fields (log 3, 5, 6, 9) DESIGN CHOICE. -/
def State.reset : State where
  l := 0
  h := 0
  value := 0
  bitsToFollow := 0
  nTotal := 0
  symIdx := 0
  mode := .idle
  fault := FaultRecord.clear
  cfg := Config.reference
  table := Table.zero
  wrBits := []
  sink := []
  rdBits := []
  rdPos := 0
  response := none
  inbox := []
  ioFails := []
  tick := 0

end Sys2Proof.Machine
end

