-- ==== Sys2Proof/Machine/Operands.lean ====
section
/-! DEFINITION. Operand forms: bits of a field in stream order, packing of bits into bytes, table indexes of a symbol,
sequences of a length the spec leaves open. -/

namespace Sys2Proof.Machine

/-- The low `n` bits of `v`, most-significant bit first (20_memory R62). -/
def bitsOf (v : Count) : Nat → Bits
  | 0 => []
  | n + 1 => v.getLsbD n :: bitsOf v n

/-- The number whose bits, most-significant first, follow the bits of `acc` (20_memory R62). -/
def natOfBits (acc : Nat) : Bits → Nat
  | [] => acc
  | b :: bs => natOfBits (2 * acc + b.toNat) bs

/-- One byte of eight stream bits, the first in bit 7 (20_memory R61). -/
def byteOf (b7 b6 b5 b4 b3 b2 b1 b0 : Bool) : Byte :=
  BitVec.ofNat 8 (natOfBits 0 [b7, b6, b5, b4, b3, b2, b1, b0])

/-- The whole bytes of a bit sequence; up to 7 bits at its end make no byte (20_memory R61). -/
def pack : Bits → List Byte
  | b7 :: b6 :: b5 :: b4 :: b3 :: b2 :: b1 :: b0 :: rest => byteOf b7 b6 b5 b4 b3 b2 b1 b0 :: pack rest
  | _ => []

/-- The bits of a byte in stream order (20_memory R61). -/
def byteBits (b : Byte) : Bits := bitsOf (b.setWidth 64) 8

/-- The bit sequence of a byte sequence, the inverse of packing (20_memory R61). -/
def unpack : List Byte → Bits
  | [] => []
  | b :: bs => byteBits b ++ unpack bs

/-- Pad bits of a `FLUSH` at write position `wrPos` (20_memory R64). -/
def padLength (wrPos : Nat) : Nat := (8 - wrPos % 8) % 8

/-- The array index of `T_IEND s`, whose entry is the cumulative high bound of `s` (30_encoding R99). -/
def highIndex (s : Sym) : Nat := s.toNat + 1

/-- The array index of `T_IEND (s - 1)`, whose entry is the cumulative low bound of `s`; 0 for symbol 0
(30_encoding R99). -/
def lowIndex (s : Sym) : Nat := s.toNat

/-- The index of `T_IEND 255`, whose entry is `denom` (41_frequency_table R143). -/
def denomIndex : Nat := 256

/-- At most `n` elements from the front. It recurses on the list, so that a front of nothing is evaluated although `n`
is a free value. -/
def front {α : Type} : List α → Nat → List α
  | [], _ => []
  | _ :: _, 0 => []
  | x :: xs, n + 1 => x :: front xs n

end Sys2Proof.Machine
end

