-- ==== Sys2Proof/Machine/Flags.lean ====
section
/-! DEFINITION. The block has no condition codes (10_state R28). Its status numbers (mode, fault and stage codes) and the
three branch conditions of the renormalization loop. -/

namespace Sys2Proof.Machine

/-- The 2-bit code of a mode (10_state R27). -/
def Mode.bits : Mode → BitVec 2
  | .idle => 0
  | .enc => 1
  | .dec => 2
  | .fault => 3

/-- The 4-bit fault code, also the status of a response (60_exceptions R221, 30_encoding R101). -/
def FaultCode.bits : FaultCode → BitVec 4
  | .none => 0
  | .ioError => 1
  | .shortRead => 2
  | .intervalOverflow => 3
  | .illegalCmd => 4
  | .badMode => 5
  | .countMismatch => 6
  | .tableRange => 7
  | .counterOverflow => 8

/-- The 4-bit stage code (60_exceptions R229). -/
def Stage.bits : Stage → BitVec 4
  | .none => 0
  | .command => 1
  | .header => 2
  | .window => 3
  | .search => 4
  | .narrow => 5
  | .renorm => 6
  | .update => 7
  | .terminate => 8
  | .flush => 9

/-- The branches of one pass of the renormalization loop (42_renormalizer R165; the labels are the source's, 00_scope
R18). -/
inductive Branch where
  /-- low half -/
  | e2
  /-- high half -/
  | e1
  /-- middle, underflow avoidance -/
  | e3
  /-- the interval is wide enough -/
  | done
deriving DecidableEq, Repr

/-- Branch selection: E2, then E1, then E3, the first that holds (42_renormalizer R166). -/
def branchOf (l h : Nat) : Branch :=
  if h < half then .e2
  else if half ≤ l then .e1
  else if firstQuart ≤ l ∧ h < thirdQuart then .e3
  else .done

/-- The base offset a branch subtracts before doubling (42_renormalizer R165). -/
def Branch.offset : Branch → Nat
  | .e2 => 0
  | .e1 => half
  | .e3 => firstQuart
  | .done => 0

end Sys2Proof.Machine
end

