-- ==== Sys2Proof/Machine/Ops.lean ====
section
/-! DEFINITION. The named operations the meanings share: the outcome of a stretch of pseudocode, the end of a command
(response, fault, refusal), the free values of unspecified state, and the accesses to registers and bit streams. -/

namespace Sys2Proof.Machine

open Host (Outcome)

/-- How a stretch of pseudocode ends (00_scope R15): it runs through with a value, it raises a fault, or the model
stops. Each carries the state so far. -/
inductive Run (α : Type) where
  | done (a : α) (s : State)
  | raised (f : FaultCode) (stage : Stage) (s : State)
  | stopped (r : Fault)
deriving DecidableEq, Repr

/-- Lines run in order; `raise` ends the operation at that point (00_scope R15). -/
def Run.andThen {α β : Type} (r : Run α) (next : α → State → Run β) : Run β :=
  match r with
  | .done a s => next a s
  | .raised f stage s => .raised f stage s
  | .stopped f => .stopped f

/-- A free value of a 32-bit register at a place, for this step (log 3). -/
def State.freeWord (s : State) (site : FreeSite) : Word := BitVec.ofNat 32 (Config.free site s.tick)

/-- A free value of a 64-bit register at a place, for this step (log 3). -/
def State.freeCount (s : State) (site : FreeSite) : Count := BitVec.ofNat 64 (Config.free site s.tick)

/-- A free `COUNT_BITS`-bit value at a place, for the step numbered `tick` (log 3). -/
def freeEntry (cfg : Config) (tick : Nat) (site : FreeSite) : Nat := Config.free site tick % 2 ^ cfg.countBits

/-- An array of the table with the entry `f i` at index `i` (10_state R30, R31). -/
def entries (f : Nat → Nat) : Vector Nat 257 := ⟨⟨(List.range 257).map f⟩, by simp⟩

/-- The coder registers, run counters and table become unspecified (10_state R34, R41; 93 U7, U8): each takes a free
value of its own (log 4). -/
def State.forgetRun (s : State) : State :=
  { s with
    l := s.freeWord .l
    h := s.freeWord .h
    value := s.freeWord .value
    bitsToFollow := Config.free .bitsToFollow s.tick
    nTotal := s.freeCount .nTotal
    symIdx := s.freeCount .symIdx
    table :=
      { count := entries fun i => freeEntry s.cfg s.tick (.count i)
        interval := entries fun i => freeEntry s.cfg s.tick (.interval i)
        totalCount := freeEntry s.cfg s.tick .totalCount } }

/-- `wr_bits` when a command that began at `s0` was cut off at `s`: what stood there before, and an unspecified number of
the bits the command wrote (60_exceptions R230, 20_memory R66, R67; log 4). -/
def keptBits (s0 s : State) : Bits :=
  s0.wrBits ++ front (s.wrBits.drop s0.wrBits.length) (Config.free .bitsKept s.tick)

/-- `rd_pos` when a command that began at `s0` was cut off: not before where it stood (20_memory R67) and not past the
end, otherwise unspecified (60_exceptions R230, 20_memory R66; log 4). -/
def freeReadPos (s0 : State) : Nat :=
  s0.rdPos + min (Config.free .readPos s0.tick) (s0.rdBits.length - s0.rdPos)

/-- `rd_pos` when reset cuts off a command that began at `s0` and had come to `s`: an unspecified number of the bits the
command read have been taken, none where it read none (70_reset R260; log 22). -/
def keptReads (s0 s : State) : Nat :=
  s0.rdPos + min (s.rdPos - s0.rdPos) (Config.free .readPos s0.tick)

/-- The response of a request that did not fault (30_encoding R101). -/
def State.respond (s : State) (result : Option Count) : State :=
  { s with response := some { status := FaultCode.bits .none, result := result } }

/-- The record a fault leaves: the first fault of the run stands while `mode = FAULT` (10_state R28, 60_exceptions R234);
otherwise code, symbol index (0 if no run has begun) and stage (60_exceptions R230). -/
def State.faultRecordOf (s : State) (f : FaultCode) (stage : Stage) : FaultRecord :=
  match s.mode with
  | .fault => s.fault
  | .idle => { code := f, symIdx := 0, stage := stage }
  | .enc | .dec => { code := f, symIdx := s.symIdx, stage := stage }

/-- FAULT ENTRY, `raise F(stage)`, of a command that began at `s0` and raised at `s` (60_exceptions R230): the record, the
mode, the response with the code and no valid result; every other piece of run state and the stream positions are
unspecified. -/
def State.takeFault (s0 s : State) (f : FaultCode) (stage : Stage) : State :=
  { s.forgetRun with
    fault := s.faultRecordOf f stage
    mode := .fault
    wrBits := keptBits s0 s
    rdPos := freeReadPos s0
    response := some { status := f.bits, result := none } }

/-- There is no return from a fault (60_exceptions R233). What `ABORT` and reset do instead: `mode` and the record are
cleared (45_run_control R211, 70_reset R260). -/
def State.clearFault (s : State) : State :=
  { s with mode := .idle, fault := FaultRecord.clear }

/-- A command in `mode = FAULT` does nothing; its response carries `status = fault.code` (45_run_control R212) and the
result its port gives then. -/
def State.refuse (s : State) (result : Option Count) : State :=
  { s with response := some { status := s.fault.code.bits, result := result } }

/-- The result of a refused word: 0 on the host port, "defined per command, else 0" (30_encoding R101); none on a unit
port, whose formats give a result to named operations only (30_encoding R102 to R104; log 9). -/
def refusedResult : Request → Option Count
  | .host _ => some 0
  | .aft _ | .rn _ | .bsb _ => none

/-- The end of an operation that began at `s0`: its response, or fault entry. -/
def finish (s0 : State) (r : Run (Option Count)) : Outcome State Fault Refusal :=
  match r with
  | .done result s => .next (s.respond result)
  | .raised f stage s => .next (s0.takeFault s f stage)
  | .stopped r => .fault r

/-- A host command other than `ABORT`: the refusal in `mode = FAULT` is tested before its own pseudocode
(45_run_control R212, 60_exceptions R238, 90_conflicts C10). -/
def hostCommand (s : State) (body : State → Run (Option Count)) : Outcome State Fault Refusal :=
  if s.mode = .fault then .next (s.refuse (some 0)) else finish s (body s)

/-- A unit operation issued directly bypasses the mode checks (30_encoding R106; log 10). -/
def unitOperation (s : State) (body : State → Run (Option Count)) : Outcome State Fault Refusal :=
  finish s (body s)

/-- A word that selects no operation raises `ILLEGAL_CMD` in stage `COMMAND`, after the refusal in `FAULT`
(60_exceptions R225, R238; log 13). -/
def illegalRequest (r : Request) (s : State) : Outcome State Fault Refusal :=
  if s.mode = .fault then .next (s.refuse (refusedResult r))
  else finish s (.raised .illegalCmd .command s)

/-- The environment's choice for the next transfer (40_bit_stream R124). -/
def State.transferFails (s : State) : Bool := s.ioFails.headD false

/-- One transfer has been made. -/
def State.afterTransfer (s : State) : State := { s with ioFails := s.ioFails.tail }

/-- Bits are accepted by the write side, in order (10_state R37). -/
def State.appendBits (s : State) (bits : Bits) : State := { s with wrBits := s.wrBits ++ bits }

/-- `BsWrite(v, n)` in the stage of the caller (40_bit_stream R121). -/
def bsWrite (stage : Stage) (v : Count) (n : Nat) (s : State) : Run Unit :=
  if bsMaxN < n then .raised .illegalCmd stage s
  else if n = 0 then .done () s
  else
    let written := s.afterTransfer.appendBits (bitsOf v n)
    if s.transferFails then .raised .ioError stage written else .done () written

/-- The bits not yet consumed (10_state R38). -/
def State.remaining (s : State) : Bits := s.rdBits.drop s.rdPos

/-- One transfer has been made that took the next `n` bits, or as many as are left (10_state R38). -/
def State.takeBits (s : State) (n : Nat) : State :=
  { s.afterTransfer with rdPos := s.rdPos + min n s.remaining.length }

/-- `BsRead(n)` in the stage of the caller (40_bit_stream R122); the order of its faults is 60_exceptions R238's. A read
that fails is left with the most it may have taken: how much it took is unspecified (20_memory R66). -/
def bsRead (stage : Stage) (n : Nat) (s : State) : Run Count :=
  if bsMaxN < n then .raised .illegalCmd stage s
  else if n = 0 then .done 0 s
  else if s.transferFails then .raised .ioError stage (s.takeBits n)
  else if s.remaining.length < n then .raised .shortRead stage (s.takeBits n)
  else .done (BitVec.ofNat 64 (natOfBits 0 (s.remaining.take n))) (s.takeBits n)

/-- `BsFlush()` in the stage of the caller (40_bit_stream R123). -/
def bsFlush (stage : Stage) (s : State) : Run Unit :=
  let padded := s.afterTransfer.appendBits (List.replicate (padLength s.wrBits.length) padBit)
  if s.transferFails then .raised .ioError stage padded
  else .done () { padded with sink := pack padded.wrBits }

/-- `sym_idx <- sym_idx + 1` (43_encoder R182, 44_decoder R202); past 64 bits, which `sym_idx < n_total` rules out, the
spec states no value (log 18). -/
def State.countSymbol (s : State) : State :=
  { s with
    symIdx := if s.symIdx.toNat + 1 < 2 ^ 64 then s.symIdx + 1 else s.freeCount .nextSymIdx }

/-- Whole bytes may move from the write buffer to the sink at any time (10_state R37, R39; 93 U10, U11; log 14). -/
def State.drain (s : State) : State :=
  { s with
    sink := s.sink ++ front ((pack s.wrBits).drop s.sink.length) (Config.free .sinkGrowth s.tick) }

end Sys2Proof.Machine
end

