-- ==== Sys2Proof/Machine/Control.lean ====
section
/-! DEFINITION. The host command `ABORT` (45_run_control). -/

namespace Sys2Proof.Machine

open Host (Outcome)

/-- The pseudocode of `ABORT`: `mode` and `fault` are cleared, the streams are not touched; a run or a fault it ends
leaves the coder registers, counters and table unspecified, and in `IDLE` it changes nothing (45_run_control R211;
log 4, 27). -/
def abortBody (s : State) : Run (Option Count) :=
  .done (some 0) (if s.mode = .idle then s.clearFault else s.forgetRun.clearFault)

/-- `ABORT`, legal in every mode, `FAULT` included (45_run_control R211, R212). -/
def execAbort (s : State) : Outcome State Fault Refusal := finish s (abortBody s)

end Sys2Proof.Machine
end

