-- ==== Sys2Proof/Machine/FreqTable.lean ====
section
/-! DEFINITION. The adaptive frequency table's operations `T_NEW`, `T_IEND`, `T_SYM`, `T_UPD` (41_frequency_table). -/

namespace Sys2Proof.Machine

open Host (Outcome)

/-- The entry `count[i]` (10_state R30). -/
def Table.cnt (t : Table) (i : Nat) : Nat := t.count[i]?.getD 0

/-- The entry `interval[i]` (10_state R31). -/
def Table.iv (t : Table) (i : Nat) : Nat := t.interval[i]?.getD 0

/-- The table `T_NEW` leaves (41_frequency_table R141). -/
def Table.fresh : Table :=
  { count := entries fun i => if i = 0 then 0 else 1
    interval := entries fun i => i
    totalCount := 256 }

/-- What a register of `COUNT_BITS` bits holds when `x` is stored: `x` if it fits; if not, which no table that meets
its invariants brings about, the spec states no value (log 15). -/
def fitEntry (cfg : Config) (tick : Nat) (site : FreeSite) (x : Nat) : Nat :=
  if x < 2 ^ cfg.countBits then x else freeEntry cfg tick site

/-- The increment of `T_UPD s`: `count[s+1]`, `totalCount`, and `interval[s+1]` to `interval[256]` each by 1
(41_frequency_table R148). The total is the exact sum the rescale test reads; it stands only below the ceiling, where it
fits. -/
def Table.increment (cfg : Config) (tick : Nat) (s : Sym) (t : Table) : Table :=
  { count := entries fun i =>
      if i = highIndex s then fitEntry cfg tick .newCount (t.cnt i + 1) else t.cnt i
    interval := entries fun i =>
      if highIndex s ≤ i then fitEntry cfg tick (.newInterval i) (t.iv i + 1) else t.iv i
    totalCount := t.totalCount + 1 }

/-- Floor division by `RESCALE_DIVISOR`, clamped to 1 (41_frequency_table R149). -/
def halved (count : Nat) : Nat := max 1 (count / rescaleDivisor)

/-- `interval[i]` rebuilt from scratch: `interval[i] <- interval[i-1] + count[i]` from the entry 0 up
(41_frequency_table R148). -/
def rebuiltInterval (cfg : Config) (tick : Nat) (base : Nat) (count : Nat → Nat) : Nat → Nat
  | 0 => base
  | i + 1 => fitEntry cfg tick (.rebuilt (i + 1)) (rebuiltInterval cfg tick base count i + count (i + 1))

/-- The rescale: `count[1..256]` halved, `interval[1..256]` rebuilt, `totalCount` the new sum; entries 0 are not touched
(41_frequency_table R148, R149). -/
def Table.rescale (cfg : Config) (tick : Nat) (t : Table) : Table :=
  let counts := entries fun i => if i = 0 then t.cnt 0 else halved (t.cnt i)
  let sums := rebuiltInterval cfg tick (t.iv 0) (fun i => counts[i]?.getD 0)
  { count := counts
    interval := entries sums
    totalCount := sums 256 }

/-- `T_UPD s`: the increment, then the rescale if `totalCount >= CEILING`, also of a larger total that a test injects
(41_frequency_table R148, 92_eei_decisions D10). -/
def Table.update (cfg : Config) (tick : Nat) (s : Sym) (t : Table) : Table :=
  let t' := t.increment cfg tick s
  if cfg.ceiling ≤ t'.totalCount then t'.rescale cfg tick else t'

/-- The smallest `s` in 0 to 255 with `interval[s+1] > p` (41_frequency_table R144, 90_conflicts C1). -/
def Table.search (t : Table) (p : Nat) : Option Nat :=
  (List.range 256).find? fun s => decide (p < t.iv (s + 1))

/-- `T_NEW` on the state: the table is created (41_frequency_table R141). -/
def State.newTable (s : State) : State := { s with table := Table.fresh }

/-- `T_IEND` in the stage of the caller (41_frequency_table R142). -/
def tableIntervalEnd (stage : Stage) (idx : Nat) (s : State) : Run Nat :=
  if alphabetSize < idx then .raised .tableRange stage s else .done (s.table.iv idx) s

/-- `T_SYM p` in the stage of the caller (41_frequency_table R144). Where no entry exceeds `p`, which the table's
invariants rule out, the spec states no symbol (log 17). -/
def tableSymbolFor (stage : Stage) (p : Nat) (s : State) : Run Sym :=
  if s.table.totalCount ≤ p then .raised .tableRange stage s
  else
    match s.table.search p with
    | some v => .done (BitVec.ofNat 8 v) s
    | none => .done (BitVec.ofNat 8 (Config.free .symbol s.tick)) s

/-- `T_UPD v` on the state; it cannot fail (41_frequency_table R148). -/
def State.updateTable (s : State) (v : Sym) : State :=
  { s with table := s.table.update s.cfg s.tick v }

/-- The pseudocode of `T_NEW` (41_frequency_table R141). -/
def tNewBody (s : State) : Run (Option Count) := .done none s.newTable

/-- The pseudocode of `T_IEND`, issued directly (41_frequency_table R142). -/
def tIendBody (idx : BitVec 9) (s : State) : Run (Option Count) :=
  (tableIntervalEnd .none idx.toNat s).andThen fun c s => .done (some (BitVec.ofNat 64 c)) s

/-- The pseudocode of `T_SYM`, issued directly (41_frequency_table R144). -/
def tSymBody (p : BitVec 30) (s : State) : Run (Option Count) :=
  (tableSymbolFor .none p.toNat s).andThen fun v s => .done (some (v.setWidth 64)) s

/-- The pseudocode of `T_UPD` (41_frequency_table R148). -/
def tUpdBody (v : Sym) (s : State) : Run (Option Count) := .done none (s.updateTable v)

/-- `T_NEW` (41_frequency_table R141). -/
def execTNew (s : State) : Outcome State Fault Refusal := unitOperation s tNewBody

/-- `T_IEND s -> c`, with `idx = s + 1` (41_frequency_table R142). -/
def execTIend (idx : BitVec 9) (s : State) : Outcome State Fault Refusal :=
  unitOperation s (tIendBody idx)

/-- `T_SYM p -> s` (41_frequency_table R144). -/
def execTSym (p : BitVec 30) (s : State) : Outcome State Fault Refusal :=
  unitOperation s (tSymBody p)

/-- `T_UPD s` (41_frequency_table R148). -/
def execTUpd (v : Sym) (s : State) : Outcome State Fault Refusal := unitOperation s (tUpdBody v)

end Sys2Proof.Machine
end

