-- ==== Sys2Proof/Machine/Renorm.lean ====
section
/-! DEFINITION. The interval renormalizer's operations `NARROW`, `BPF`, `RENORM` (42_renormalizer): one copy of the shift
step for encoder and decoder (70_reset R271). -/

namespace Sys2Proof.Machine

open Host (Outcome)

/-- `delta = h - l + 1`, 1 to 2^32 (42_renormalizer R161, R162). -/
def State.delta (s : State) : Nat := s.h.toNat - s.l.toNat + 1

/-- `denom`, read through `T_IEND 255` (41_frequency_table R143). -/
def State.denom (s : State) : Nat := s.table.iv denomIndex

/-- `(bound * delta) / denom`: the exact product first, then floor division (42_renormalizer R161, 70_reset R268). -/
def State.scaled (s : State) (bound : Nat) : Nat := bound * s.delta / s.denom

/-- The new `h`, `l + (hi * delta) / denom - 1` (42_renormalizer R161). On a table that breaks its invariants the divisor
can be 0, or the number none of 32 bits: no value is stated there (log 16). -/
def State.narrowedH (s : State) (v : Sym) : Word :=
  let x := s.l.toNat + s.scaled (s.table.iv (highIndex v))
  if s.denom ≠ 0 ∧ 1 ≤ x ∧ x - 1 ≤ top then BitVec.ofNat 32 (x - 1) else s.freeWord .narrowH

/-- The new `l`, `l + (lo * delta) / denom` (42_renormalizer R161; log 16 as for `h`). -/
def State.narrowedL (s : State) (v : Sym) : Word :=
  let x := s.l.toNat + s.scaled (s.table.iv (lowIndex v))
  if s.denom ≠ 0 ∧ x ≤ top then BitVec.ofNat 32 x else s.freeWord .narrowL

/-- `NARROW v`: both new bounds from the old `l` and the same `delta` (42_renormalizer R161). -/
def narrowInterval (v : Sym) (s : State) : Run Unit :=
  if s.h.toNat < s.l.toNat then .raised .intervalOverflow .narrow s
  else .done () { s with l := s.narrowedL v, h := s.narrowedH v }

/-- `k` times `BsWrite(b, 1)` (42_renormalizer R164). -/
def writeRepeated (stage : Stage) (b : Bool) : Nat → State → Run Unit
  | 0, s => .done () s
  | k + 1, s => (bsWrite stage ((BitVec.ofBool b).setWidth 64) 1 s).andThen fun _ s => writeRepeated stage b k s

/-- `BPF b` in the stage of the caller: the decided bit, then `bitsToFollow` opposite bits, then the count is cleared
(42_renormalizer R164). -/
def bitPlusFollow (stage : Stage) (b : Bool) (s : State) : Run Unit :=
  (writeRepeated stage b 1 s).andThen fun _ s =>
    (writeRepeated stage (!b) s.bitsToFollow s).andThen fun _ s => .done () { s with bitsToFollow := 0 }

/-- What a branch emits in direction `E`; nothing in direction `C` (42_renormalizer R165). -/
def branchOutput (dir : Dir) (b : Branch) (s : State) : Run Unit :=
  match dir, b with
  | .emit, .e2 => bitPlusFollow .renorm false s
  | .emit, .e1 => bitPlusFollow .renorm true s
  | .emit, .e3 => .done () { s with bitsToFollow := s.bitsToFollow + 1 }
  | .emit, .done => .done () s
  | .consume, _ => .done () s

/-- The bit a shift reads in direction `C` (42_renormalizer R165); none in direction `E`. -/
def shiftInput (dir : Dir) (s : State) : Run Count :=
  match dir with
  | .emit => .done 0 s
  | .consume => bsRead .renorm 1 s

/-- The direction is `C`, where `value` is shifted too. -/
def consumes : Dir → Bool
  | .emit => false
  | .consume => true

/-- The shift step, common to the three branches: the underflow guard, the read, the doubling of wide values, the check
against `top`, the stores (42_renormalizer R165, R167, R168). -/
def shiftStep (dir : Dir) (off : Nat) (s : State) : Run Unit :=
  if s.l.toNat < off ∨ s.h.toNat < off ∨ (consumes dir ∧ s.value.toNat < off) then
    .raised .intervalOverflow .renorm s
  else
    (shiftInput dir s).andThen fun bit s =>
      let l2 := 2 * (s.l.toNat - off)
      let h2 := 2 * (s.h.toNat - off) + 1
      let v2 := 2 * (s.value.toNat - off) + bit.toNat
      if top < l2 ∨ top < h2 ∨ (consumes dir ∧ top < v2) then .raised .intervalOverflow .renorm s
      else
        .done ()
          { s with
            l := BitVec.ofNat 32 l2
            h := BitVec.ofNat 32 h2
            value := if consumes dir then BitVec.ofNat 32 v2 else s.value }

/-- One pass through the loop's body that takes a branch (42_renormalizer R165). -/
def renormPass (dir : Dir) (b : Branch) (s : State) : Run Unit :=
  (branchOutput dir b s).andThen fun _ s => shiftStep dir b.offset s

/-- The loop of `RENORM`, left when no condition holds; `fuel` passes are more than it takes (42_renormalizer R165, R169;
log 20). -/
def renormLoop (dir : Dir) : Nat → State → Run Unit
  | 0, _ => .stopped .renormNotEnded
  | fuel + 1, s =>
    match branchOf s.l.toNat s.h.toNat with
    | .done => .done () s
    | b => (renormPass dir b s).andThen fun _ s => renormLoop dir fuel s

/-- At most 32 shifts, then the pass that finds no condition (42_renormalizer R169). -/
def renormFuel : Nat := 33

/-- `RENORM dir` (42_renormalizer R165). -/
def renormalize (dir : Dir) (s : State) : Run Unit := renormLoop dir renormFuel s

/-- The pseudocode of `NARROW` (42_renormalizer R161). -/
def narrowBody (v : Sym) (s : State) : Run (Option Count) := (narrowInterval v s).andThen fun _ s => .done none s

/-- The pseudocode of `RENORM` (42_renormalizer R165). -/
def renormBody (dir : Dir) (s : State) : Run (Option Count) := (renormalize dir s).andThen fun _ s => .done none s

/-- The pseudocode of `BPF`, issued directly (42_renormalizer R164; log 12). -/
def bpfBody (b : Bool) (s : State) : Run (Option Count) := (bitPlusFollow .none b s).andThen fun _ s => .done none s

/-- `NARROW s` (42_renormalizer R161). -/
def execNarrow (v : Sym) (s : State) : Outcome State Fault Refusal := unitOperation s (narrowBody v)

/-- `RENORM E` or `RENORM C` (42_renormalizer R165). -/
def execRenorm (dir : Dir) (s : State) : Outcome State Fault Refusal := unitOperation s (renormBody dir)

/-- `BPF b` (42_renormalizer R164). -/
def execBpf (b : Bool) (s : State) : Outcome State Fault Refusal := unitOperation s (bpfBody b)

end Sys2Proof.Machine
end

