-- ==== Sys2Proof/Machine/Decoder.lean ====
section
/-! DEFINITION. The decoder's host commands `DEC_BEGIN`, `DEC_SYM`, `DEC_END` (44_decoder). -/

namespace Sys2Proof.Machine

open Host (Outcome)

/-- The pseudocode of `DEC_BEGIN -> n` (44_decoder R201). -/
def decBeginBody (s : State) : Run (Option Count) :=
  if s.mode ≠ .idle then .raised .badMode .command s
  else
    let begun := { s.newTable with
      mode := .dec
      symIdx := 0
      l := 0
      h := BitVec.ofNat 32 top }
    (bsRead .header headerBits begun).andThen fun n s =>
      (bsRead .window intervalBits { s with nTotal := n }).andThen fun w s =>
        .done (some n) { s with value := w.setWidth 32 }

/-- The decoder's `position = ((value - l + 1) * denom - 1) / delta` (44_decoder R202). With `denom = 0`, which a table
that meets its invariants never has, the subtraction goes below zero and no value is stated (log 17). -/
def State.position (s : State) : Nat :=
  let product := (s.value.toNat - s.l.toNat + 1) * s.denom
  if 1 ≤ product then (product - 1) / s.delta else Config.free .position s.tick

/-- Stage `SEARCH` of `DEC_SYM`: the guard, the position, the symbol (44_decoder R202). -/
def searchSymbol (s : State) : Run Sym :=
  if s.value.toNat < s.l.toNat ∨ s.h.toNat < s.value.toNat then .raised .intervalOverflow .search s
  else tableSymbolFor .search s.position s

/-- The pseudocode of `DEC_SYM -> s` (44_decoder R202). -/
def decSymBody (s : State) : Run (Option Count) :=
  if s.mode ≠ .dec then .raised .badMode .command s
  else if s.symIdx = s.nTotal then .raised .countMismatch .command s
  else
    (searchSymbol s).andThen fun v s =>
      (narrowInterval v s).andThen fun _ s =>
        (renormalize .consume s).andThen fun _ s =>
          .done (some (v.setWidth 64)) (s.updateTable v).countSymbol

/-- The pseudocode of `DEC_END` (44_decoder R203); after it the table, coder registers and counters are unspecified
(10_state R34, 93 U8; log 4). -/
def decEndBody (s : State) : Run (Option Count) :=
  if s.mode ≠ .dec then .raised .badMode .command s
  else if s.symIdx ≠ s.nTotal then .raised .countMismatch .command s
  else .done (some 0) { s.forgetRun with mode := .idle }

/-- `DEC_BEGIN -> n` (44_decoder R201). -/
def execDecBegin (s : State) : Outcome State Fault Refusal := hostCommand s decBeginBody

/-- `DEC_SYM -> s` (44_decoder R202). -/
def execDecSym (s : State) : Outcome State Fault Refusal := hostCommand s decSymBody

/-- `DEC_END` (44_decoder R203). -/
def execDecEnd (s : State) : Outcome State Fault Refusal := hostCommand s decEndBody

end Sys2Proof.Machine
end

