-- ==== Sys2Proof/Machine/Encoder.lean ====
section
/-! DEFINITION. The encoder's host commands `ENC_BEGIN`, `ENC_SYM`, `ENC_END` (43_encoder). -/

namespace Sys2Proof.Machine

open Host (Outcome)

/-- The pseudocode of `ENC_BEGIN n` (43_encoder R181). -/
def encBeginBody (n : Count) (s : State) : Run (Option Count) :=
  if s.mode ≠ .idle then .raised .badMode .command s
  else
    let begun := { s.newTable with
      mode := .enc
      nTotal := n
      symIdx := 0
      l := 0
      h := BitVec.ofNat 32 top
      bitsToFollow := 0 }
    (bsWrite .header n headerBits begun).andThen fun _ s => .done (some 0) s

/-- The pseudocode of `ENC_SYM v` (43_encoder R182). -/
def encSymBody (v : Sym) (s : State) : Run (Option Count) :=
  if s.mode ≠ .enc then .raised .badMode .command s
  else if s.symIdx = s.nTotal then .raised .countMismatch .command s
  else
    (narrowInterval v s).andThen fun _ s =>
      (renormalize .emit s).andThen fun _ s => .done (some 0) (s.updateTable v).countSymbol

/-- The quarter-select bit of the termination: 0 if `l < firstQuart`, else 1 (43_encoder R183). -/
def quarterBit (s : State) : Bool := decide (firstQuart ≤ s.l.toNat)

/-- The pseudocode of `ENC_END` (43_encoder R183); after it the table, coder registers and counters are unspecified
(43_encoder R183, 10_state R34, 93 U8; log 4). -/
def encEndBody (s : State) : Run (Option Count) :=
  if s.mode ≠ .enc then .raised .badMode .command s
  else if s.symIdx ≠ s.nTotal then .raised .countMismatch .command s
  else
    (bitPlusFollow .terminate (quarterBit s) { s with bitsToFollow := s.bitsToFollow + 1 }).andThen fun _ s =>
      (bsWrite .terminate (s.l.setWidth 64) intervalBits s).andThen fun _ s =>
        (bsFlush .flush s).andThen fun _ s => .done (some 0) { s.forgetRun with mode := .idle }

/-- `ENC_BEGIN n` (43_encoder R181). -/
def execEncBegin (n : Count) (s : State) : Outcome State Fault Refusal := hostCommand s (encBeginBody n)

/-- `ENC_SYM v` (43_encoder R182). -/
def execEncSym (v : Sym) (s : State) : Outcome State Fault Refusal := hostCommand s (encSymBody v)

/-- `ENC_END` (43_encoder R183). -/
def execEncEnd (s : State) : Outcome State Fault Refusal := hostCommand s encEndBody

end Sys2Proof.Machine
end

