-- ==== Sys2Proof/Machine/Stream.lean ====
section
/-! DEFINITION. The bit stream's operations `WRITEBITS`, `READBITS`, `FLUSH` (40_bit_stream). -/

namespace Sys2Proof.Machine

open Host (Outcome)

/-- The pseudocode of `WRITEBITS`; issued directly its stage is `NONE` (40_bit_stream R121, 60_exceptions R229; log 12). -/
def writebitsBody (v : Count) (n : BitVec 7) (s : State) : Run (Option Count) :=
  (bsWrite .none v n.toNat s).andThen fun _ s => .done none s

/-- The pseudocode of `READBITS`, issued directly (40_bit_stream R122; log 12). -/
def readbitsBody (n : BitVec 7) (s : State) : Run (Option Count) :=
  (bsRead .none n.toNat s).andThen fun v s => .done (some v) s

/-- The pseudocode of `FLUSH`, issued directly (40_bit_stream R123; log 12). -/
def flushBody (s : State) : Run (Option Count) := (bsFlush .none s).andThen fun _ s => .done none s

/-- `WRITEBITS v, n` (40_bit_stream R121). -/
def execWritebits (v : Count) (n : BitVec 7) (s : State) : Outcome State Fault Refusal :=
  unitOperation s (writebitsBody v n)

/-- `READBITS n -> v` (40_bit_stream R122). -/
def execReadbits (n : BitVec 7) (s : State) : Outcome State Fault Refusal := unitOperation s (readbitsBody n)

/-- `FLUSH` (40_bit_stream R123). -/
def execFlush (s : State) : Outcome State Fault Refusal := unitOperation s flushBody

end Sys2Proof.Machine
end

