-- ==== Sys2Proof/Machine/Dispatch.lean ====
section
/-! DEFINITION. What each operation does: one arm per constructor, each one call of its meaning. -/

namespace Sys2Proof.Machine

def exec (i : Instr) (s : State) : Host.Outcome State Fault Refusal :=
  match i with
  | .encBegin n => Sys2Proof.Machine.execEncBegin n s
  | .encSym v => Sys2Proof.Machine.execEncSym v s
  | .encEnd => Sys2Proof.Machine.execEncEnd s
  | .decBegin => Sys2Proof.Machine.execDecBegin s
  | .decSym => Sys2Proof.Machine.execDecSym s
  | .decEnd => Sys2Proof.Machine.execDecEnd s
  | .abort => Sys2Proof.Machine.execAbort s
  | .tNew => Sys2Proof.Machine.execTNew s
  | .tIend idx => Sys2Proof.Machine.execTIend idx s
  | .tSym p => Sys2Proof.Machine.execTSym p s
  | .tUpd v => Sys2Proof.Machine.execTUpd v s
  | .narrow v => Sys2Proof.Machine.execNarrow v s
  | .renorm dir => Sys2Proof.Machine.execRenorm dir s
  | .bpf b => Sys2Proof.Machine.execBpf b s
  | .writebits v n => Sys2Proof.Machine.execWritebits v n s
  | .readbits n => Sys2Proof.Machine.execReadbits n s
  | .flush => Sys2Proof.Machine.execFlush s

end Sys2Proof.Machine
end

