-- ==== Sys2Proof/Machine/Events.lean ====
section
/-! DEFINITION. What the block does on an event from outside: a request, a reset, an attached stream (60_exceptions R245,
70_reset R260, R264). -/

namespace Sys2Proof.Machine

open Host (Outcome)

/-- A request word is decoded and executed; a word that selects no operation raises `ILLEGAL_CMD` (30_encoding R107). -/
def serve (r : Request) (s : State) : Outcome State Fault Refusal :=
  match decode r with
  | .ok i => exec i s
  | .error _ => illegalRequest r s

/-- RESET: `mode = IDLE`, the `fault` record zero, everything else unspecified, the streams and the configuration
untouched, no response (70_reset R260, 10_state R41; log 4). -/
def State.afterReset (s : State) : State := { s.forgetRun.clearFault with response := none }

/-- The pseudocode of an operation, without the refusal in `FAULT` and without its response. -/
def body (i : Instr) (s : State) : Run (Option Count) :=
  match i with
  | .encBegin n => encBeginBody n s
  | .encSym v => encSymBody v s
  | .encEnd => encEndBody s
  | .decBegin => decBeginBody s
  | .decSym => decSymBody s
  | .decEnd => decEndBody s
  | .abort => abortBody s
  | .tNew => tNewBody s
  | .tIend idx => tIendBody idx s
  | .tSym p => tSymBody p s
  | .tUpd v => tUpdBody v s
  | .narrow v => narrowBody v s
  | .renorm dir => renormBody dir s
  | .bpf b => bpfBody b s
  | .writebits v n => writebitsBody v n s
  | .readbits n => readbitsBody n s
  | .flush => flushBody s

/-- An operation that is refused in `FAULT`: a host command other than `ABORT` (45_run_control R212). -/
def refusable (i : Instr) : Bool := i.isHost && i != .abort

/-- How far a request word comes in the pseudocode it asks for: not at all where it is refused or selects no operation
(45_run_control R212, 30_encoding R107). -/
def progress (r : Request) (s : State) : Run (Option Count) :=
  match decode r with
  | .ok i => if refusable i && s.mode == .fault then .done none s else body i s
  | .error _ => .done none s

/-- Reset that cuts off an operation, begun at `s0`, which would have come to `s`: the state is as after reset; of the
bits it would have written and read an unspecified part has been, and nothing of the stream has moved where it would
have moved none (70_reset R260, 93 U29; log 22). -/
def State.cutOff (s0 s : State) : State :=
  { s0.afterReset with wrBits := keptBits s0 s, rdPos := keptReads s0 s }

/-- A run is in progress (10_state R27). -/
def State.running (s : State) : Bool := s.mode = .enc || s.mode = .dec

/-- The block's answer to an event. Touching the stream in the middle of a run is not representable (93 U22; log 8). -/
def handle (e : HostEvent) (s : State) : Outcome State Fault Refusal :=
  match e with
  | .request r => serve r s
  | .reset => .next s.afterReset
  | .resetDuring r =>
    match progress r s with
    | .done _ s' => .next (s.cutOff s')
    | .raised _ _ s' => .next (s.cutOff s')
    | .stopped f => .fault f
  | .attachSink => if s.running then .refused .streamAttachedDuringRun else .next { s with wrBits := [], sink := [] }
  | .attachSource bytes =>
    if s.running then .refused .streamAttachedDuringRun else .next { s with rdBits := unpack bytes, rdPos := 0 }

/-- The end of a step: whole bytes may have moved to the sink (log 14), and the free values of the next step are others
(log 3). -/
def State.settle (s : State) : State := { s.drain with tick := s.tick + 1 }

/-- The same change on the next state of an outcome. -/
def settled : Outcome State Fault Refusal → Outcome State Fault Refusal
  | .next s => .next s.settle
  | .fault f => .fault f
  | .refused r => .refused r

/-- The event, taken from the inbox (20_memory R74: one at a time, in the order issued); without one the block waits
(60_exceptions R230). -/
def nextEvent (s : State) : Outcome State Fault Refusal :=
  match s.inbox with
  | [] => .next s
  | e :: rest => handle e { s with inbox := rest }

end Sys2Proof.Machine
end

