-- ==== Sys2Proof/Machine/Step.lean ====
section
/-! DEFINITION. One step of the machine: the next event from outside is handled. -/

namespace Sys2Proof.Machine

/-- One step: the next event of the inbox, and what may have moved to the sink meanwhile. -/
def step (s : State) : Host.Outcome State Fault Refusal := settled (nextEvent s)

/-- `s` with the request word `w` as the host's next event, before any other: the block fetches nothing (10_state R26,
20_memory R74), it takes the next request (log 6, 24). A word wider than its port cannot be presented. -/
def State.withFetchWord (s : State) (nbits w : Nat) : State :=
  match requestOfWord nbits w with
  | some r => { s with inbox := .request r :: s.inbox }
  | none => s

end Sys2Proof.Machine
end

