-- ==== Sys2Proof/Safety.lean ====
section
/-! DEFINITION. The terms claims use: the invariants the spec states of the table, the coder registers, the fault record
and the streams, and the premises of a run. -/

namespace Sys2Proof.Machine

/-- The constraint the opcode table adds to the bit patterns of `T_IEND`, `WRITEBITS` and `READBITS`: `idx <= 256`, `n <= 64`
(30_encoding R102, R104, R107). -/
def OperandInRange (r : Request) : Prop :=
  match r with
  | .aft w => w.extractLsb' 30 2 = 1 → (w.extractLsb' 0 9).toNat ≤ 256
  | .bsb w => w.extractLsb' 71 2 = 0 ∨ w.extractLsb' 71 2 = 1 → (w.extractLsb' 64 7).toNat ≤ 64
  | .host _ | .rn _ => True

/-- A request word asks for an operation: it selects a row of the opcode table and meets the row's constraint
(30_encoding R105, R107). -/
def SelectsOperation (r : Request) : Prop := (∃ row ∈ tableRows, row.selects r = true) ∧ OperandInRange r

/-- No transfer of the run fails: the premise of a claim about successful runs (40_bit_stream R124). -/
def State.NoTransferFails (s : State) : Prop := ∀ fails ∈ s.ioFails, fails = false

/-- The next `k` transfers succeed (40_bit_stream R124). -/
def State.NextTransfersSucceed (s : State) (k : Nat) : Prop := ∀ fails ∈ s.ioFails.take k, fails = false

/-- The table invariants (10_state R33). -/
structure Table.Valid (cfg : Config) (t : Table) : Prop where
  /-- (a) -/
  zeroBase : t.cnt 0 = 0 ∧ t.iv 0 = 0
  /-- (b) -/
  positive : ∀ i, 1 ≤ i → i ≤ 256 → 1 ≤ t.cnt i
  /-- (c) -/
  sums : ∀ i, i < 256 → t.iv (i + 1) = t.iv i + t.cnt (i + 1)
  /-- (d) -/
  total : t.totalCount = t.iv 256
  /-- (e) -/
  bounds : 256 ≤ t.totalCount ∧ t.totalCount < cfg.ceiling

/-- Every table register holds a number of `COUNT_BITS` bits (10_state R20, R30, R31, R32). -/
structure Table.Fits (cfg : Config) (t : Table) : Prop where
  count : ∀ i, i ≤ 256 → t.cnt i < 2 ^ cfg.countBits
  interval : ∀ i, i ≤ 256 → t.iv i < 2 ^ cfg.countBits
  total : t.totalCount < 2 ^ cfg.countBits

/-- The working interval as it stands between symbols: (a) and (b) of 10_state R40. -/
structure State.Wide (s : State) : Prop where
  lowHalf : s.l.toNat < half
  highHalf : half ≤ s.h.toNat
  notMiddle : s.l.toNat < firstQuart ∨ thirdQuart ≤ s.h.toNat

/-- A condition of the loop of `RENORM` holds, and `off` is what the first branch that holds subtracts, in the order E2, E1,
E3 (42_renormalizer R165, R166). -/
def State.ShiftsBy (s : State) (off : Nat) : Prop :=
  s.h.toNat < half ∧ off = 0 ∨
    half ≤ s.h.toNat ∧ half ≤ s.l.toNat ∧ off = half ∨
    half ≤ s.h.toNat ∧ firstQuart ≤ s.l.toNat ∧ s.l.toNat < half ∧ s.h.toNat < thirdQuart ∧ off = firstQuart

/-- The bit at the read position, `false` past the end (10_state R38). -/
def State.nextBit (s : State) : Bool := s.rdBits.getD s.rdPos false

/-- `l <= value <= h` (10_state R40 (c)). -/
def State.ValueInside (s : State) : Prop := s.l.toNat ≤ s.value.toNat ∧ s.value.toNat ≤ s.h.toNat

/-- The invariants of a run that has not faulted, at a boundary between host commands (10_state R33, R40). They say
nothing in `IDLE` and `FAULT`, where the run state is unspecified (60_exceptions R243). -/
structure State.RunInv (s : State) : Prop where
  table : s.running → s.table.Valid s.cfg
  wide : s.running → s.Wide
  value : s.mode = .dec → s.ValueInside
  counted : s.running → s.symIdx.toNat ≤ s.nTotal.toNat

/-- The fault record is set exactly in `mode = FAULT` (10_state R28). -/
structure State.FaultInv (s : State) : Prop where
  set : s.mode = .fault → s.fault.code ≠ .none
  clear : s.mode ≠ .fault → s.fault = FaultRecord.clear

/-- The form of the streams: the sink is a prefix of the packed written bits (10_state R37), the read position does not
pass the end (10_state R38). -/
structure State.StreamsInv (s : State) : Prop where
  sink : s.sink <+: pack s.wrBits
  position : s.rdPos ≤ s.rdBits.length

/-- What every step keeps, whatever the host issues. -/
structure State.Inv (s : State) : Prop where
  fault : s.FaultInv
  streams : s.StreamsInv
  table : s.table.Fits s.cfg

/-- How a fault shows, of an operation begun at `s` with no fault standing: mode, record with the number of symbols
completed before (0 if no run has begun), response with the code and no valid result (60_exceptions R230, R232). -/
structure State.Faulted (s t : State) (code : FaultCode) (stage : Stage) : Prop where
  mode : t.mode = .fault
  record : t.fault = { code := code, symIdx := if s.running then s.symIdx else 0, stage := stage }
  response : t.response = some { status := code.bits, result := none }

end Sys2Proof.Machine
end

