-- ==== Sys2Proof/Certificates/Slice0/Obligations.lean ====
section
/-! DEFINITION. The statements about the machine, from the spec's numbered rules. -/

open Sys2Proof Sys2Proof.Machine

/-! ### Encoding -/

/-- Decoding the word of an operation gives the operation back, at every value of its operands (30_encoding R101 to
R105). -/
def Obligations.DecodeInvertsEncode : Prop :=
  ∀ i : Instr, i.WellFormed → decode (encode i) = .ok i

/-- A word that decodes is the encoding of what it decodes to, but for `ABORT`, whose `arg` is ignored (30_encoding R101,
R107): two words of one operation do not exist. -/
def Obligations.EncodeInvertsDecode : Prop :=
  ∀ (r : Request) (i : Instr), decode r = .ok i →
    i.WellFormed ∧ (encode i = r ∨ (i = .abort ∧ ∃ w : BitVec 68, r = .host w ∧ w.extractLsb' 64 4 = 7))

/-- The decoder accepts exactly the words that select a row of the opcode table and meet its constraint, and gives an
operation of that row (30_encoding R105, R107). -/
def Obligations.DecodeFollowsTheOpcodeTable : Prop :=
  (∀ r : Request, (∃ i, decode r = .ok i) ↔ SelectsOperation r) ∧
    ∀ (r : Request) (i : Instr), decode r = .ok i → i.row.selects r = true

/-- "Within a format the rows' match sets are disjoint" (30_encoding R105). -/
def Obligations.OpcodeRowsAreDisjoint : Prop :=
  ∀ a ∈ tableRows, ∀ b ∈ tableRows, ∀ r : Request, a.selects r = true → b.selects r = true → a = b

/-- Words the spec writes out or that follow from its formats (95_test_vectors section 4; 30_encoding R101 to R104). -/
def Obligations.SpecWordsDecode : Prop :=
  decode (.host 0x10000000000000005) = .ok (.encBegin 5) ∧
    decode (.host 0x20000000000000041) = .ok (.encSym 0x41) ∧
    decode (.host 0x50000000000000000) = .ok .decSym ∧
    decode (.aft 0xC0000000) = .ok (.tUpd 0) ∧
    decode (.aft 0x40000100) = .ok (.tIend 256) ∧
    decode (.aft 0x80000101) = .ok (.tSym 257) ∧
    decode (.rn 0x041) = .ok (.narrow 0x41) ∧
    decode (.rn 0x101) = .ok (.renorm .consume) ∧
    decode (.bsb 0x0090000000000000001) = .ok (.writebits 1 9) ∧
    decode (.bsb 0x0870000000000000000) = .ok (.readbits 7) ∧
    decode (.host 0x20000000000000100) = .error .mustBeZero

/-- A word that selects no operation raises `ILLEGAL_CMD` in stage `COMMAND` (60_exceptions R225). -/
def Obligations.UnselectedWordRaisesIllegalCmd : Prop :=
  ∀ (r : Request) (s : State), ¬SelectsOperation r → s.mode ≠ .fault →
    ∃ t, serve r s = .next t ∧ s.Faulted t .illegalCmd .command

/-! ### The frequency table -/

/-- `T_NEW` leaves the uniform table and changes nothing else (41_frequency_table R141). -/
def Obligations.TNewCreatesTheUniformTable : Prop :=
  ∀ s : State,
    exec .tNew s =
        .next { s with table := Table.fresh, response := some { status := 0, result := none } } ∧
      Table.fresh.cnt 0 = 0 ∧ Table.fresh.iv 0 = 0 ∧
      (∀ i, 1 ≤ i → i ≤ 256 → Table.fresh.cnt i = 1 ∧ Table.fresh.iv i = i) ∧
      Table.fresh.totalCount = 256 ∧ Table.fresh.Valid s.cfg

/-- `T_IEND` returns `interval[idx]` and changes no state; an index past 256 raises `TABLE_RANGE` (41_frequency_table
R142). -/
def Obligations.TIendReturnsTheIntervalEntry : Prop :=
  ∀ (s : State) (idx : BitVec 9), s.table.Fits s.cfg →
    (idx.toNat ≤ 256 →
      ∃ c : Count, c.toNat = s.table.iv idx.toNat ∧
        exec (.tIend idx) s = .next { s with response := some { status := 0, result := some c } }) ∧
    (256 < idx.toNat → s.mode ≠ .fault →
      ∃ t, exec (.tIend idx) s = .next t ∧ s.Faulted t .tableRange .none)

/-- `T_SYM p` returns the one symbol whose range contains `p` and changes no state; `p >= totalCount` raises
`TABLE_RANGE` (41_frequency_table R144). -/
def Obligations.TSymReturnsTheContainingSymbol : Prop :=
  ∀ (s : State) (p : BitVec 30), s.table.Valid s.cfg →
    (p.toNat < s.table.totalCount →
      ∃ v : Sym, s.table.iv v.toNat ≤ p.toNat ∧ p.toNat < s.table.iv (v.toNat + 1) ∧
        (∀ w : Sym, s.table.iv w.toNat ≤ p.toNat → p.toNat < s.table.iv (w.toNat + 1) → w = v) ∧
        exec (.tSym p) s = .next { s with response := some { status := 0, result := some (v.setWidth 64) } }) ∧
    (s.table.totalCount ≤ p.toNat → s.mode ≠ .fault →
      ∃ t, exec (.tSym p) s = .next t ∧ s.Faulted t .tableRange .none)

/-- `T_UPD v`: the increment, and at the ceiling the rescale by floor division and clamp, intervals rebuilt
(41_frequency_table R148). The second part is the rescale of a table that meets no invariant: the test is `>=`, so a total
that a test injects at or above the ceiling rescales too, with each interval entry the sum before it and its count
wherever that fits `COUNT_BITS` bits (92_eei_decisions D10). -/
def Obligations.TUpdIncrementsAndRescales : Prop :=
  (∀ (s : State) (v : Sym), s.table.Valid s.cfg →
    ∃ T : Table,
      exec (.tUpd v) s = .next { s with table := T, response := some { status := 0, result := none } } ∧
      (s.table.totalCount + 1 < s.cfg.ceiling →
        T.totalCount = s.table.totalCount + 1 ∧
        (∀ i, i ≤ 256 → T.cnt i = if i = v.toNat + 1 then s.table.cnt i + 1 else s.table.cnt i) ∧
        ∀ i, i ≤ 256 → T.iv i = if v.toNat + 1 ≤ i then s.table.iv i + 1 else s.table.iv i) ∧
      (s.cfg.ceiling ≤ s.table.totalCount + 1 →
        T.cnt 0 = 0 ∧ T.iv 0 = 0 ∧
        (∀ i, 1 ≤ i → i ≤ 256 →
          T.cnt i = max 1 ((if i = v.toNat + 1 then s.table.cnt i + 1 else s.table.cnt i) / 2)) ∧
        (∀ i, i < 256 → T.iv (i + 1) = T.iv i + T.cnt (i + 1)) ∧ T.totalCount = T.iv 256)) ∧
  ∀ (s : State) (v : Sym), s.cfg.ceiling ≤ s.table.totalCount + 1 → s.table.cnt (v.toNat + 1) < s.cfg.ceiling →
    ∃ T : Table,
      exec (.tUpd v) s = .next { s with table := T, response := some { status := 0, result := none } } ∧
      T.cnt 0 = s.table.cnt 0 ∧ T.iv 0 = s.table.iv 0 ∧
      (∀ i, 1 ≤ i → i ≤ 256 →
        T.cnt i = max 1 ((if i = v.toNat + 1 then s.table.cnt i + 1 else s.table.cnt i) / 2)) ∧
      (∀ i, i < 256 → T.iv i + T.cnt (i + 1) < 2 ^ s.cfg.countBits → T.iv (i + 1) = T.iv i + T.cnt (i + 1)) ∧
      T.totalCount = T.iv 256

/-- `T_UPD` keeps the table's invariants; a rescale leaves the total from 256 to strictly below the ceiling, and at most
half of the ceiling and 256 together (41_frequency_table R150; 10_state R33). -/
def Obligations.TUpdKeepsTheTableInvariants : Prop :=
  ∀ (s t : State) (v : Sym), s.table.Valid s.cfg → exec (.tUpd v) s = .next t →
    t.table.Valid t.cfg ∧
      (s.cfg.ceiling ≤ s.table.totalCount + 1 →
        256 ≤ t.table.totalCount ∧ t.table.totalCount < s.cfg.ceiling ∧
          t.table.totalCount ≤ (s.cfg.ceiling + 256) / 2)

/-- A rescale keeps the ranking of the counts, ties apart, and the symbols stay in their order within `interval[]`
(41_frequency_table R152). -/
def Obligations.RescaleKeepsTheRanking : Prop :=
  ∀ (s t : State) (v : Sym) (i j : Nat), s.table.Valid s.cfg → s.cfg.ceiling ≤ s.table.totalCount + 1 →
    1 ≤ i → i ≤ 256 → 1 ≤ j → j ≤ 256 → exec (.tUpd v) s = .next t →
    (if j = v.toNat + 1 then s.table.cnt j + 1 else s.table.cnt j) ≤
      (if i = v.toNat + 1 then s.table.cnt i + 1 else s.table.cnt i) →
    t.table.cnt j ≤ t.table.cnt i ∧ ∀ a b, a < b → b ≤ 256 → t.table.iv a < t.table.iv b

/-! ### The renormalizer -/

/-- `NARROW v`: both new bounds from the old `l` and the same `delta`, product first, floor division; crossed bounds raise
`INTERVAL_OVERFLOW` (42_renormalizer R161). Where the interval is at least as wide as the total, as at every `NARROW` of a
run, the new one lies inside it and is not empty (R170). The premise `1 ≤ …` leaves out the one case in which the
formula of `h` goes below zero, which an interval narrower than the total can bring about. -/
def Obligations.NarrowMapsTheSymbolToItsSubinterval : Prop :=
  ∀ (s : State) (v : Sym), s.table.Valid s.cfg →
    (s.l.toNat ≤ s.h.toNat →
      1 ≤ s.l.toNat + s.table.iv (v.toNat + 1) * (s.h.toNat - s.l.toNat + 1) / s.table.iv 256 →
      ∃ L H : Word,
        exec (.narrow v) s =
            .next { s with l := L, h := H, response := some { status := 0, result := none } } ∧
          L.toNat = s.l.toNat + s.table.iv v.toNat * (s.h.toNat - s.l.toNat + 1) / s.table.iv 256 ∧
          H.toNat + 1 =
            s.l.toNat + s.table.iv (v.toNat + 1) * (s.h.toNat - s.l.toNat + 1) / s.table.iv 256 ∧
          (s.table.iv 256 ≤ s.h.toNat - s.l.toNat + 1 →
            s.l.toNat ≤ L.toNat ∧ L.toNat ≤ H.toNat ∧ H.toNat ≤ s.h.toNat)) ∧
    (s.h.toNat < s.l.toNat → s.mode ≠ .fault →
      ∃ t, exec (.narrow v) s = .next t ∧ s.Faulted t .intervalOverflow .narrow)

/-- `BPF b`: the decided bit, then the pending opposite bits, the count cleared; a failing write raises `IO_ERROR`
(42_renormalizer R164). That the group makes exactly `bitsToFollow + 1` transfers, of one bit each, is the model's choice
(log 25): R164 and 20_memory R65 allow fewer, wider writes. -/
def Obligations.BpfWritesTheBitAndTheFollowBits : Prop :=
  ∀ (s : State) (b : Bool),
    (s.NextTransfersSucceed (s.bitsToFollow + 1) →
      exec (.bpf b) s =
        .next { s with
          wrBits := s.wrBits ++ b :: List.replicate s.bitsToFollow (!b)
          bitsToFollow := 0
          ioFails := s.ioFails.drop (s.bitsToFollow + 1)
          response := some { status := 0, result := none } }) ∧
    (¬s.NextTransfersSucceed (s.bitsToFollow + 1) → s.mode ≠ .fault →
      ∃ t, exec (.bpf b) s = .next t ∧ s.Faulted t .ioError .none)

/-- The loop of `RENORM E`, one branch at a time, in the order E2, E1, E3: what each pass writes and how it shifts, and
that the loop ends when no condition holds (42_renormalizer R165, R166). How many transfers a group consumes is the
model's choice (log 25). -/
def Obligations.RenormEmitTakesTheFirstBranchThatHolds : Prop :=
  ∀ s : State, s.NoTransferFails → s.l.toNat ≤ s.h.toNat →
    (s.h.toNat < half →
      exec (.renorm .emit) s =
        exec (.renorm .emit)
          { s with
            l := BitVec.ofNat 32 (2 * s.l.toNat)
            h := BitVec.ofNat 32 (2 * s.h.toNat + 1)
            wrBits := s.wrBits ++ false :: List.replicate s.bitsToFollow true
            bitsToFollow := 0
            ioFails := s.ioFails.drop (s.bitsToFollow + 1) }) ∧
    (half ≤ s.l.toNat →
      exec (.renorm .emit) s =
        exec (.renorm .emit)
          { s with
            l := BitVec.ofNat 32 (2 * (s.l.toNat - half))
            h := BitVec.ofNat 32 (2 * (s.h.toNat - half) + 1)
            wrBits := s.wrBits ++ true :: List.replicate s.bitsToFollow false
            bitsToFollow := 0
            ioFails := s.ioFails.drop (s.bitsToFollow + 1) }) ∧
    (s.l.toNat < half → half ≤ s.h.toNat → firstQuart ≤ s.l.toNat → s.h.toNat < thirdQuart →
      exec (.renorm .emit) s =
        exec (.renorm .emit)
          { s with
            l := BitVec.ofNat 32 (2 * (s.l.toNat - firstQuart))
            h := BitVec.ofNat 32 (2 * (s.h.toNat - firstQuart) + 1)
            bitsToFollow := s.bitsToFollow + 1 }) ∧
    (s.Wide → exec (.renorm .emit) s = .next { s with response := some { status := 0, result := none } })

/-- The loop of `RENORM C`: the same branches and offsets, one bit read per shift into the low bit of `value`, nothing
written (42_renormalizer R165, R166, R171). The second part is one pass from any bounds and `value` whose shifted values
fit 32 bits, wherever `value` lies: what the rest of the loop completes or raises, the whole does; and the loop's end. -/
def Obligations.RenormConsumeMirrorsTheBranches : Prop :=
  (∀ s : State, s.NoTransferFails → s.ValueInside → s.rdPos + 32 ≤ s.rdBits.length →
    (∀ off, (s.h.toNat < half ∧ off = 0) ∨ (half ≤ s.l.toNat ∧ off = half) ∨
        (s.l.toNat < half ∧ half ≤ s.h.toNat ∧ firstQuart ≤ s.l.toNat ∧ s.h.toNat < thirdQuart ∧ off = firstQuart) →
      exec (.renorm .consume) s =
        exec (.renorm .consume)
          { s with
            l := BitVec.ofNat 32 (2 * (s.l.toNat - off))
            h := BitVec.ofNat 32 (2 * (s.h.toNat - off) + 1)
            value := BitVec.ofNat 32 (2 * (s.value.toNat - off) + (s.rdBits.getD s.rdPos false).toNat)
            rdPos := s.rdPos + 1
            ioFails := s.ioFails.tail }) ∧
    (s.Wide → exec (.renorm .consume) s = .next { s with response := some { status := 0, result := none } })) ∧
  (∀ (s t : State) (off : Nat), s.mode ≠ .fault → s.ShiftsBy off → off ≤ s.value.toNat →
    s.transferFails = false → s.rdPos < s.rdBits.length →
    2 * (s.l.toNat - off) ≤ top → 2 * (s.value.toNat - off) + s.nextBit.toNat ≤ top →
    exec (.renorm .consume)
        { s with
          l := BitVec.ofNat 32 (2 * (s.l.toNat - off))
          h := BitVec.ofNat 32 (2 * (s.h.toNat - off) + 1)
          value := BitVec.ofNat 32 (2 * (s.value.toNat - off) + s.nextBit.toNat)
          rdPos := s.rdPos + 1
          ioFails := s.ioFails.tail } = .next t →
    (t.mode ≠ .fault → exec (.renorm .consume) s = .next t) ∧
      ∀ code stage, s.Faulted t code stage → ∃ u, exec (.renorm .consume) s = .next u ∧ s.Faulted u code stage) ∧
  ∀ s : State, s.Wide → exec (.renorm .consume) s = .next { s with response := some { status := 0, result := none } }

/-- `RENORM E` ends, after at most 32 shifts that each double the width and decide or defer one bit, with a wide
interval; it writes only stream bits and the coder registers (42_renormalizer R169, R170; 20_memory R69). That each bit
written consumes one transfer is the model's choice (log 25). -/
def Obligations.RenormEmitEndsWide : Prop :=
  ∀ s : State, s.NoTransferFails → s.l.toNat ≤ s.h.toNat →
    ∃ (t : State) (k : Nat) (bits : Bits),
      exec (.renorm .emit) s = .next t ∧
      t = { s with
        l := t.l, h := t.h, bitsToFollow := t.bitsToFollow, wrBits := s.wrBits ++ bits
        ioFails := s.ioFails.drop bits.length, response := some { status := 0, result := none } } ∧
      t.Wide ∧ k ≤ 32 ∧ t.h.toNat - t.l.toNat + 1 = 2 ^ k * (s.h.toNat - s.l.toNat + 1) ∧
      bits.length + t.bitsToFollow = s.bitsToFollow + k

/-- `RENORM C` ends, after at most 32 shifts that each read one bit, with a wide interval that still contains `value`; it
changes only the coder registers and the read position (42_renormalizer R169, R170, R171). -/
def Obligations.RenormConsumeEndsWide : Prop :=
  ∀ s : State, s.NoTransferFails → s.ValueInside → s.rdPos + 32 ≤ s.rdBits.length →
    ∃ (t : State) (k : Nat),
      exec (.renorm .consume) s = .next t ∧
      t = { s with
        l := t.l, h := t.h, value := t.value, rdPos := s.rdPos + k
        ioFails := s.ioFails.drop k, response := some { status := 0, result := none } } ∧
      t.Wide ∧ t.ValueInside ∧ k ≤ 32 ∧ t.h.toNat - t.l.toNat + 1 = 2 ^ k * (s.h.toNat - s.l.toNat + 1)

/-- An injected state whose bounds have crossed ends `RENORM E` in the fatal overflow report, never in a wrapped
interval (42_renormalizer R167, 60_exceptions R224). -/
def Obligations.CrossedBoundsReportOverflow : Prop :=
  ∀ s : State, s.NoTransferFails → s.h.toNat < s.l.toNat → s.mode ≠ .fault →
    ∃ t, exec (.renorm .emit) s = .next t ∧ s.Faulted t .intervalOverflow .renorm

/-- The underflow guard and the post-shift check of `RENORM C`, from injected states of any bounds and `value`. A
subtraction that would go below zero, of a `value` under the offset of the branch taken (E1 or E3; the offset of E2 is 0),
raises `INTERVAL_OVERFLOW`, whatever the stream holds and whether a transfer would fail; a shifted `l` or `value` above
`top` raises it once the bit is read, and is never stored wrapped. The shifted `h` fits in every branch (42_renormalizer
R165, R167, R168, 60_exceptions R238). -/
def Obligations.ValueBelowTheOffsetReportsOverflow : Prop :=
  ∀ (s : State) (off : Nat), s.mode ≠ .fault → s.ShiftsBy off →
    (s.value.toNat < off →
      ∃ t, exec (.renorm .consume) s = .next t ∧ s.Faulted t .intervalOverflow .renorm) ∧
    (off ≤ s.value.toNat → s.transferFails = false → s.rdPos < s.rdBits.length →
      top < 2 * (s.l.toNat - off) ∨ top < 2 * (s.value.toNat - off) + s.nextBit.toNat →
      ∃ t, exec (.renorm .consume) s = .next t ∧ s.Faulted t .intervalOverflow .renorm)

/-! ### The bit stream -/

/-- `WRITEBITS v, n`: the low `n` bits of `v`, most significant first, and nothing else; a failing transfer raises
`IO_ERROR` with some of the bits written, `n > 64` raises `ILLEGAL_CMD` (40_bit_stream R121). That a failing transfer
leaves what was written before and at most `n` bits more is the model's choice (log 4, after 20_memory R66, R67):
60_exceptions R230 leaves it open. -/
def Obligations.WritebitsAppendsTheLowBits : Prop :=
  ∀ (s : State) (v : Count) (n : BitVec 7),
    (n.toNat ≤ 64 → (n = 0 ∨ s.transferFails = false) →
      ∃ bits : Bits, bits.length = n.toNat ∧
        (∀ (k : Nat) (h : k < bits.length), bits[k] = v.getLsbD (n.toNat - 1 - k)) ∧
        exec (.writebits v n) s =
          .next { s with
            wrBits := s.wrBits ++ bits
            ioFails := if n = 0 then s.ioFails else s.ioFails.tail
            response := some { status := 0, result := none } }) ∧
    (n.toNat ≤ 64 → n ≠ 0 → s.transferFails = true → s.mode ≠ .fault →
      ∃ t, exec (.writebits v n) s = .next t ∧ s.Faulted t .ioError .none ∧
        s.wrBits <+: t.wrBits ∧ t.wrBits.length ≤ s.wrBits.length + n.toNat) ∧
    (64 < n.toNat → s.mode ≠ .fault →
      ∃ t, exec (.writebits v n) s = .next t ∧ s.Faulted t .illegalCmd .none)

/-- `READBITS n`: the next `n` bits, the first the most significant, the read position moved past them and nothing else
changed; its three faults in their order (40_bit_stream R122, 60_exceptions R238). -/
def Obligations.ReadbitsTakesTheNextBits : Prop :=
  ∀ (s : State) (n : BitVec 7),
    (n.toNat ≤ 64 → (n = 0 ∨ s.transferFails = false) → n = 0 ∨ s.rdPos + n.toNat ≤ s.rdBits.length →
      ∃ v : Count, v.toNat < 2 ^ n.toNat ∧
        (∀ k, k < n.toNat → v.getLsbD (n.toNat - 1 - k) = s.rdBits.getD (s.rdPos + k) false) ∧
        exec (.readbits n) s =
          .next { s with
            rdPos := s.rdPos + n.toNat
            ioFails := if n = 0 then s.ioFails else s.ioFails.tail
            response := some { status := 0, result := some v } }) ∧
    (64 < n.toNat → s.mode ≠ .fault →
      ∃ t, exec (.readbits n) s = .next t ∧ s.Faulted t .illegalCmd .none) ∧
    (n.toNat ≤ 64 → n ≠ 0 → s.transferFails = true → s.mode ≠ .fault →
      ∃ t, exec (.readbits n) s = .next t ∧ s.Faulted t .ioError .none) ∧
    (n.toNat ≤ 64 → n ≠ 0 → s.transferFails = false → s.rdBits.length < s.rdPos + n.toNat → s.mode ≠ .fault →
      ∃ t, exec (.readbits n) s = .next t ∧ s.Faulted t .shortRead .none)

/-- `FLUSH`: pad zeros to a byte boundary, then the sink holds exactly the packed bits; a failing transfer raises
`IO_ERROR` (40_bit_stream R123). -/
def Obligations.FlushPadsAndFillsTheSink : Prop :=
  ∀ s : State,
    (s.transferFails = false →
      ∃ pad, pad < 8 ∧ (s.wrBits.length + pad) % 8 = 0 ∧
        exec .flush s =
          .next { s with
            wrBits := s.wrBits ++ List.replicate pad false
            sink := pack (s.wrBits ++ List.replicate pad false)
            ioFails := s.ioFails.tail
            response := some { status := 0, result := none } } ∧
        unpack (pack (s.wrBits ++ List.replicate pad false)) = s.wrBits ++ List.replicate pad false) ∧
    (s.transferFails = true → s.mode ≠ .fault →
      ∃ t, exec .flush s = .next t ∧ s.Faulted t .ioError .none)

/-- "Stream bit `k` is bit `7 - (k mod 8)` of byte `k / 8`", and unpacking is the inverse of packing (20_memory R61). -/
def Obligations.PackingPutsTheFirstBitInBitSeven : Prop :=
  (∀ (b : Bits) (k : Nat) (h : k < b.length), b.length % 8 = 0 →
    ((pack b).getD (k / 8) 0).getLsbD (7 - k % 8) = b[k]) ∧
  (∀ b : Bits, b.length % 8 = 0 → unpack (pack b) = b) ∧ ∀ l : List Byte, pack (unpack l) = l

/-! ### The encoder -/

/-- `ENC_BEGIN n` in `IDLE`: mode, counters, fresh table, the whole interval, no pending bit, the header of 64 bits; a
failing header write raises `IO_ERROR` in stage `HEADER` (43_encoder R181). -/
def Obligations.EncBeginStartsAnEncodeRun : Prop :=
  ∀ (s : State) (n : Count), s.mode = .idle →
    (s.transferFails = false →
      ∃ header : Bits, header.length = 64 ∧
        (∀ (k : Nat) (h : k < header.length), header[k] = n.getLsbD (63 - k)) ∧
        exec (.encBegin n) s =
          .next { s with
            mode := .enc, nTotal := n, symIdx := 0, table := Table.fresh
            l := 0, h := 0xFFFFFFFF, bitsToFollow := 0
            wrBits := s.wrBits ++ header, ioFails := s.ioFails.tail
            response := some { status := 0, result := some 0 } }) ∧
    (s.transferFails = true →
      ∃ t, exec (.encBegin n) s = .next t ∧ s.Faulted t .ioError .header)

/-- `ENC_SYM v` is `NARROW v`, `RENORM E`, `T_UPD v` and the count, in this order (43_encoder R182, 20_memory R72). -/
def Obligations.EncSymIsNarrowRenormUpdate : Prop :=
  ∀ (s a b c : State) (v : Sym), s.mode = .enc → s.symIdx.toNat < s.nTotal.toNat →
    exec (.narrow v) s = .next a → a.mode = .enc →
    exec (.renorm .emit) a = .next b → b.mode = .enc →
    exec (.tUpd v) b = .next c →
    exec (.encSym v) s =
      .next { c with symIdx := s.symIdx + 1, response := some { status := 0, result := some 0 } }

/-- `ENC_SYM v` completes in every encode run with a symbol left when no transfer fails: the bits it writes, its frame,
and that the run's invariants hold after it (43_encoder R182, 10_state R40). That each bit written consumes one transfer
is the model's choice (log 25). -/
def Obligations.EncSymCompletes : Prop :=
  ∀ (s : State) (v : Sym), s.RunInv → s.mode = .enc → s.symIdx.toNat < s.nTotal.toNat → s.NoTransferFails →
    ∃ (t : State) (k : Nat) (bits : Bits),
      exec (.encSym v) s = .next t ∧
      t = { s with
        l := t.l, h := t.h, bitsToFollow := t.bitsToFollow, table := t.table, symIdx := s.symIdx + 1
        wrBits := s.wrBits ++ bits, ioFails := s.ioFails.drop bits.length
        response := some { status := 0, result := some 0 } } ∧
      t.RunInv ∧ k ≤ 32 ∧ bits.length + t.bitsToFollow = s.bitsToFollow + k ∧
      ∃ u, exec (.tUpd v) s = .next u ∧ t.table = u.table

/-- `ENC_END` after the last symbol: the termination group, `l` as 32 raw bits, padding, the sink the whole packed
stream, `mode = IDLE` (43_encoder R183, 30_encoding R94). -/
def Obligations.EncEndTerminatesTheStream : Prop :=
  ∀ s : State, s.mode = .enc → s.symIdx = s.nTotal → s.NextTransfersSucceed (s.bitsToFollow + 4) →
    ∃ (t : State) (q : Bool) (final : Bits) (pad : Nat),
      exec .encEnd s = .next t ∧
      (q = false ↔ s.l.toNat < firstQuart) ∧
      final.length = 32 ∧ (∀ (k : Nat) (h : k < final.length), final[k] = s.l.getLsbD (31 - k)) ∧
      pad < 8 ∧ t.wrBits.length % 8 = 0 ∧
      t.wrBits =
        s.wrBits ++ (q :: List.replicate (s.bitsToFollow + 1) (!q)) ++ final ++ List.replicate pad false ∧
      t.sink = pack t.wrBits ∧ t.mode = .idle ∧ t.fault = s.fault ∧ t.cfg = s.cfg ∧
      t.rdBits = s.rdBits ∧ t.rdPos = s.rdPos ∧ t.inbox = s.inbox ∧ t.tick = s.tick ∧
      t.ioFails = s.ioFails.drop (s.bitsToFollow + 4) ∧
      t.response = some { status := 0, result := some 0 }

/-- A transfer that fails in `ENC_END` raises `IO_ERROR` in the stage it belongs to: `TERMINATE` for the termination group
and the 32 bits of `l`, `FLUSH` for the flush (43_encoder R183, 60_exceptions R222, R229; how many transfers the group
takes is the model's choice, log 25). -/
def Obligations.EncEndReportsTheStageOfAFailingTransfer : Prop :=
  ∀ s : State, s.mode = .enc → s.symIdx = s.nTotal →
    (¬s.NextTransfersSucceed (s.bitsToFollow + 3) →
      ∃ t, exec .encEnd s = .next t ∧ s.Faulted t .ioError .terminate) ∧
    (s.NextTransfersSucceed (s.bitsToFollow + 3) → ¬s.NextTransfersSucceed (s.bitsToFollow + 4) →
      ∃ t, exec .encEnd s = .next t ∧ s.Faulted t .ioError .flush)

/-- In an encode run nothing but a failing transfer can fault a symbol that the count allows: the overflow check is
unreachable (42_renormalizer R167, R170; 60_exceptions R224). -/
def Obligations.EncSymFaultsOnlyOnIo : Prop :=
  ∀ (s t : State) (v : Sym), s.RunInv → s.mode = .enc → s.symIdx.toNat < s.nTotal.toNat →
    exec (.encSym v) s = .next t → t.mode = .fault → s.Faulted t .ioError .renorm

/-! ### The decoder -/

/-- `DEC_BEGIN` in `IDLE` with at least 96 bits left: mode, fresh table, the whole interval, the header and the window
read, the header returned (44_decoder R201). -/
def Obligations.DecBeginReadsHeaderAndWindow : Prop :=
  ∀ s : State, s.mode = .idle → s.NextTransfersSucceed 2 → s.rdPos + 96 ≤ s.rdBits.length →
    ∃ (n : Count) (w : Word),
      (∀ k, k < 64 → n.getLsbD (63 - k) = s.rdBits.getD (s.rdPos + k) false) ∧
      (∀ k, k < 32 → w.getLsbD (31 - k) = s.rdBits.getD (s.rdPos + 64 + k) false) ∧
      exec .decBegin s =
        .next { s with
          mode := .dec, nTotal := n, symIdx := 0, table := Table.fresh
          l := 0, h := 0xFFFFFFFF, value := w, rdPos := s.rdPos + 96, ioFails := s.ioFails.drop 2
          response := some { status := 0, result := some n } }

/-- `DEC_BEGIN` on a stream too short raises `SHORT_READ`, in stage `HEADER` under 64 bits, in stage `WINDOW` under 96
(44_decoder R201, 60_exceptions R223). -/
def Obligations.DecBeginOnAShortStreamRaisesShortRead : Prop :=
  ∀ s : State, s.mode = .idle → s.NextTransfersSucceed 2 →
    (s.rdBits.length < s.rdPos + 64 → ∃ t, exec .decBegin s = .next t ∧ s.Faulted t .shortRead .header) ∧
    (s.rdPos + 64 ≤ s.rdBits.length → s.rdBits.length < s.rdPos + 96 →
      ∃ t, exec .decBegin s = .next t ∧ s.Faulted t .shortRead .window)

/-- A transfer that fails in `DEC_BEGIN` raises `IO_ERROR` in stage `HEADER` or `WINDOW`, as it belongs to
(44_decoder R201, 60_exceptions R222, R229). -/
def Obligations.DecBeginReportsTheStageOfAFailingTransfer : Prop :=
  ∀ s : State, s.mode = .idle →
    (s.transferFails = true → ∃ t, exec .decBegin s = .next t ∧ s.Faulted t .ioError .header) ∧
    (s.transferFails = false → s.rdPos + 64 ≤ s.rdBits.length → ¬s.NextTransfersSucceed 2 →
      ∃ t, exec .decBegin s = .next t ∧ s.Faulted t .ioError .window)

/-- `DEC_SYM` is `T_SYM` of the scaled position, `NARROW`, `RENORM C`, `T_UPD` of the symbol found and the count, in this
order, and returns the symbol (44_decoder R202). -/
def Obligations.DecSymIsSearchNarrowRenormUpdate : Prop :=
  ∀ (s r a b c : State) (p : BitVec 30) (v : Sym),
    s.mode = .dec → s.symIdx.toNat < s.nTotal.toNat → s.ValueInside → s.table.Valid s.cfg →
    p.toNat =
      ((s.value.toNat - s.l.toNat + 1) * s.table.iv 256 - 1) / (s.h.toNat - s.l.toNat + 1) →
    exec (.tSym p) s = .next r → r.response = some { status := 0, result := some (v.setWidth 64) } →
    exec (.narrow v) s = .next a → a.mode = .dec →
    exec (.renorm .consume) a = .next b → b.mode = .dec →
    exec (.tUpd v) b = .next c →
    exec .decSym s =
      .next { c with symIdx := s.symIdx + 1, response := some { status := 0, result := some (v.setWidth 64) } }

/-- `DEC_SYM` completes in every decode run with a symbol left, when no transfer fails and 32 bits remain: the symbol
returned is the one whose range contains the position, the frame, and the run's invariants after it (44_decoder R202,
R205; 10_state R40). -/
def Obligations.DecSymCompletes : Prop :=
  ∀ s : State, s.RunInv → s.mode = .dec → s.symIdx.toNat < s.nTotal.toNat → s.NoTransferFails →
    s.rdPos + 32 ≤ s.rdBits.length →
    ∃ (t : State) (v : Sym) (k pos : Nat),
      exec .decSym s = .next t ∧
      pos = ((s.value.toNat - s.l.toNat + 1) * s.table.iv 256 - 1) / (s.h.toNat - s.l.toNat + 1) ∧
      s.table.iv v.toNat ≤ pos ∧ pos < s.table.iv (v.toNat + 1) ∧
      t = { s with
        l := t.l, h := t.h, value := t.value, table := t.table, symIdx := s.symIdx + 1
        rdPos := s.rdPos + k, ioFails := s.ioFails.drop k
        response := some { status := 0, result := some (v.setWidth 64) } } ∧
      t.RunInv ∧ k ≤ 32 ∧ ∃ u, exec (.tUpd v) s = .next u ∧ t.table = u.table

/-- "A decode run on arbitrary bytes raises nothing but `SHORT_READ` (or `IO_ERROR`)": of its commands, `DEC_BEGIN` in
`IDLE` and `DEC_SYM` with a symbol left, whatever the source holds (44_decoder R206). -/
def Obligations.DecodingFaultsOnlyOnTheStream : Prop :=
  ∀ s t : State,
    (s.mode = .idle → exec .decBegin s = .next t → t.mode = .fault →
      ∃ code stage, (code = .shortRead ∨ code = .ioError) ∧ (stage = .header ∨ stage = .window) ∧
        s.Faulted t code stage) ∧
    (s.RunInv → s.mode = .dec → s.symIdx.toNat < s.nTotal.toNat → exec .decSym s = .next t → t.mode = .fault →
      s.Faulted t .shortRead .renorm ∨ s.Faulted t .ioError .renorm)

/-- `DEC_END` after the last symbol: `mode = IDLE`, no bit read or written (44_decoder R203). -/
def Obligations.DecEndEndsTheRun : Prop :=
  ∀ s : State, s.mode = .dec → s.symIdx = s.nTotal →
    ∃ t, exec .decEnd s = .next t ∧ t.mode = .idle ∧ t.fault = s.fault ∧ t.cfg = s.cfg ∧
      t.wrBits = s.wrBits ∧ t.sink = s.sink ∧ t.rdBits = s.rdBits ∧ t.rdPos = s.rdPos ∧
      t.inbox = s.inbox ∧ t.ioFails = s.ioFails ∧ t.tick = s.tick ∧
      t.response = some { status := 0, result := some 0 }

/-- Encoder and decoder stay mirrored: from equal bounds and tables, coding and recovering the same symbol leaves equal
bounds and tables, after the same number of shifts (42_renormalizer R172). -/
def Obligations.EncoderAndDecoderStayMirrored : Prop :=
  ∀ (e d te td : State) (v : Sym),
    e.RunInv → d.RunInv → e.mode = .enc → d.mode = .dec →
    e.symIdx.toNat < e.nTotal.toNat → d.symIdx.toNat < d.nTotal.toNat →
    e.cfg = d.cfg → e.l = d.l → e.h = d.h → e.table = d.table →
    exec (.encSym v) e = .next te → te.mode = .enc →
    exec .decSym d = .next td → td.mode = .dec →
    td.response = some { status := 0, result := some (v.setWidth 64) } →
    te.l = td.l ∧ te.h = td.h ∧ te.table = td.table ∧
      te.wrBits.length + te.bitsToFollow + d.rdPos = e.wrBits.length + e.bitsToFollow + td.rdPos

/-! ### Run control and faults -/

/-- `ABORT` in every mode: `mode` and `fault` cleared, no stream touched; in `IDLE` with no fault it changes nothing
(45_run_control R211). -/
def Obligations.AbortReturnsToIdle : Prop :=
  ∀ s : State,
    ∃ t, exec .abort s = .next t ∧ t.mode = .idle ∧ t.fault.code = .none ∧ t.fault.symIdx = 0 ∧
      t.fault.stage = .none ∧ t.wrBits = s.wrBits ∧ t.sink = s.sink ∧ t.rdBits = s.rdBits ∧
      t.rdPos = s.rdPos ∧ t.cfg = s.cfg ∧ t.inbox = s.inbox ∧ t.ioFails = s.ioFails ∧ t.tick = s.tick ∧
      t.response = some { status := 0, result := some 0 } ∧
      (s.mode = .idle → s.FaultInv → t = { s with response := t.response })

/-- A host command in a mode that does not allow it raises `BAD_MODE` in stage `COMMAND` (45_run_control R212,
60_exceptions R226). -/
def Obligations.CommandInTheWrongModeRaisesBadMode : Prop :=
  ∀ (s : State) (i : Instr), s.mode ≠ .fault →
    ((∃ n, i = .encBegin n) ∧ s.mode ≠ .idle ∨ i = .decBegin ∧ s.mode ≠ .idle ∨
      (∃ v, i = .encSym v) ∧ s.mode ≠ .enc ∨ i = .encEnd ∧ s.mode ≠ .enc ∨
      i = .decSym ∧ s.mode ≠ .dec ∨ i = .decEnd ∧ s.mode ≠ .dec) →
    ∃ t, exec i s = .next t ∧ s.Faulted t .badMode .command

/-- A symbol command past the count and an end command before it raise `COUNT_MISMATCH` in stage `COMMAND`
(60_exceptions R227). That no bit is written then is the model's choice (log 4): R230 leaves open how many bits of a
failing command reached `wr_bits`. -/
def Obligations.WrongSymbolCountRaisesCountMismatch : Prop :=
  ∀ (s : State) (i : Instr),
    ((∃ v, i = .encSym v) ∧ s.mode = .enc ∧ s.symIdx = s.nTotal ∨
      i = .decSym ∧ s.mode = .dec ∧ s.symIdx = s.nTotal ∨
      i = .encEnd ∧ s.mode = .enc ∧ s.symIdx ≠ s.nTotal ∨
      i = .decEnd ∧ s.mode = .dec ∧ s.symIdx ≠ s.nTotal) →
    ∃ t, exec i s = .next t ∧ s.Faulted t .countMismatch .command ∧ t.wrBits = s.wrBits

/-- In `mode = FAULT` every host command but `ABORT`, and every word that selects no operation, is refused: only the
response changes, and it carries the standing code, on the host port with result 0 (45_run_control R212, 60_exceptions
R233, 30_encoding R101: "defined per command, else 0"). That an illegal word on a unit port is refused too is the model's
choice (log 13), as is that its response has no result (log 9). -/
def Obligations.FaultModeRefusesCommands : Prop :=
  ∀ s : State, s.mode = .fault →
    (∀ i : Instr, i.isHost = true → i ≠ .abort →
      exec i s = .next { s with response := some { status := s.fault.code.bits, result := some 0 } }) ∧
    (∀ w : BitVec 68, ¬SelectsOperation (.host w) →
      serve (.host w) s = .next { s with response := some { status := s.fault.code.bits, result := some 0 } }) ∧
    ∀ r : Request, ¬SelectsOperation r → (∀ w, r ≠ .host w) →
      serve r s = .next { s with response := some { status := s.fault.code.bits, result := none } }

/-- Fault entry, for every operation: when one leaves `mode = FAULT` from a state without a fault, the record holds a
code that is raised and the number of symbols completed before, and the response the same code with no result
(60_exceptions R228, R230, R232). -/
def Obligations.FaultEntryRecordsTheFault : Prop :=
  ∀ (i : Instr) (s t : State), s.mode ≠ .fault → exec i s = .next t → t.mode = .fault →
    t.fault.code ≠ .none ∧ t.fault.code ≠ .counterOverflow ∧ s.Faulted t t.fault.code t.fault.stage

/-- The first fault stands: no operation but `ABORT` changes the record or leaves `FAULT` (10_state R28,
60_exceptions R234). -/
def Obligations.FirstFaultStands : Prop :=
  ∀ (i : Instr) (s t : State), s.mode = .fault → i ≠ .abort → exec i s = .next t →
    t.mode = .fault ∧ t.fault = s.fault

/-- The only mode changes there are (45_run_control R212). -/
def Obligations.ModeChangesOnlyByRunControl : Prop :=
  ∀ (i : Instr) (s t : State), exec i s = .next t →
    t.mode = s.mode ∨ t.mode = .fault ∨
      (∃ n, i = .encBegin n) ∧ s.mode = .idle ∧ t.mode = .enc ∨
      i = .decBegin ∧ s.mode = .idle ∧ t.mode = .dec ∨
      i = .encEnd ∧ s.mode = .enc ∧ t.mode = .idle ∨
      i = .decEnd ∧ s.mode = .dec ∧ t.mode = .idle ∨
      i = .abort ∧ t.mode = .idle

/-- Streams only advance, whatever the operation and however it ends: written bits are never withdrawn, read bits never
come back, the source and the configuration never change (20_memory R67, 10_state R29, R36). Of an operation that faults
this is the model's choice (log 4): 60_exceptions R230 calls the stream positions unspecified then, without limit. -/
def Obligations.StreamsOnlyAdvance : Prop :=
  ∀ (i : Instr) (s t : State), exec i s = .next t →
    s.wrBits <+: t.wrBits ∧ s.rdPos ≤ t.rdPos ∧ t.rdBits = s.rdBits ∧ t.cfg = s.cfg ∧
      t.inbox = s.inbox ∧ t.tick = s.tick

/-- A run uses one side of the stream: the commands of an encode run read no bit and leave `value`, those of a decode run
write no bit and leave `bitsToFollow` (60_exceptions R223, R243). That `wr_bits` and the sink stand also where a command of
a decode run faults is the model's choice (log 4: R230 and R243 leave the stream positions open after a fault), and so is
that no byte reaches the sink within a command (log 14: 10_state R37 leaves its growth open). -/
def Obligations.RunsUseOneSideOfTheStream : Prop :=
  ∀ (i : Instr) (s t : State), i.isHost = true → exec i s = .next t →
    (s.mode = .enc → t.mode ≠ .fault → t.rdPos = s.rdPos ∧ (t.mode = .enc → t.value = s.value)) ∧
    (s.mode = .dec →
      t.wrBits = s.wrBits ∧ t.sink = s.sink ∧ (t.mode = .dec → t.bitsToFollow = s.bitsToFollow))

/-- Every operation, in every state, ends in a next state: no instruction stops the model (42_renormalizer R169 for the
one loop without a fixed bound). -/
def Obligations.EveryOperationAnswersANextState : Prop :=
  ∀ (i : Instr) (s : State), ∃ t, exec i s = .next t

/-! ### Steps, reset, invariants -/

/-- A step takes the next event, whatever it is, and handles it on the state without that event: a request word is served,
one that decodes to `i` is `exec` of `i`. The outcome is settled: of a next state whole bytes may move to the sink and the
step is counted, a stop stays what it is (20_memory R74, 30_encoding R107; the inbox, the settling and the counter are the
model's choice, log 3, 6, 14). -/
def Obligations.StepRunsTheDecodedOperation : Prop :=
  (∀ (s : State) (e : HostEvent) (rest : List HostEvent), s.inbox = e :: rest →
    step s = settled (handle e { s with inbox := rest }) ∧
      ∀ r, e = .request r →
        step s = settled (serve r { s with inbox := rest }) ∧
          ∀ i, decode r = .ok i → step s = settled (exec i { s with inbox := rest })) ∧
  (∀ t : State, ∃ moved : List Byte,
    settled (.next t) = .next { t with sink := t.sink ++ moved, tick := t.tick + 1 } ∧
      (t.StreamsInv → t.sink ++ moved <+: pack t.wrBits)) ∧
  (∀ f : Fault, settled (.fault f) = .fault f) ∧ ∀ r : Refusal, settled (.refused r) = .refused r

/-- Without an event the block waits: nothing changes but what moves from the write buffer to the sink (60_exceptions
R230, 10_state R37; the model's choice, log 6, 14). -/
def Obligations.StepWithoutARequestWaits : Prop :=
  ∀ s : State, s.inbox = [] →
    ∃ moved : List Byte, step s = .next { s with sink := s.sink ++ moved, tick := s.tick + 1 } ∧
      (s.StreamsInv → s.sink ++ moved <+: pack s.wrBits)

/-- Reset, at a command boundary or in the middle of a command: `mode = IDLE`, the record zero, no response, the
configuration and the source kept, the stream not touched; of a cut-off command's bits a front of what it would have
written stays, and some of what it would have read has been read: nothing where the operation reads no bit or is refused
(70_reset R260; that a front of them stays, where 93 U29 allows any extension, is the model's choice, log 22). Where the
served command faults, the bits it leaves are themselves an open front (60_exceptions R230); that the cut-off command's are
a front of those is the model's choice too, which takes one free value for both (log 3). -/
def Obligations.ResetReturnsToIdleAndKeepsTheStreams : Prop :=
  ∀ s : State,
    (∃ t, handle .reset s = .next t ∧ t.mode = .idle ∧ t.fault = FaultRecord.clear ∧ t.response = none ∧
      t.wrBits = s.wrBits ∧ t.sink = s.sink ∧ t.rdBits = s.rdBits ∧ t.rdPos = s.rdPos ∧ t.cfg = s.cfg) ∧
    ∀ r : Request, ∃ t u, handle (.resetDuring r) s = .next t ∧ serve r s = .next u ∧
      t.mode = .idle ∧ t.fault = FaultRecord.clear ∧ t.response = none ∧
      s.wrBits <+: t.wrBits ∧ t.wrBits <+: u.wrBits ∧ t.sink = s.sink ∧
      t.rdBits = s.rdBits ∧ s.rdPos ≤ t.rdPos ∧ t.cfg = s.cfg ∧
      (∀ x, u.response = some { status := 0, result := x } → t.rdPos ≤ u.rdPos) ∧
      ((∀ i, decode r = .ok i →
          i ≠ .decBegin ∧ i ≠ .decSym ∧ i ≠ .renorm .consume ∧ ∀ n, i ≠ .readbits n) → t.rdPos = s.rdPos) ∧
      (s.mode = .fault → (∃ w, r = .host w) → t.rdPos = s.rdPos ∧ t.wrBits = s.wrBits)

/-- Attaching outside a run: a fresh sink is empty, a source stands at its first bit; in the middle of a run the model
refuses it (70_reset R264, 93 U22). -/
def Obligations.AttachedStreamsAreFresh : Prop :=
  ∀ (s : State) (bytes : List Byte),
    (s.running = false →
      handle .attachSink s = .next { s with wrBits := [], sink := [] } ∧
      handle (.attachSource bytes) s = .next { s with rdBits := unpack bytes, rdPos := 0 }) ∧
    (s.running = true →
      handle .attachSink s = .refused .streamAttachedDuringRun ∧
      handle (.attachSource bytes) s = .refused .streamAttachedDuringRun)

/-- Every step keeps the fault record's, the streams' and the table registers' form, whatever the host issues (10_state
R20, R28, R37, R38). -/
def Obligations.EveryStepKeepsTheInvariant : Prop :=
  ∀ s t : State, s.Inv → step s = .next t → t.Inv

/-- Every step whose event is not a unit operation keeps the invariants of a run: the table, the wide interval, the
window inside it, the count (10_state R33, R40). -/
def Obligations.HostStepsKeepTheRunInvariants : Prop :=
  ∀ s t : State, s.RunInv →
    (∀ r rest i, s.inbox = .request r :: rest → decode r = .ok i → i.isHost = true) →
    step s = .next t → t.RunInv

/-- The reset state meets both invariants. -/
def Obligations.ResetMeetsTheInvariants : Prop := State.reset.Inv ∧ State.reset.RunInv

/-- The reset values the spec gives (10_state R41). -/
def Obligations.ResetValuesAreTheSpecs : Prop :=
  State.reset.mode = .idle ∧ State.reset.fault.code = .none ∧ State.reset.fault.symIdx = 0 ∧
    State.reset.fault.stage = .none ∧ State.reset.wrBits = [] ∧ State.reset.sink = [] ∧ State.reset.rdPos = 0

/-! ### Where the stream's faults are raised within a symbol -/

/-- `RENORM C` and `DEC_SYM` on a source that ends too soon: where with more bits behind the source's and no failing
transfer the operation would go through, it does the same if it reads no bit past the end and its transfers succeed, and
raises `SHORT_READ` in stage `RENORM` if it reads one and the transfers up to that one succeed, whatever a later one would
do (60_exceptions R223, R238, 42_renormalizer R165, 44_decoder R202). In the plainest case a branch's condition holds at
once and no bit is left, wherever `value` lies but below the offset. That a directly issued `RENORM C` reports stage `RENORM` is
the model's reading (log 12): R229 gives `NONE` where no caller names a stage. -/
def Obligations.RunningOutOfBitsRaisesShortRead : Prop :=
  (∀ (s t : State) (i : Instr) (more : Bits), i = .renorm .consume ∨ i = .decSym →
    s.mode ≠ .fault → s.rdPos ≤ s.rdBits.length →
    exec i { s with rdBits := s.rdBits ++ more, ioFails := [] } = .next t → t.mode ≠ .fault →
    (t.rdPos ≤ s.rdBits.length → s.NextTransfersSucceed (t.rdPos - s.rdPos) →
      exec i s = .next { t with rdBits := s.rdBits, ioFails := s.ioFails.drop (t.rdPos - s.rdPos) }) ∧
    (s.rdBits.length < t.rdPos → s.NextTransfersSucceed (s.rdBits.length - s.rdPos + 1) →
      ∃ u, exec i s = .next u ∧ s.Faulted u .shortRead .renorm)) ∧
  ∀ (s : State) (off : Nat), s.mode ≠ .fault → s.ShiftsBy off → off ≤ s.value.toNat → s.transferFails = false →
    s.rdBits.length ≤ s.rdPos →
    ∃ u, exec (.renorm .consume) s = .next u ∧ s.Faulted u .shortRead .renorm

/-- `RENORM` and the symbol commands where a transfer fails: where with no failing transfer the operation would go
through, with `n` bits written or read, it does the same if the next `n` transfers succeed, and raises `IO_ERROR` in stage
`RENORM` if one of them fails (60_exceptions R222, 42_renormalizer R165). A failing read comes before a short one
(60_exceptions R238), so on a source that ends too soon the reads up to the first bit past the end count. That a bit written
is a transfer of its own is the model's choice (log 25), and that a directly issued `RENORM` reports stage `RENORM` is the
model's reading (log 12): 60_exceptions R229 gives `NONE` where no caller names a stage. -/
def Obligations.AFailingTransferOfAShiftRaisesIoError : Prop :=
  (∀ (s t : State) (i : Instr), i = .renorm .emit ∨ i = .renorm .consume ∨ (∃ v, i = .encSym v) ∨ i = .decSym →
    s.mode ≠ .fault → exec i { s with ioFails := [] } = .next t → t.mode ≠ .fault →
    (s.NextTransfersSucceed (t.wrBits.length - s.wrBits.length + (t.rdPos - s.rdPos)) →
      exec i s =
        .next { t with ioFails := s.ioFails.drop (t.wrBits.length - s.wrBits.length + (t.rdPos - s.rdPos)) }) ∧
    (¬s.NextTransfersSucceed (t.wrBits.length - s.wrBits.length + (t.rdPos - s.rdPos)) →
      ∃ u, exec i s = .next u ∧ s.Faulted u .ioError .renorm)) ∧
  (∀ (s t : State) (i : Instr) (more : Bits), i = .renorm .consume ∨ i = .decSym →
    s.mode ≠ .fault → s.rdPos ≤ s.rdBits.length →
    exec i { s with rdBits := s.rdBits ++ more, ioFails := [] } = .next t → t.mode ≠ .fault →
    ¬s.NextTransfersSucceed (min (t.rdPos - s.rdPos) (s.rdBits.length - s.rdPos + 1)) →
    ∃ u, exec i s = .next u ∧ s.Faulted u .ioError .renorm) ∧
  (∀ s : State, s.mode ≠ .fault → s.h.toNat < half ∨ half ≤ s.l.toNat →
    ¬s.NextTransfersSucceed (s.bitsToFollow + 1) →
    ∃ u, exec (.renorm .emit) s = .next u ∧ s.Faulted u .ioError .renorm) ∧
  ∀ (s : State) (off : Nat), s.mode ≠ .fault → s.ShiftsBy off → off ≤ s.value.toNat → s.transferFails = true →
    ∃ u, exec (.renorm .consume) s = .next u ∧ s.Faulted u .ioError .renorm

/-- `DEC_SYM` with `value` outside `[l, h]`, of an injected state, raises `INTERVAL_OVERFLOW` in stage `SEARCH`
(44_decoder R202, 60_exceptions R224). -/
def Obligations.ValueOutsideTheIntervalReportsSearchOverflow : Prop :=
  ∀ s : State, s.mode = .dec → s.symIdx ≠ s.nTotal → s.value.toNat < s.l.toNat ∨ s.h.toNat < s.value.toNat →
    ∃ t, exec .decSym s = .next t ∧ s.Faulted t .intervalOverflow .search
end

