-- ==== Sys2Proof/Laws/State.lean ====
section
/-! SUPPORT. Each field of the state after each update, so that no later proof unfolds a record update. -/

namespace Sys2Proof.Machine

section respond
variable (s : State) (r : Option Count)
@[simp] theorem State.respond_l : (s.respond r).l = s.l := rfl
@[simp] theorem State.respond_h : (s.respond r).h = s.h := rfl
@[simp] theorem State.respond_value : (s.respond r).value = s.value := rfl
@[simp] theorem State.respond_bitsToFollow : (s.respond r).bitsToFollow = s.bitsToFollow := rfl
@[simp] theorem State.respond_nTotal : (s.respond r).nTotal = s.nTotal := rfl
@[simp] theorem State.respond_symIdx : (s.respond r).symIdx = s.symIdx := rfl
@[simp] theorem State.respond_mode : (s.respond r).mode = s.mode := rfl
@[simp] theorem State.respond_fault : (s.respond r).fault = s.fault := rfl
@[simp] theorem State.respond_cfg : (s.respond r).cfg = s.cfg := rfl
@[simp] theorem State.respond_table : (s.respond r).table = s.table := rfl
@[simp] theorem State.respond_wrBits : (s.respond r).wrBits = s.wrBits := rfl
@[simp] theorem State.respond_sink : (s.respond r).sink = s.sink := rfl
@[simp] theorem State.respond_rdBits : (s.respond r).rdBits = s.rdBits := rfl
@[simp] theorem State.respond_rdPos : (s.respond r).rdPos = s.rdPos := rfl
@[simp] theorem State.respond_response : (s.respond r).response = some { status := FaultCode.bits .none, result := r } := rfl
@[simp] theorem State.respond_inbox : (s.respond r).inbox = s.inbox := rfl
@[simp] theorem State.respond_ioFails : (s.respond r).ioFails = s.ioFails := rfl
@[simp] theorem State.respond_tick : (s.respond r).tick = s.tick := rfl
end respond

section refuse
variable (s : State) (r : Option Count)
@[simp] theorem State.refuse_l : (s.refuse r).l = s.l := rfl
@[simp] theorem State.refuse_h : (s.refuse r).h = s.h := rfl
@[simp] theorem State.refuse_value : (s.refuse r).value = s.value := rfl
@[simp] theorem State.refuse_bitsToFollow : (s.refuse r).bitsToFollow = s.bitsToFollow := rfl
@[simp] theorem State.refuse_nTotal : (s.refuse r).nTotal = s.nTotal := rfl
@[simp] theorem State.refuse_symIdx : (s.refuse r).symIdx = s.symIdx := rfl
@[simp] theorem State.refuse_mode : (s.refuse r).mode = s.mode := rfl
@[simp] theorem State.refuse_fault : (s.refuse r).fault = s.fault := rfl
@[simp] theorem State.refuse_cfg : (s.refuse r).cfg = s.cfg := rfl
@[simp] theorem State.refuse_table : (s.refuse r).table = s.table := rfl
@[simp] theorem State.refuse_wrBits : (s.refuse r).wrBits = s.wrBits := rfl
@[simp] theorem State.refuse_sink : (s.refuse r).sink = s.sink := rfl
@[simp] theorem State.refuse_rdBits : (s.refuse r).rdBits = s.rdBits := rfl
@[simp] theorem State.refuse_rdPos : (s.refuse r).rdPos = s.rdPos := rfl
@[simp] theorem State.refuse_response : (s.refuse r).response = some { status := s.fault.code.bits, result := r } := rfl
@[simp] theorem State.refuse_inbox : (s.refuse r).inbox = s.inbox := rfl
@[simp] theorem State.refuse_ioFails : (s.refuse r).ioFails = s.ioFails := rfl
@[simp] theorem State.refuse_tick : (s.refuse r).tick = s.tick := rfl
end refuse

section clearFault
variable (s : State)
@[simp] theorem State.clearFault_l : (s.clearFault).l = s.l := rfl
@[simp] theorem State.clearFault_h : (s.clearFault).h = s.h := rfl
@[simp] theorem State.clearFault_value : (s.clearFault).value = s.value := rfl
@[simp] theorem State.clearFault_bitsToFollow : (s.clearFault).bitsToFollow = s.bitsToFollow := rfl
@[simp] theorem State.clearFault_nTotal : (s.clearFault).nTotal = s.nTotal := rfl
@[simp] theorem State.clearFault_symIdx : (s.clearFault).symIdx = s.symIdx := rfl
@[simp] theorem State.clearFault_mode : (s.clearFault).mode = .idle := rfl
@[simp] theorem State.clearFault_fault : (s.clearFault).fault = FaultRecord.clear := rfl
@[simp] theorem State.clearFault_cfg : (s.clearFault).cfg = s.cfg := rfl
@[simp] theorem State.clearFault_table : (s.clearFault).table = s.table := rfl
@[simp] theorem State.clearFault_wrBits : (s.clearFault).wrBits = s.wrBits := rfl
@[simp] theorem State.clearFault_sink : (s.clearFault).sink = s.sink := rfl
@[simp] theorem State.clearFault_rdBits : (s.clearFault).rdBits = s.rdBits := rfl
@[simp] theorem State.clearFault_rdPos : (s.clearFault).rdPos = s.rdPos := rfl
@[simp] theorem State.clearFault_response : (s.clearFault).response = s.response := rfl
@[simp] theorem State.clearFault_inbox : (s.clearFault).inbox = s.inbox := rfl
@[simp] theorem State.clearFault_ioFails : (s.clearFault).ioFails = s.ioFails := rfl
@[simp] theorem State.clearFault_tick : (s.clearFault).tick = s.tick := rfl
end clearFault

section forgetRun
variable (s : State)
@[simp] theorem State.forgetRun_l : (s.forgetRun).l = s.freeWord .l := rfl
@[simp] theorem State.forgetRun_h : (s.forgetRun).h = s.freeWord .h := rfl
@[simp] theorem State.forgetRun_value : (s.forgetRun).value = s.freeWord .value := rfl
@[simp] theorem State.forgetRun_bitsToFollow : (s.forgetRun).bitsToFollow = Config.free .bitsToFollow s.tick := rfl
@[simp] theorem State.forgetRun_nTotal : (s.forgetRun).nTotal = s.freeCount .nTotal := rfl
@[simp] theorem State.forgetRun_symIdx : (s.forgetRun).symIdx = s.freeCount .symIdx := rfl
@[simp] theorem State.forgetRun_mode : (s.forgetRun).mode = s.mode := rfl
@[simp] theorem State.forgetRun_fault : (s.forgetRun).fault = s.fault := rfl
@[simp] theorem State.forgetRun_cfg : (s.forgetRun).cfg = s.cfg := rfl
@[simp] theorem State.forgetRun_wrBits : (s.forgetRun).wrBits = s.wrBits := rfl
@[simp] theorem State.forgetRun_sink : (s.forgetRun).sink = s.sink := rfl
@[simp] theorem State.forgetRun_rdBits : (s.forgetRun).rdBits = s.rdBits := rfl
@[simp] theorem State.forgetRun_rdPos : (s.forgetRun).rdPos = s.rdPos := rfl
@[simp] theorem State.forgetRun_response : (s.forgetRun).response = s.response := rfl
@[simp] theorem State.forgetRun_inbox : (s.forgetRun).inbox = s.inbox := rfl
@[simp] theorem State.forgetRun_ioFails : (s.forgetRun).ioFails = s.ioFails := rfl
@[simp] theorem State.forgetRun_tick : (s.forgetRun).tick = s.tick := rfl
end forgetRun

section takeFault
variable (s0 s : State) (f : FaultCode) (stage : Stage)
@[simp] theorem State.takeFault_l : (s0.takeFault s f stage).l = s.freeWord .l := rfl
@[simp] theorem State.takeFault_h : (s0.takeFault s f stage).h = s.freeWord .h := rfl
@[simp] theorem State.takeFault_value : (s0.takeFault s f stage).value = s.freeWord .value := rfl
@[simp] theorem State.takeFault_bitsToFollow : (s0.takeFault s f stage).bitsToFollow = Config.free .bitsToFollow s.tick := rfl
@[simp] theorem State.takeFault_nTotal : (s0.takeFault s f stage).nTotal = s.freeCount .nTotal := rfl
@[simp] theorem State.takeFault_symIdx : (s0.takeFault s f stage).symIdx = s.freeCount .symIdx := rfl
@[simp] theorem State.takeFault_mode : (s0.takeFault s f stage).mode = .fault := rfl
@[simp] theorem State.takeFault_fault : (s0.takeFault s f stage).fault = s.faultRecordOf f stage := rfl
@[simp] theorem State.takeFault_cfg : (s0.takeFault s f stage).cfg = s.cfg := rfl
@[simp] theorem State.takeFault_table : (s0.takeFault s f stage).table = s.forgetRun.table := rfl
@[simp] theorem State.takeFault_wrBits : (s0.takeFault s f stage).wrBits = keptBits s0 s := rfl
@[simp] theorem State.takeFault_sink : (s0.takeFault s f stage).sink = s.sink := rfl
@[simp] theorem State.takeFault_rdBits : (s0.takeFault s f stage).rdBits = s.rdBits := rfl
@[simp] theorem State.takeFault_rdPos : (s0.takeFault s f stage).rdPos = freeReadPos s0 := rfl
@[simp] theorem State.takeFault_response : (s0.takeFault s f stage).response = some { status := f.bits, result := none } := rfl
@[simp] theorem State.takeFault_inbox : (s0.takeFault s f stage).inbox = s.inbox := rfl
@[simp] theorem State.takeFault_ioFails : (s0.takeFault s f stage).ioFails = s.ioFails := rfl
@[simp] theorem State.takeFault_tick : (s0.takeFault s f stage).tick = s.tick := rfl
end takeFault

section afterTransfer
variable (s : State)
@[simp] theorem State.afterTransfer_l : (s.afterTransfer).l = s.l := rfl
@[simp] theorem State.afterTransfer_h : (s.afterTransfer).h = s.h := rfl
@[simp] theorem State.afterTransfer_value : (s.afterTransfer).value = s.value := rfl
@[simp] theorem State.afterTransfer_bitsToFollow : (s.afterTransfer).bitsToFollow = s.bitsToFollow := rfl
@[simp] theorem State.afterTransfer_nTotal : (s.afterTransfer).nTotal = s.nTotal := rfl
@[simp] theorem State.afterTransfer_symIdx : (s.afterTransfer).symIdx = s.symIdx := rfl
@[simp] theorem State.afterTransfer_mode : (s.afterTransfer).mode = s.mode := rfl
@[simp] theorem State.afterTransfer_fault : (s.afterTransfer).fault = s.fault := rfl
@[simp] theorem State.afterTransfer_cfg : (s.afterTransfer).cfg = s.cfg := rfl
@[simp] theorem State.afterTransfer_table : (s.afterTransfer).table = s.table := rfl
@[simp] theorem State.afterTransfer_wrBits : (s.afterTransfer).wrBits = s.wrBits := rfl
@[simp] theorem State.afterTransfer_sink : (s.afterTransfer).sink = s.sink := rfl
@[simp] theorem State.afterTransfer_rdBits : (s.afterTransfer).rdBits = s.rdBits := rfl
@[simp] theorem State.afterTransfer_rdPos : (s.afterTransfer).rdPos = s.rdPos := rfl
@[simp] theorem State.afterTransfer_response : (s.afterTransfer).response = s.response := rfl
@[simp] theorem State.afterTransfer_inbox : (s.afterTransfer).inbox = s.inbox := rfl
@[simp] theorem State.afterTransfer_ioFails : (s.afterTransfer).ioFails = s.ioFails.tail := rfl
@[simp] theorem State.afterTransfer_tick : (s.afterTransfer).tick = s.tick := rfl
end afterTransfer

section takeBits
variable (s : State) (n : Nat)
@[simp] theorem State.takeBits_l : (s.takeBits n).l = s.l := rfl
@[simp] theorem State.takeBits_h : (s.takeBits n).h = s.h := rfl
@[simp] theorem State.takeBits_value : (s.takeBits n).value = s.value := rfl
@[simp] theorem State.takeBits_bitsToFollow : (s.takeBits n).bitsToFollow = s.bitsToFollow := rfl
@[simp] theorem State.takeBits_nTotal : (s.takeBits n).nTotal = s.nTotal := rfl
@[simp] theorem State.takeBits_symIdx : (s.takeBits n).symIdx = s.symIdx := rfl
@[simp] theorem State.takeBits_mode : (s.takeBits n).mode = s.mode := rfl
@[simp] theorem State.takeBits_fault : (s.takeBits n).fault = s.fault := rfl
@[simp] theorem State.takeBits_cfg : (s.takeBits n).cfg = s.cfg := rfl
@[simp] theorem State.takeBits_table : (s.takeBits n).table = s.table := rfl
@[simp] theorem State.takeBits_wrBits : (s.takeBits n).wrBits = s.wrBits := rfl
@[simp] theorem State.takeBits_sink : (s.takeBits n).sink = s.sink := rfl
@[simp] theorem State.takeBits_rdBits : (s.takeBits n).rdBits = s.rdBits := rfl
@[simp] theorem State.takeBits_rdPos : (s.takeBits n).rdPos = s.rdPos + min n s.remaining.length := rfl
@[simp] theorem State.takeBits_response : (s.takeBits n).response = s.response := rfl
@[simp] theorem State.takeBits_inbox : (s.takeBits n).inbox = s.inbox := rfl
@[simp] theorem State.takeBits_ioFails : (s.takeBits n).ioFails = s.ioFails.tail := rfl
@[simp] theorem State.takeBits_tick : (s.takeBits n).tick = s.tick := rfl
end takeBits

section appendBits
variable (s : State) (bits : Bits)
@[simp] theorem State.appendBits_l : (s.appendBits bits).l = s.l := rfl
@[simp] theorem State.appendBits_h : (s.appendBits bits).h = s.h := rfl
@[simp] theorem State.appendBits_value : (s.appendBits bits).value = s.value := rfl
@[simp] theorem State.appendBits_bitsToFollow : (s.appendBits bits).bitsToFollow = s.bitsToFollow := rfl
@[simp] theorem State.appendBits_nTotal : (s.appendBits bits).nTotal = s.nTotal := rfl
@[simp] theorem State.appendBits_symIdx : (s.appendBits bits).symIdx = s.symIdx := rfl
@[simp] theorem State.appendBits_mode : (s.appendBits bits).mode = s.mode := rfl
@[simp] theorem State.appendBits_fault : (s.appendBits bits).fault = s.fault := rfl
@[simp] theorem State.appendBits_cfg : (s.appendBits bits).cfg = s.cfg := rfl
@[simp] theorem State.appendBits_table : (s.appendBits bits).table = s.table := rfl
@[simp] theorem State.appendBits_wrBits : (s.appendBits bits).wrBits = s.wrBits ++ bits := rfl
@[simp] theorem State.appendBits_sink : (s.appendBits bits).sink = s.sink := rfl
@[simp] theorem State.appendBits_rdBits : (s.appendBits bits).rdBits = s.rdBits := rfl
@[simp] theorem State.appendBits_rdPos : (s.appendBits bits).rdPos = s.rdPos := rfl
@[simp] theorem State.appendBits_response : (s.appendBits bits).response = s.response := rfl
@[simp] theorem State.appendBits_inbox : (s.appendBits bits).inbox = s.inbox := rfl
@[simp] theorem State.appendBits_ioFails : (s.appendBits bits).ioFails = s.ioFails := rfl
@[simp] theorem State.appendBits_tick : (s.appendBits bits).tick = s.tick := rfl
end appendBits

section countSymbol
variable (s : State)
@[simp] theorem State.countSymbol_l : (s.countSymbol).l = s.l := rfl
@[simp] theorem State.countSymbol_h : (s.countSymbol).h = s.h := rfl
@[simp] theorem State.countSymbol_value : (s.countSymbol).value = s.value := rfl
@[simp] theorem State.countSymbol_bitsToFollow : (s.countSymbol).bitsToFollow = s.bitsToFollow := rfl
@[simp] theorem State.countSymbol_nTotal : (s.countSymbol).nTotal = s.nTotal := rfl
@[simp] theorem State.countSymbol_mode : (s.countSymbol).mode = s.mode := rfl
@[simp] theorem State.countSymbol_fault : (s.countSymbol).fault = s.fault := rfl
@[simp] theorem State.countSymbol_cfg : (s.countSymbol).cfg = s.cfg := rfl
@[simp] theorem State.countSymbol_table : (s.countSymbol).table = s.table := rfl
@[simp] theorem State.countSymbol_wrBits : (s.countSymbol).wrBits = s.wrBits := rfl
@[simp] theorem State.countSymbol_sink : (s.countSymbol).sink = s.sink := rfl
@[simp] theorem State.countSymbol_rdBits : (s.countSymbol).rdBits = s.rdBits := rfl
@[simp] theorem State.countSymbol_rdPos : (s.countSymbol).rdPos = s.rdPos := rfl
@[simp] theorem State.countSymbol_response : (s.countSymbol).response = s.response := rfl
@[simp] theorem State.countSymbol_inbox : (s.countSymbol).inbox = s.inbox := rfl
@[simp] theorem State.countSymbol_ioFails : (s.countSymbol).ioFails = s.ioFails := rfl
@[simp] theorem State.countSymbol_tick : (s.countSymbol).tick = s.tick := rfl
end countSymbol

section drain
variable (s : State)
@[simp] theorem State.drain_l : (s.drain).l = s.l := rfl
@[simp] theorem State.drain_h : (s.drain).h = s.h := rfl
@[simp] theorem State.drain_value : (s.drain).value = s.value := rfl
@[simp] theorem State.drain_bitsToFollow : (s.drain).bitsToFollow = s.bitsToFollow := rfl
@[simp] theorem State.drain_nTotal : (s.drain).nTotal = s.nTotal := rfl
@[simp] theorem State.drain_symIdx : (s.drain).symIdx = s.symIdx := rfl
@[simp] theorem State.drain_mode : (s.drain).mode = s.mode := rfl
@[simp] theorem State.drain_fault : (s.drain).fault = s.fault := rfl
@[simp] theorem State.drain_cfg : (s.drain).cfg = s.cfg := rfl
@[simp] theorem State.drain_table : (s.drain).table = s.table := rfl
@[simp] theorem State.drain_wrBits : (s.drain).wrBits = s.wrBits := rfl
@[simp] theorem State.drain_rdBits : (s.drain).rdBits = s.rdBits := rfl
@[simp] theorem State.drain_rdPos : (s.drain).rdPos = s.rdPos := rfl
@[simp] theorem State.drain_response : (s.drain).response = s.response := rfl
@[simp] theorem State.drain_inbox : (s.drain).inbox = s.inbox := rfl
@[simp] theorem State.drain_ioFails : (s.drain).ioFails = s.ioFails := rfl
@[simp] theorem State.drain_tick : (s.drain).tick = s.tick := rfl
end drain

section newTable
variable (s : State)
@[simp] theorem State.newTable_l : (s.newTable).l = s.l := rfl
@[simp] theorem State.newTable_h : (s.newTable).h = s.h := rfl
@[simp] theorem State.newTable_value : (s.newTable).value = s.value := rfl
@[simp] theorem State.newTable_bitsToFollow : (s.newTable).bitsToFollow = s.bitsToFollow := rfl
@[simp] theorem State.newTable_nTotal : (s.newTable).nTotal = s.nTotal := rfl
@[simp] theorem State.newTable_symIdx : (s.newTable).symIdx = s.symIdx := rfl
@[simp] theorem State.newTable_mode : (s.newTable).mode = s.mode := rfl
@[simp] theorem State.newTable_fault : (s.newTable).fault = s.fault := rfl
@[simp] theorem State.newTable_cfg : (s.newTable).cfg = s.cfg := rfl
@[simp] theorem State.newTable_table : (s.newTable).table = Table.fresh := rfl
@[simp] theorem State.newTable_wrBits : (s.newTable).wrBits = s.wrBits := rfl
@[simp] theorem State.newTable_sink : (s.newTable).sink = s.sink := rfl
@[simp] theorem State.newTable_rdBits : (s.newTable).rdBits = s.rdBits := rfl
@[simp] theorem State.newTable_rdPos : (s.newTable).rdPos = s.rdPos := rfl
@[simp] theorem State.newTable_response : (s.newTable).response = s.response := rfl
@[simp] theorem State.newTable_inbox : (s.newTable).inbox = s.inbox := rfl
@[simp] theorem State.newTable_ioFails : (s.newTable).ioFails = s.ioFails := rfl
@[simp] theorem State.newTable_tick : (s.newTable).tick = s.tick := rfl
end newTable

section updateTable
variable (s : State) (v : Sym)
@[simp] theorem State.updateTable_l : (s.updateTable v).l = s.l := rfl
@[simp] theorem State.updateTable_h : (s.updateTable v).h = s.h := rfl
@[simp] theorem State.updateTable_value : (s.updateTable v).value = s.value := rfl
@[simp] theorem State.updateTable_bitsToFollow : (s.updateTable v).bitsToFollow = s.bitsToFollow := rfl
@[simp] theorem State.updateTable_nTotal : (s.updateTable v).nTotal = s.nTotal := rfl
@[simp] theorem State.updateTable_symIdx : (s.updateTable v).symIdx = s.symIdx := rfl
@[simp] theorem State.updateTable_mode : (s.updateTable v).mode = s.mode := rfl
@[simp] theorem State.updateTable_fault : (s.updateTable v).fault = s.fault := rfl
@[simp] theorem State.updateTable_cfg : (s.updateTable v).cfg = s.cfg := rfl
@[simp] theorem State.updateTable_table : (s.updateTable v).table = s.table.update s.cfg s.tick v := rfl
@[simp] theorem State.updateTable_wrBits : (s.updateTable v).wrBits = s.wrBits := rfl
@[simp] theorem State.updateTable_sink : (s.updateTable v).sink = s.sink := rfl
@[simp] theorem State.updateTable_rdBits : (s.updateTable v).rdBits = s.rdBits := rfl
@[simp] theorem State.updateTable_rdPos : (s.updateTable v).rdPos = s.rdPos := rfl
@[simp] theorem State.updateTable_response : (s.updateTable v).response = s.response := rfl
@[simp] theorem State.updateTable_inbox : (s.updateTable v).inbox = s.inbox := rfl
@[simp] theorem State.updateTable_ioFails : (s.updateTable v).ioFails = s.ioFails := rfl
@[simp] theorem State.updateTable_tick : (s.updateTable v).tick = s.tick := rfl
end updateTable

section settle
variable (s : State)
@[simp] theorem State.settle_l : (s.settle).l = s.l := rfl
@[simp] theorem State.settle_h : (s.settle).h = s.h := rfl
@[simp] theorem State.settle_value : (s.settle).value = s.value := rfl
@[simp] theorem State.settle_bitsToFollow : (s.settle).bitsToFollow = s.bitsToFollow := rfl
@[simp] theorem State.settle_nTotal : (s.settle).nTotal = s.nTotal := rfl
@[simp] theorem State.settle_symIdx : (s.settle).symIdx = s.symIdx := rfl
@[simp] theorem State.settle_mode : (s.settle).mode = s.mode := rfl
@[simp] theorem State.settle_fault : (s.settle).fault = s.fault := rfl
@[simp] theorem State.settle_cfg : (s.settle).cfg = s.cfg := rfl
@[simp] theorem State.settle_table : (s.settle).table = s.table := rfl
@[simp] theorem State.settle_wrBits : (s.settle).wrBits = s.wrBits := rfl
@[simp] theorem State.settle_sink : (s.settle).sink = s.drain.sink := rfl
@[simp] theorem State.settle_rdBits : (s.settle).rdBits = s.rdBits := rfl
@[simp] theorem State.settle_rdPos : (s.settle).rdPos = s.rdPos := rfl
@[simp] theorem State.settle_response : (s.settle).response = s.response := rfl
@[simp] theorem State.settle_inbox : (s.settle).inbox = s.inbox := rfl
@[simp] theorem State.settle_ioFails : (s.settle).ioFails = s.ioFails := rfl
@[simp] theorem State.settle_tick : (s.settle).tick = s.tick + 1 := rfl
end settle

section afterReset
variable (s : State)
@[simp] theorem State.afterReset_l : (s.afterReset).l = s.freeWord .l := rfl
@[simp] theorem State.afterReset_h : (s.afterReset).h = s.freeWord .h := rfl
@[simp] theorem State.afterReset_value : (s.afterReset).value = s.freeWord .value := rfl
@[simp] theorem State.afterReset_bitsToFollow : (s.afterReset).bitsToFollow = Config.free .bitsToFollow s.tick := rfl
@[simp] theorem State.afterReset_nTotal : (s.afterReset).nTotal = s.freeCount .nTotal := rfl
@[simp] theorem State.afterReset_symIdx : (s.afterReset).symIdx = s.freeCount .symIdx := rfl
@[simp] theorem State.afterReset_mode : (s.afterReset).mode = .idle := rfl
@[simp] theorem State.afterReset_fault : (s.afterReset).fault = FaultRecord.clear := rfl
@[simp] theorem State.afterReset_cfg : (s.afterReset).cfg = s.cfg := rfl
@[simp] theorem State.afterReset_table : (s.afterReset).table = s.forgetRun.table := rfl
@[simp] theorem State.afterReset_wrBits : (s.afterReset).wrBits = s.wrBits := rfl
@[simp] theorem State.afterReset_sink : (s.afterReset).sink = s.sink := rfl
@[simp] theorem State.afterReset_rdBits : (s.afterReset).rdBits = s.rdBits := rfl
@[simp] theorem State.afterReset_rdPos : (s.afterReset).rdPos = s.rdPos := rfl
@[simp] theorem State.afterReset_response : (s.afterReset).response = none := rfl
@[simp] theorem State.afterReset_inbox : (s.afterReset).inbox = s.inbox := rfl
@[simp] theorem State.afterReset_ioFails : (s.afterReset).ioFails = s.ioFails := rfl
@[simp] theorem State.afterReset_tick : (s.afterReset).tick = s.tick := rfl
end afterReset

section cutOff
variable (s0 s : State)
@[simp] theorem State.cutOff_l : (s0.cutOff s).l = s0.freeWord .l := rfl
@[simp] theorem State.cutOff_h : (s0.cutOff s).h = s0.freeWord .h := rfl
@[simp] theorem State.cutOff_value : (s0.cutOff s).value = s0.freeWord .value := rfl
@[simp] theorem State.cutOff_bitsToFollow : (s0.cutOff s).bitsToFollow = Config.free .bitsToFollow s0.tick := rfl
@[simp] theorem State.cutOff_nTotal : (s0.cutOff s).nTotal = s0.freeCount .nTotal := rfl
@[simp] theorem State.cutOff_symIdx : (s0.cutOff s).symIdx = s0.freeCount .symIdx := rfl
@[simp] theorem State.cutOff_mode : (s0.cutOff s).mode = .idle := rfl
@[simp] theorem State.cutOff_fault : (s0.cutOff s).fault = FaultRecord.clear := rfl
@[simp] theorem State.cutOff_cfg : (s0.cutOff s).cfg = s0.cfg := rfl
@[simp] theorem State.cutOff_table : (s0.cutOff s).table = s0.forgetRun.table := rfl
@[simp] theorem State.cutOff_wrBits : (s0.cutOff s).wrBits = keptBits s0 s := rfl
@[simp] theorem State.cutOff_sink : (s0.cutOff s).sink = s0.sink := rfl
@[simp] theorem State.cutOff_rdBits : (s0.cutOff s).rdBits = s0.rdBits := rfl
@[simp] theorem State.cutOff_rdPos : (s0.cutOff s).rdPos = keptReads s0 s := rfl
@[simp] theorem State.cutOff_response : (s0.cutOff s).response = none := rfl
@[simp] theorem State.cutOff_inbox : (s0.cutOff s).inbox = s0.inbox := rfl
@[simp] theorem State.cutOff_ioFails : (s0.cutOff s).ioFails = s0.ioFails := rfl
@[simp] theorem State.cutOff_tick : (s0.cutOff s).tick = s0.tick := rfl
end cutOff

end Sys2Proof.Machine
end

