-- ==== Sys2Proof/Laws/Ops.lean ====
section
/-! SUPPORT. What each shared operation does, once: the sequencing of pseudocode, the bit forms, the stream accesses, the
end of a command. -/

namespace Sys2Proof.Machine

open Host (Outcome)

/-! ### Sequencing -/

@[simp] theorem Run.andThen_done {α β : Type} (a : α) (s : State) (k : α → State → Run β) :
    (Run.done a s).andThen k = k a s := rfl

@[simp] theorem Run.andThen_raised {α β : Type} (f : FaultCode) (g : Stage) (s : State) (k : α → State → Run β) :
    (Run.raised f g s : Run α).andThen k = .raised f g s := rfl

@[simp] theorem Run.andThen_stopped {α β : Type} (f : Fault) (k : α → State → Run β) :
    (Run.stopped f : Run α).andThen k = .stopped f := rfl

theorem Run.andThen_assoc {α β γ : Type} (r : Run α) (k : α → State → Run β) (m : β → State → Run γ) :
    (r.andThen k).andThen m = r.andThen fun a s => (k a s).andThen m := by
  cases r <;> rfl

/-- What holds of every end of a stretch of pseudocode that does not stop. -/
def Run.All {α : Type} (P : State → Prop) : Run α → Prop
  | .done _ s => P s
  | .raised _ _ s => P s
  | .stopped _ => False

@[simp] theorem Run.all_done {α : Type} (P : State → Prop) (a : α) (s : State) : (Run.done a s).All P ↔ P s := Iff.rfl

@[simp] theorem Run.all_raised {α : Type} (P : State → Prop) (f : FaultCode) (g : Stage) (s : State) :
    (Run.raised f g s : Run α).All P ↔ P s := Iff.rfl

theorem Run.All.andThen {α β : Type} {P Q : State → Prop} {r : Run α} {k : α → State → Run β}
    (hr : r.All P) (hk : ∀ a s, P s → (k a s).All Q) (hPQ : ∀ s, P s → Q s) : (r.andThen k).All Q := by
  cases r with
  | done a s => exact hk a s hr
  | raised f g s => exact hPQ s hr
  | stopped f => exact hr.elim

theorem Run.All.imp {α : Type} {P Q : State → Prop} {r : Run α} (hr : r.All P) (h : ∀ s, P s → Q s) : r.All Q := by
  cases r with
  | done a s => exact h s hr
  | raised f g s => exact h s hr
  | stopped f => exact hr

/-! ### Bits, bytes, fronts -/

@[simp] theorem front_eq_take {α : Type} (l : List α) (n : Nat) : front l n = l.take n := by
  induction l generalizing n with
  | nil => simp [front]
  | cons x xs ih => cases n <;> simp [front, ih]

@[simp] theorem bitsOf_length (v : Count) (n : Nat) : (bitsOf v n).length = n := by
  induction n with
  | zero => rfl
  | succ n ih => simp [bitsOf, ih]

theorem bitsOf_getElem (v : Count) (n k : Nat) (h : k < (bitsOf v n).length) :
    (bitsOf v n)[k] = v.getLsbD (n - 1 - k) := by
  induction n generalizing k with
  | zero => simp [bitsOf] at h
  | succ n ih =>
    cases k with
    | zero => simp [bitsOf]
    | succ k =>
      simp only [bitsOf, List.getElem_cons_succ, ih]
      congr 1
      omega

theorem natOfBits_append (acc : Nat) (a b : Bits) : natOfBits acc (a ++ b) = natOfBits (natOfBits acc a) b := by
  induction a generalizing acc with
  | nil => rfl
  | cons x xs ih => simp [natOfBits, ih]

theorem natOfBits_lt (acc : Nat) (bs : Bits) : natOfBits acc bs < (acc + 1) * 2 ^ bs.length := by
  induction bs generalizing acc with
  | nil => simp [natOfBits]
  | cons b bs ih =>
    have h := ih (2 * acc + b.toNat)
    have hb : b.toNat ≤ 1 := Bool.toNat_le b
    calc natOfBits acc (b :: bs) < (2 * acc + b.toNat + 1) * 2 ^ bs.length := h
      _ ≤ (2 * (acc + 1)) * 2 ^ bs.length := Nat.mul_le_mul_right _ (by omega)
      _ = (acc + 1) * 2 ^ (b :: bs).length := by rw [List.length_cons, pow_succ]; ring

theorem natOfBits_eq (acc : Nat) (bs : Bits) : natOfBits acc bs = acc * 2 ^ bs.length + natOfBits 0 bs := by
  induction bs generalizing acc with
  | nil => simp [natOfBits]
  | cons b bs ih =>
    rw [natOfBits, natOfBits, ih (2 * acc + b.toNat), ih (2 * 0 + b.toNat), List.length_cons, pow_succ]
    ring

/-- The bits of the number read are the bits, the first the most significant (20_memory R62). -/
theorem natOfBits_testBit (bs : Bits) (k : Nat) (h : k < bs.length) :
    (natOfBits 0 bs).testBit (bs.length - 1 - k) = bs[k] := by
  induction bs generalizing k with
  | nil => simp at h
  | cons b bs ih =>
    rw [natOfBits, natOfBits_eq]
    have hlt : natOfBits 0 bs < 2 ^ bs.length := by simpa using natOfBits_lt 0 bs
    cases k with
    | zero =>
      rw [show (b :: bs).length - 1 - 0 = bs.length by simp, mul_comm, Nat.testBit_two_pow_mul_add _ hlt]
      cases b <;> simp
    | succ k =>
      have hk : k < bs.length := by simpa using h
      rw [show (b :: bs).length - 1 - (k + 1) = bs.length - 1 - k by (simp; omega), mul_comm,
        Nat.testBit_two_pow_mul_add _ hlt, if_pos (by omega)]
      simpa using ih k hk

theorem natOfBits_bitsOf (v : Count) (n : Nat) : natOfBits 0 (bitsOf v n) = v.toNat % 2 ^ n := by
  induction n with
  | zero => simp [bitsOf, natOfBits, Nat.mod_one]
  | succ n ih =>
    rw [bitsOf, natOfBits, natOfBits_eq, ih, bitsOf_length, BitVec.getLsbD, Nat.testBit_eq_decide_div_mod_eq,
      Nat.mod_pow_succ]
    have hx : v.toNat / 2 ^ n % 2 < 2 := Nat.mod_lt _ (by decide)
    generalize v.toNat / 2 ^ n % 2 = x at hx ⊢
    generalize v.toNat % 2 ^ n = y
    generalize 2 ^ n = z
    interval_cases x
    · simp
    · simp; ring

theorem byteOf_byteBits (b : Byte) : pack (byteBits b) = [b] := by
  have h : ∀ b : Byte, pack (byteBits b) = [b] := by decide +kernel
  exact h b

theorem pack_append_byte (b : Byte) (bs : Bits) : pack (byteBits b ++ bs) = b :: pack bs := by
  have hb := byteOf_byteBits b
  simp only [byteBits, bitsOf] at hb ⊢
  simpa [pack] using hb

theorem byteBits_length (b : Byte) : (byteBits b).length = 8 := by simp [byteBits]

theorem unpack_length (l : List Byte) : (unpack l).length = 8 * l.length := by
  induction l with
  | nil => rfl
  | cons b bs ih => simp [unpack, byteBits_length, ih]; omega

theorem pack_length : ∀ b : Bits, (pack b).length = b.length / 8
  | b7 :: b6 :: b5 :: b4 :: b3 :: b2 :: b1 :: b0 :: rest => by
    simp only [pack, List.length_cons, pack_length rest]; omega
  | [] | [_] | [_, _] | [_, _, _] | [_, _, _, _] | [_, _, _, _, _] | [_, _, _, _, _, _] | [_, _, _, _, _, _, _] => by
    simp [pack]

/-- Bits appended later leave the whole bytes before them alone (20_memory R67). -/
theorem pack_prefix : ∀ a b : Bits, pack a <+: pack (a ++ b)
  | b7 :: b6 :: b5 :: b4 :: b3 :: b2 :: b1 :: b0 :: rest, b => by
    simpa only [pack, List.cons_append, List.cons_prefix_cons, true_and] using pack_prefix rest b
  | [], _ | [_], _ | [_, _], _ | [_, _, _], _ | [_, _, _, _], _ | [_, _, _, _, _], _ | [_, _, _, _, _, _], _
  | [_, _, _, _, _, _, _], _ => List.nil_prefix

/-! ### Transfers -/

theorem bsWrite_wide {n : Nat} (h : 64 < n) (stage : Stage) (v : Count) (s : State) :
    bsWrite stage v n s = .raised .illegalCmd stage s := by simp [bsWrite, bsMaxN, h]

@[simp] theorem bsWrite_zero (stage : Stage) (v : Count) (s : State) : bsWrite stage v 0 s = .done () s := by
  simp [bsWrite, bsMaxN]

theorem bsWrite_ok {n : Nat} (h0 : 0 < n) (h64 : n ≤ 64) {s : State} (hf : s.transferFails = false) (stage : Stage)
    (v : Count) : bsWrite stage v n s = .done () (s.afterTransfer.appendBits (bitsOf v n)) := by
  simp [bsWrite, bsMaxN, hf, show ¬64 < n by omega, show n ≠ 0 by omega]

theorem bsWrite_fails {n : Nat} (h0 : 0 < n) (h64 : n ≤ 64) {s : State} (hf : s.transferFails = true) (stage : Stage)
    (v : Count) : bsWrite stage v n s = .raised .ioError stage (s.afterTransfer.appendBits (bitsOf v n)) := by
  simp [bsWrite, bsMaxN, hf, show ¬64 < n by omega, show n ≠ 0 by omega]

theorem bsRead_wide {n : Nat} (h : 64 < n) (stage : Stage) (s : State) :
    bsRead stage n s = .raised .illegalCmd stage s := by simp [bsRead, bsMaxN, h]

@[simp] theorem bsRead_zero (stage : Stage) (s : State) : bsRead stage 0 s = .done 0 s := by simp [bsRead, bsMaxN]

/-- A read that goes through takes its `n` bits (40_bit_stream R122). -/
theorem State.takeBits_of_le {s : State} {n : Nat} (h : n ≤ s.remaining.length) :
    s.takeBits n = { s.afterTransfer with rdPos := s.rdPos + n } := by rw [State.takeBits, Nat.min_eq_left h]

theorem bsRead_ok {n : Nat} (h0 : 0 < n) (h64 : n ≤ 64) {s : State} (hf : s.transferFails = false)
    (hr : n ≤ s.remaining.length) (stage : Stage) :
    bsRead stage n s =
      .done (BitVec.ofNat 64 (natOfBits 0 (s.remaining.take n))) { s.afterTransfer with rdPos := s.rdPos + n } := by
  rw [← State.takeBits_of_le hr]
  simp only [bsRead, bsMaxN, hf, show ¬64 < n by omega, show n ≠ 0 by omega, show ¬s.remaining.length < n by omega, if_false,
    Bool.false_eq_true]

theorem bsRead_fails {n : Nat} (h0 : 0 < n) (h64 : n ≤ 64) {s : State} (hf : s.transferFails = true) (stage : Stage) :
    bsRead stage n s = .raised .ioError stage (s.takeBits n) := by
  simp [bsRead, bsMaxN, hf, show ¬64 < n by omega, show n ≠ 0 by omega]

theorem bsRead_short {n : Nat} (h0 : 0 < n) (h64 : n ≤ 64) {s : State} (hf : s.transferFails = false)
    (hr : s.remaining.length < n) (stage : Stage) : bsRead stage n s = .raised .shortRead stage (s.takeBits n) := by
  simp [bsRead, bsMaxN, hf, hr, show ¬64 < n by omega, show n ≠ 0 by omega]

theorem bsFlush_ok {s : State} (hf : s.transferFails = false) (stage : Stage) :
    bsFlush stage s =
      .done () { s.afterTransfer with
        wrBits := s.wrBits ++ List.replicate (padLength s.wrBits.length) padBit
        sink := pack (s.wrBits ++ List.replicate (padLength s.wrBits.length) padBit) } := by
  simp [bsFlush, hf, State.appendBits, State.afterTransfer]

theorem bsFlush_fails {s : State} (hf : s.transferFails = true) (stage : Stage) :
    bsFlush stage s =
      .raised .ioError stage
        (s.afterTransfer.appendBits (List.replicate (padLength s.wrBits.length) padBit)) := by
  simp [bsFlush, hf]

@[simp] theorem State.remaining_length (s : State) : s.remaining.length = s.rdBits.length - s.rdPos := by
  simp [State.remaining]

theorem State.NextTransfersSucceed.first {s : State} {k : Nat} (h : s.NextTransfersSucceed (k + 1)) :
    s.transferFails = false := by
  unfold State.transferFails
  cases hs : s.ioFails with
  | nil => rfl
  | cons b bs => exact h b (by simp [hs])

theorem State.NextTransfersSucceed.rest {s : State} {k : Nat} (h : s.NextTransfersSucceed (k + 1)) (t : State)
    (ht : t.ioFails = s.ioFails.tail) : t.NextTransfersSucceed k := by
  intro b hb
  cases hs : s.ioFails with
  | nil => simp [ht, hs] at hb
  | cons c cs =>
    refine h b ?_
    simp [ht, hs] at hb
    simp [hs, hb]

theorem State.NoTransferFails.next {s : State} (h : s.NoTransferFails) (k : Nat) : s.NextTransfersSucceed k :=
  fun b hb => h b (List.mem_of_mem_take hb)

theorem State.NoTransferFails.transferFails {s : State} (h : s.NoTransferFails) : s.transferFails = false :=
  (h.next 1).first

theorem State.NoTransferFails.of_drop {s t : State} (h : s.NoTransferFails) {k : Nat}
    (ht : t.ioFails = s.ioFails.drop k) : t.NoTransferFails :=
  fun b hb => h b (List.mem_of_mem_drop (ht ▸ hb))

/-! ### The end of a command -/

@[simp] theorem finish_done (s0 : State) (r : Option Count) (s : State) :
    finish s0 (.done r s) = .next (s.respond r) := rfl

@[simp] theorem finish_raised (s0 : State) (f : FaultCode) (g : Stage) (s : State) :
    finish s0 (.raised f g s) = .next (s0.takeFault s f g) := rfl

theorem hostCommand_fault {s : State} (h : s.mode = .fault) (body : State → Run (Option Count)) :
    hostCommand s body = .next (s.refuse (some 0)) := by simp [hostCommand, h]

theorem hostCommand_run {s : State} (h : s.mode ≠ .fault) (body : State → Run (Option Count)) :
    hostCommand s body = finish s (body s) := by simp [hostCommand, h]

theorem keptBits_prefix (s0 s : State) : s0.wrBits <+: keptBits s0 s := ⟨_, rfl⟩

/-- What a cut-off command leaves in `wr_bits` is a front of what it wrote (60_exceptions R230). -/
theorem keptBits_front {s0 s : State} (h : s0.wrBits <+: s.wrBits) : keptBits s0 s <+: s.wrBits := by
  obtain ⟨b, hb⟩ := h
  simp only [keptBits, ← hb, List.drop_left, front_eq_take]
  exact (List.prefix_append_right_inj _).mpr (List.take_prefix _ _)

theorem le_freeReadPos (s : State) : s.rdPos ≤ freeReadPos s := Nat.le_add_right _ _

theorem le_keptReads (s0 s : State) : s0.rdPos ≤ keptReads s0 s := Nat.le_add_right _ _

/-- What a cut-off command has read is at most what it would have read (70_reset R260). -/
theorem keptReads_le {s0 s : State} (h : s0.rdPos ≤ s.rdPos) : keptReads s0 s ≤ s.rdPos := by
  unfold keptReads; omega

theorem freeReadPos_le {s : State} (h : s.rdPos ≤ s.rdBits.length) : freeReadPos s ≤ s.rdBits.length := by
  unfold freeReadPos; omega

end Sys2Proof.Machine
end

