-- ==== Sys2Proof/Laws/Table.lean ====
section
/-! SUPPORT. The frequency table: its entries after each operation, its invariants, the symbol search. -/

namespace Sys2Proof.Machine

/-! ### Entries -/

theorem entries_get (f : Nat → Nat) (i : Nat) : (entries f)[i]?.getD 0 = if i < 257 then f i else 0 := by
  by_cases h : i < 257 <;> simp [entries, h]

@[simp] theorem Table.cnt_entries (f : Nat → Nat) (v : Vector Nat 257) (n i : Nat) :
    (Table.mk (entries f) v n).cnt i = if i < 257 then f i else 0 := entries_get f i

@[simp] theorem Table.iv_entries (f : Nat → Nat) (v : Vector Nat 257) (n i : Nat) :
    (Table.mk v (entries f) n).iv i = if i < 257 then f i else 0 := entries_get f i

theorem Table.fresh_cnt {i : Nat} (h1 : 1 ≤ i) (h : i ≤ 256) : Table.fresh.cnt i = 1 := by
  simp [Table.fresh, show i < 257 by omega, show i ≠ 0 by omega]

theorem Table.fresh_iv {i : Nat} (h : i ≤ 256) : Table.fresh.iv i = i := by
  simp [Table.fresh, show i < 257 by omega]

theorem ceiling_bounds (cfg : Config) : 511 ≤ cfg.ceiling ∧ cfg.ceiling + 1 = 2 ^ cfg.countBits ∧
    cfg.ceiling < 2 ^ 30 := by
  have h9 : 2 ^ 9 ≤ 2 ^ cfg.countBits := Nat.pow_le_pow_right (by decide) cfg.legal.1
  have h30 : 2 ^ cfg.countBits ≤ 2 ^ 30 := Nat.pow_le_pow_right (by decide) cfg.legal.2
  unfold Config.ceiling
  norm_num at h9
  omega

theorem Table.fresh_valid (cfg : Config) : Table.fresh.Valid cfg where
  zeroBase := by simp [Table.fresh]
  positive _ h1 h := (Table.fresh_cnt h1 h).ge
  sums i h := by rw [fresh_iv (by omega), fresh_iv (by omega), fresh_cnt (by omega) (by omega)]
  total := by rw [fresh_iv (by omega)]; rfl
  bounds := by
    have := ceiling_bounds cfg
    simp only [Table.fresh]
    omega

/-! ### What the invariants give -/

theorem Table.Valid.iv_mono {cfg : Config} {t : Table} (h : t.Valid cfg) {i j : Nat} (hij : i ≤ j) (hj : j ≤ 256) :
    t.iv i ≤ t.iv j := by
  induction j, hij using Nat.le_induction with
  | base => exact le_rfl
  | succ j hij ih =>
    have := h.sums j (by omega)
    have := ih (by omega)
    omega

theorem Table.Valid.iv_strict {cfg : Config} {t : Table} (h : t.Valid cfg) {i j : Nat} (hij : i < j) (hj : j ≤ 256) :
    t.iv i < t.iv j := by
  have h1 := h.sums i (by omega)
  have h2 := h.positive (i + 1) (by omega) (by omega)
  have h3 := h.iv_mono (show i + 1 ≤ j from hij) hj
  omega

theorem Table.Valid.iv_le {cfg : Config} {t : Table} (h : t.Valid cfg) {i : Nat} (hi : i ≤ 256) :
    t.iv i ≤ t.totalCount := h.total ▸ h.iv_mono hi le_rfl

theorem Table.Valid.cnt_le {cfg : Config} {t : Table} (h : t.Valid cfg) {i : Nat} (hi : i ≤ 256) :
    t.cnt i ≤ t.totalCount := by
  cases i with
  | zero => rw [h.zeroBase.1]; exact Nat.zero_le _
  | succ i =>
    have h1 := h.sums i (by omega)
    have h2 := h.iv_le hi
    omega

theorem Table.Valid.fits {cfg : Config} {t : Table} (h : t.Valid cfg) : t.Fits cfg := by
  have hc := ceiling_bounds cfg
  have hb := h.bounds
  refine ⟨fun i hi => ?_, fun i hi => ?_, ?_⟩
  · have := h.cnt_le hi; omega
  · have := h.iv_le hi; omega
  · omega

/-- A symbol's bounds in the table: `0 <= lo < hi <= denom` (42_renormalizer R170). -/
theorem Table.Valid.symbol {cfg : Config} {t : Table} (h : t.Valid cfg) (v : Sym) :
    t.iv (lowIndex v) < t.iv (highIndex v) ∧ t.iv (highIndex v) ≤ t.iv denomIndex :=
  ⟨h.iv_strict (Nat.lt_succ_self _) (by have := v.isLt; unfold highIndex; omega),
    h.iv_mono (by have := v.isLt; unfold highIndex denomIndex; omega) le_rfl⟩

/-! ### The increment and the rescale -/

theorem fitEntry_of_lt {cfg : Config} {x : Nat} (h : x < 2 ^ cfg.countBits) (tick : Nat) (site : FreeSite) :
    fitEntry cfg tick site x = x := by simp [fitEntry, h]

theorem freeEntry_lt (cfg : Config) (tick : Nat) (site : FreeSite) : freeEntry cfg tick site < 2 ^ cfg.countBits :=
  Nat.mod_lt _ (Nat.two_pow_pos _)

theorem fitEntry_lt (cfg : Config) (tick : Nat) (site : FreeSite) (x : Nat) :
    fitEntry cfg tick site x < 2 ^ cfg.countBits := by
  unfold fitEntry
  split
  · assumption
  · exact freeEntry_lt _ _ _

theorem Table.increment_cnt {cfg : Config} {t : Table} (h : t.Valid cfg) (tick : Nat) (s : Sym) {i : Nat}
    (hi : i ≤ 256) : (t.increment cfg tick s).cnt i = if i = highIndex s then t.cnt i + 1 else t.cnt i := by
  have hc := ceiling_bounds cfg
  have hb := h.bounds
  have := h.cnt_le hi
  rw [Table.increment, Table.cnt_entries, if_pos (by omega), fitEntry_of_lt (by omega)]

theorem Table.increment_iv {cfg : Config} {t : Table} (h : t.Valid cfg) (tick : Nat) (s : Sym) {i : Nat}
    (hi : i ≤ 256) : (t.increment cfg tick s).iv i = if highIndex s ≤ i then t.iv i + 1 else t.iv i := by
  have hc := ceiling_bounds cfg
  have hb := h.bounds
  have := h.iv_le hi
  rw [Table.increment, Table.iv_entries, if_pos (by omega), fitEntry_of_lt (by omega)]

@[simp] theorem Table.increment_total (cfg : Config) (t : Table) (tick : Nat) (s : Sym) :
    (t.increment cfg tick s).totalCount = t.totalCount + 1 := rfl

theorem halved_pos (c : Nat) : 1 ≤ halved c := le_max_left _ _

/-- A rescale keeps at most half the counts and one for each symbol (41_frequency_table R150). -/
theorem two_mul_halved_le {c : Nat} (h : 1 ≤ c) : 2 * halved c ≤ c + 1 := by
  unfold halved rescaleDivisor; omega

theorem halved_le {c : Nat} (h : 1 ≤ c) : halved c ≤ c := by unfold halved rescaleDivisor; omega

theorem halved_mono {c d : Nat} (h : c ≤ d) : halved c ≤ halved d := by unfold halved rescaleDivisor; omega

/-- Before the rescale the table is as its invariants say, but for the total, which may stand at the ceiling (10_state
R33). -/
structure Table.AtMostCeiling (cfg : Config) (t : Table) : Prop where
  zeroBase : t.cnt 0 = 0 ∧ t.iv 0 = 0
  positive : ∀ i, 1 ≤ i → i ≤ 256 → 1 ≤ t.cnt i
  sums : ∀ i, i < 256 → t.iv (i + 1) = t.iv i + t.cnt (i + 1)
  total : t.totalCount = t.iv 256
  bounds : 256 ≤ t.totalCount ∧ t.totalCount ≤ cfg.ceiling

theorem Table.increment_atMostCeiling {cfg : Config} {t : Table} (h : t.Valid cfg) (tick : Nat) (s : Sym) :
    (t.increment cfg tick s).AtMostCeiling cfg := by
  have hs : highIndex s ≤ 256 := by have := s.isLt; unfold highIndex; omega
  have hs1 : 1 ≤ highIndex s := by unfold highIndex; omega
  have hb := h.bounds
  refine ⟨⟨?_, ?_⟩, fun i h1 hi => ?_, fun i hi => ?_, ?_, ?_⟩
  · rw [increment_cnt h _ _ (by omega), if_neg (by omega), h.zeroBase.1]
  · rw [increment_iv h _ _ (by omega), if_neg (by omega), h.zeroBase.2]
  · have := h.positive i h1 hi
    rw [increment_cnt h _ _ hi]
    split <;> omega
  · have := h.sums i hi
    rw [increment_iv h _ _ (by omega), increment_iv h _ _ (by omega), increment_cnt h _ _ (by omega)]
    split_ifs <;> omega
  · rw [increment_total, increment_iv h _ _ le_rfl, if_pos hs, h.total]
  · rw [increment_total]; omega

theorem Table.AtMostCeiling.rebuilt_le {cfg : Config} {t : Table} (h : t.AtMostCeiling cfg) (tick : Nat) {i : Nat}
    (hi : i ≤ 256) (c : Nat → Nat) (hc : ∀ j, 1 ≤ j → j ≤ 256 → c j = halved (t.cnt j)) :
    rebuiltInterval cfg tick (t.iv 0) c i ≤ t.iv i ∧ 2 * rebuiltInterval cfg tick (t.iv 0) c i ≤ t.iv i + i ∧
      i ≤ rebuiltInterval cfg tick (t.iv 0) c i ∧ t.iv i + (256 - i) ≤ t.totalCount := by
  have hceil := ceiling_bounds cfg
  have hb := h.bounds
  have key : ∀ k, k ≤ 256 → t.iv (256 - k) + k ≤ t.totalCount := by
    intro k hk
    induction k with
    | zero => simp [h.total]
    | succ k ih =>
      have h1 := h.sums (256 - (k + 1)) (by omega)
      have h2 := h.positive (256 - (k + 1) + 1) (by omega) (by omega)
      rw [show 256 - (k + 1) + 1 = 256 - k by omega] at h1 h2
      have := ih (by omega)
      omega
  induction i with
  | zero =>
    have := key 256 le_rfl
    simp [rebuiltInterval, h.zeroBase.2] at this ⊢
    omega
  | succ i ih =>
    obtain ⟨h1, h2, h3, h4⟩ := ih (by omega)
    have h5 := h.sums i (by omega)
    have h6 := h.positive (i + 1) (by omega) (by omega)
    have h7 := two_mul_halved_le h6
    have h8 := halved_le h6
    have h9 := halved_pos (t.cnt (i + 1))
    have h10 := key (256 - (i + 1)) (by omega)
    rw [show 256 - (256 - (i + 1)) = i + 1 by omega] at h10
    rw [rebuiltInterval, hc (i + 1) (by omega) hi, fitEntry_of_lt (by omega)]
    omega

theorem Table.rescale_cnt (cfg : Config) (tick : Nat) (t : Table) {i : Nat} (h1 : 1 ≤ i) (hi : i ≤ 256) :
    (t.rescale cfg tick).cnt i = halved (t.cnt i) := by
  rw [Table.rescale, Table.cnt_entries, if_pos (by omega), if_neg (by omega)]

theorem Table.rescale_cnt_zero (cfg : Config) (tick : Nat) (t : Table) : (t.rescale cfg tick).cnt 0 = t.cnt 0 := by
  simp [Table.rescale]

theorem Table.rescale_iv_zero (cfg : Config) (tick : Nat) (t : Table) : (t.rescale cfg tick).iv 0 = t.iv 0 := by
  rw [Table.rescale, Table.iv_entries, if_pos (by decide)]
  rfl

theorem Table.rescale_iv_eq (cfg : Config) (tick : Nat) (t : Table) {i : Nat} (hi : i ≤ 256) :
    (t.rescale cfg tick).iv i = rebuiltInterval cfg tick (t.iv 0) (t.rescale cfg tick).cnt i := by
  rw [Table.rescale, Table.iv_entries, if_pos (by omega)]
  rfl

theorem Table.rescale_total (cfg : Config) (tick : Nat) (t : Table) :
    (t.rescale cfg tick).totalCount = (t.rescale cfg tick).iv 256 := by
  rw [Table.rescale_iv_eq _ _ _ le_rfl]
  rfl

theorem Table.AtMostCeiling.rescale_sums {cfg : Config} {t : Table} (h : t.AtMostCeiling cfg) (tick : Nat) {i : Nat}
    (hi : i < 256) :
    (t.rescale cfg tick).iv (i + 1) = (t.rescale cfg tick).iv i + (t.rescale cfg tick).cnt (i + 1) := by
  have hc : ∀ j, 1 ≤ j → j ≤ 256 → (t.rescale cfg tick).cnt j = halved (t.cnt j) :=
    fun j h1 hj => rescale_cnt cfg tick t h1 hj
  have h1 := h.rebuilt_le tick (show i ≤ 256 by omega) _ hc
  have h5 := h.sums i hi
  have h8 := halved_le (h.positive (i + 1) (by omega) (by omega))
  have hb := h.bounds
  have hceil := ceiling_bounds cfg
  have h9 := hc (i + 1) (by omega) (by omega)
  have h10 := (h.rebuilt_le tick (show i + 1 ≤ 256 by omega) (fun j => halved (t.cnt j)) fun _ _ _ => rfl).2.2.2
  rw [rescale_iv_eq _ _ _ (by omega), rescale_iv_eq _ _ _ (by omega), rebuiltInterval, fitEntry_of_lt (by omega)]

/-- A rescale leaves the invariants, the total strictly below the ceiling (41_frequency_table R150). -/
theorem Table.AtMostCeiling.rescale_valid {cfg : Config} {t : Table} (h : t.AtMostCeiling cfg) (tick : Nat) :
    (t.rescale cfg tick).Valid cfg := by
  have hc : ∀ j, 1 ≤ j → j ≤ 256 → (t.rescale cfg tick).cnt j = halved (t.cnt j) :=
    fun j h1 hj => rescale_cnt cfg tick t h1 hj
  have h1 := h.rebuilt_le tick (le_refl 256) _ hc
  have hceil := ceiling_bounds cfg
  have hb := h.bounds
  have ht := h.total
  refine ⟨⟨?_, ?_⟩, fun i h1 hi => ?_, fun i hi => h.rescale_sums tick hi, rescale_total _ _ _, ?_⟩
  · rw [rescale_cnt_zero, h.zeroBase.1]
  · rw [rescale_iv_zero, h.zeroBase.2]
  · rw [hc i h1 hi]; exact halved_pos _
  · rw [rescale_total, rescale_iv_eq _ _ _ le_rfl]; omega

theorem Table.update_eq (cfg : Config) (tick : Nat) (s : Sym) (t : Table) :
    t.update cfg tick s =
      if cfg.ceiling ≤ (t.increment cfg tick s).totalCount then (t.increment cfg tick s).rescale cfg tick
      else t.increment cfg tick s := rfl

/-- `T_UPD` in a table that meets its invariants leaves one that does (10_state R33). -/
theorem Table.Valid.update {cfg : Config} {t : Table} (h : t.Valid cfg) (tick : Nat) (s : Sym) :
    (t.update cfg tick s).Valid cfg := by
  have h' := increment_atMostCeiling h tick s
  rw [Table.update_eq]
  split
  · exact h'.rescale_valid tick
  · exact ⟨h'.zeroBase, h'.positive, h'.sums, h'.total, h'.bounds.1, by omega⟩

/-! ### Widths -/

theorem Table.Fits.increment_cnt {cfg : Config} {t : Table} (h : t.Fits cfg) (tick : Nat) (s : Sym) {i : Nat}
    (hi : i ≤ 256) : (t.increment cfg tick s).cnt i < 2 ^ cfg.countBits := by
  rw [Table.increment, Table.cnt_entries, if_pos (by omega)]
  split
  · exact fitEntry_lt _ _ _ _
  · exact h.count i hi

theorem Table.Fits.increment_iv {cfg : Config} {t : Table} (h : t.Fits cfg) (tick : Nat) (s : Sym) {i : Nat}
    (hi : i ≤ 256) : (t.increment cfg tick s).iv i < 2 ^ cfg.countBits := by
  rw [Table.increment, Table.iv_entries, if_pos (by omega)]
  split
  · exact fitEntry_lt _ _ _ _
  · exact h.interval i hi

/-- A rescale leaves entries that fit, whatever the total before it. -/
theorem Table.rescale_fits {cfg : Config} {t : Table} (hcnt : ∀ i, i ≤ 256 → t.cnt i < 2 ^ cfg.countBits)
    (h0 : t.iv 0 < 2 ^ cfg.countBits) (tick : Nat) : (t.rescale cfg tick).Fits cfg := by
  have hceil := ceiling_bounds cfg
  have hiv : ∀ i, i ≤ 256 → (t.rescale cfg tick).iv i < 2 ^ cfg.countBits := by
    intro i hi
    rw [rescale_iv_eq _ _ _ hi]
    cases i with
    | zero => exact h0
    | succ i => exact fitEntry_lt _ _ _ _
  refine ⟨fun i hi => ?_, hiv, ?_⟩
  · cases i with
    | zero => rw [rescale_cnt_zero]; exact hcnt 0 (by omega)
    | succ i =>
      have := hcnt (i + 1) hi
      rw [rescale_cnt _ _ _ (by omega) hi]
      unfold halved rescaleDivisor
      omega
  · rw [rescale_total]; exact hiv 256 le_rfl

theorem Table.Fits.update {cfg : Config} {t : Table} (h : t.Fits cfg) (tick : Nat) (s : Sym) :
    (t.update cfg tick s).Fits cfg := by
  have hceil := ceiling_bounds cfg
  rw [Table.update_eq]
  split
  · exact Table.rescale_fits (fun i hi => h.increment_cnt tick s hi) (h.increment_iv tick s (by omega)) tick
  · next ht =>
    rw [increment_total] at ht
    exact ⟨fun i hi => h.increment_cnt tick s hi, fun i hi => h.increment_iv tick s hi, by rw [increment_total]; omega⟩

theorem Table.fits_forgetRun (s : State) : s.forgetRun.table.Fits s.cfg := by
  refine ⟨fun i hi => ?_, fun i hi => ?_, freeEntry_lt _ _ _⟩
  · rw [State.forgetRun, Table.cnt_entries, if_pos (by omega)]; exact freeEntry_lt _ _ _
  · rw [State.forgetRun, Table.iv_entries, if_pos (by omega)]; exact freeEntry_lt _ _ _

/-! ### The symbol search -/

/-- The symbol found is the smallest whose high bound exceeds the position (41_frequency_table R144). -/
theorem Table.search_eq_some {t : Table} {p s : Nat} :
    t.search p = some s ↔ s < 256 ∧ p < t.iv (s + 1) ∧ ∀ j, j < s → t.iv (j + 1) ≤ p := by
  simp [Table.search, List.find?_range_eq_some]
  tauto

/-- A position below the total is found, in the range that contains it (41_frequency_table R144, R145). -/
theorem Table.Valid.search {cfg : Config} {t : Table} (h : t.Valid cfg) {p : Nat} (hp : p < t.totalCount) :
    ∃ s, t.search p = some s ∧ s < 256 ∧ t.iv s ≤ p ∧ p < t.iv (s + 1) := by
  cases hs : t.search p with
  | none =>
    have := List.find?_eq_none.mp hs 255 (by simp)
    rw [h.total] at hp
    simp at this
    omega
  | some s =>
    obtain ⟨h1, h2, h3⟩ := Table.search_eq_some.mp hs
    refine ⟨s, rfl, h1, ?_, h2⟩
    cases s with
    | zero => rw [h.zeroBase.2]; exact Nat.zero_le _
    | succ s => exact h3 s (Nat.lt_succ_self s)

end Sys2Proof.Machine
end

