-- ==== Sys2Proof/Laws/Renorm.lean ====
section
/-! SUPPORT. The renormalizer: the branch conditions, one pass of the loop, the whole loop, `NARROW`. -/

namespace Sys2Proof.Machine

/-! ### Branches -/

/-- Which branch is taken, and when (42_renormalizer R165, R166). -/
theorem branchOf_cases (l h : Nat) :
    (branchOf l h = .e2 ∧ h < half) ∨ (branchOf l h = .e1 ∧ half ≤ h ∧ half ≤ l) ∨
      (branchOf l h = .e3 ∧ half ≤ h ∧ l < half ∧ firstQuart ≤ l ∧ h < thirdQuart) ∨
      (branchOf l h = .done ∧ half ≤ h ∧ l < half ∧ (l < firstQuart ∨ thirdQuart ≤ h)) := by
  unfold branchOf
  split_ifs with h1 h2 h3 <;> simp <;> omega

theorem branchOf_done {l h : Nat} :
    branchOf l h = .done ↔ l < half ∧ half ≤ h ∧ (l < firstQuart ∨ thirdQuart ≤ h) := by
  rcases branchOf_cases l h with ⟨e, c⟩ | ⟨e, c⟩ | ⟨e, c⟩ | ⟨e, c⟩ <;> rw [e] <;> simp <;> omega

theorem State.wide_iff (s : State) : s.Wide ↔ branchOf s.l.toNat s.h.toNat = .done :=
  ⟨fun h => branchOf_done.mpr ⟨h.lowHalf, h.highHalf, h.notMiddle⟩,
    fun h => let ⟨a, b, c⟩ := branchOf_done.mp h; ⟨a, b, c⟩⟩

theorem State.shiftsBy_iff (s : State) (off : Nat) :
    s.ShiftsBy off ↔ branchOf s.l.toNat s.h.toNat ≠ .done ∧ off = (branchOf s.l.toNat s.h.toNat).offset := by
  unfold State.ShiftsBy
  rcases branchOf_cases s.l.toNat s.h.toNat with ⟨e, c⟩ | ⟨e, c⟩ | ⟨e, c⟩ | ⟨e, c⟩ <;> rw [e] <;>
    simp only [Branch.offset, ne_eq, reduceCtorEq, not_false_eq_true, true_and, not_true_eq_false, false_and, iff_false] <;>
    omega

/-- In the branch taken the offset is not above either bound (42_renormalizer R168). -/
theorem branchOf_offset_le (l h : Nat) : (branchOf l h).offset ≤ l ∧ (branchOf l h).offset ≤ h := by
  rcases branchOf_cases l h with ⟨e, c⟩ | ⟨e, c⟩ | ⟨e, c⟩ | ⟨e, c⟩ <;> rw [e] <;>
    simp only [Branch.offset, half, firstQuart, thirdQuart] at * <;> omega

/-- A shift keeps ordered bounds inside 32 bits (42_renormalizer R170). -/
theorem branchOf_shift_le {l h : Nat} (hb : branchOf l h ≠ .done) (hlh : l ≤ h) (hh : h ≤ top) :
    2 * (h - (branchOf l h).offset) + 1 ≤ top ∧
      2 * (l - (branchOf l h).offset) ≤ 2 * (h - (branchOf l h).offset) + 1 ∧ h - l + 1 ≤ 2 ^ 31 := by
  rcases branchOf_cases l h with ⟨e, c⟩ | ⟨e, c⟩ | ⟨e, c⟩ | ⟨e, c⟩
  · rw [e]; simp only [Branch.offset, half, top] at *; omega
  · rw [e]; simp only [Branch.offset, half, top] at *; omega
  · rw [e]; simp only [Branch.offset, half, firstQuart, thirdQuart, top] at *; omega
  · exact absurd e hb

/-- With crossed bounds only the half branches are taken (42_renormalizer R166). -/
theorem branchOf_crossed {l h : Nat} (hlh : h < l) :
    (branchOf l h = .e2 ∧ h < half) ∨ (branchOf l h = .e1 ∧ half ≤ h) := by
  rcases branchOf_cases l h with ⟨e, c⟩ | ⟨e, c⟩ | ⟨e, c⟩ | ⟨e, c⟩
  · exact .inl ⟨e, c⟩
  · exact .inr ⟨e, c.1⟩
  · omega
  · omega

theorem toNat_le_top (w : Word) : w.toNat ≤ top := by have := w.isLt; unfold top; omega

theorem toNat_ofNat_top {n : Nat} (h : n ≤ top) : (BitVec.ofNat 32 n).toNat = n := by
  rw [BitVec.toNat_ofNat]; unfold top at h; omega

/-! ### `BPF` -/

theorem bitsOf_ofBool (b : Bool) : bitsOf ((BitVec.ofBool b).setWidth 64) 1 = [b] := by cases b <;> rfl

theorem writeRepeated_ok (stage : Stage) (b : Bool) (k : Nat) (s : State) (h : s.NextTransfersSucceed k) :
    writeRepeated stage b k s =
      .done () { s with wrBits := s.wrBits ++ List.replicate k b, ioFails := s.ioFails.drop k } := by
  induction k generalizing s with
  | zero => simp [writeRepeated]
  | succ k ih =>
    rw [writeRepeated, bsWrite_ok (by decide) (by decide) h.first, Run.andThen_done, bitsOf_ofBool,
      ih _ (h.rest _ rfl)]
    simp [State.appendBits, State.afterTransfer, List.replicate_succ]

/-- `BPF b` writes the bit and the pending opposite bits, and clears their count (42_renormalizer R164). -/
theorem bitPlusFollow_ok (stage : Stage) (b : Bool) (s : State) (h : s.NextTransfersSucceed (s.bitsToFollow + 1)) :
    bitPlusFollow stage b s =
      .done () { s with
        wrBits := s.wrBits ++ b :: List.replicate s.bitsToFollow (!b)
        bitsToFollow := 0
        ioFails := s.ioFails.drop (s.bitsToFollow + 1) } := by
  have h1 : s.NextTransfersSucceed 1 := fun x hx => h x (by
    rw [show s.ioFails.take 1 = (s.ioFails.take (s.bitsToFollow + 1)).take 1 by simp [List.take_take]] at hx
    exact List.mem_of_mem_take hx)
  have hd : ∀ x ∈ (s.ioFails.drop 1).take s.bitsToFollow, x = false := by
    intro x hx
    have := h.rest { s with ioFails := s.ioFails.tail } rfl x
    simpa using this (by simpa using hx)
  have h2 := writeRepeated_ok stage (!b) s.bitsToFollow
    { s with wrBits := s.wrBits ++ List.replicate 1 b, ioFails := s.ioFails.drop 1 } hd
  rw [bitPlusFollow, writeRepeated_ok stage b 1 s h1, Run.andThen_done, h2, Run.andThen_done]
  simp

/-! ### One pass -/

/-- The bits a branch writes in direction `E` (42_renormalizer R165, 30_encoding R93). -/
def emitted (b : Branch) (pending : Nat) : Bits :=
  match b with
  | .e2 => false :: List.replicate pending true
  | .e1 => true :: List.replicate pending false
  | .e3 | .done => []

/-- The pending count after a branch in direction `E` (42_renormalizer R165). -/
def pendingAfter (b : Branch) (pending : Nat) : Nat :=
  match b with
  | .e2 | .e1 => 0
  | .e3 => pending + 1
  | .done => pending

/-- Each shift decides or defers one bit (20_memory R69). -/
theorem emitted_length (b : Branch) (hb : b ≠ .done) (pending : Nat) :
    (emitted b pending).length + pendingAfter b pending = pending + 1 := by
  cases b <;> simp [emitted, pendingAfter] at hb ⊢

theorem branchOutput_emit (b : Branch) (s : State) (h : s.NoTransferFails) :
    branchOutput .emit b s =
      .done () { s with
        wrBits := s.wrBits ++ emitted b s.bitsToFollow
        bitsToFollow := pendingAfter b s.bitsToFollow
        ioFails := s.ioFails.drop (emitted b s.bitsToFollow).length } := by
  cases b with
  | e2 => simp [branchOutput, bitPlusFollow_ok _ _ _ (h.next _), emitted, pendingAfter]
  | e1 => simp [branchOutput, bitPlusFollow_ok _ _ _ (h.next _), emitted, pendingAfter]
  | e3 => simp [branchOutput, emitted, pendingAfter]
  | done => simp [branchOutput, emitted, pendingAfter]

/-- The state after one pass of `RENORM E` that takes the branch `b`. -/
def State.emitPass (b : Branch) (s : State) : State :=
  { s with
    l := BitVec.ofNat 32 (2 * (s.l.toNat - b.offset))
    h := BitVec.ofNat 32 (2 * (s.h.toNat - b.offset) + 1)
    wrBits := s.wrBits ++ emitted b s.bitsToFollow
    bitsToFollow := pendingAfter b s.bitsToFollow
    ioFails := s.ioFails.drop (emitted b s.bitsToFollow).length }

theorem renormPass_emit {s : State} (h : s.NoTransferFails) (hlh : s.l.toNat ≤ s.h.toNat)
    (hb : branchOf s.l.toNat s.h.toNat ≠ .done) :
    renormPass .emit (branchOf s.l.toNat s.h.toNat) s =
      .done () (s.emitPass (branchOf s.l.toNat s.h.toNat)) := by
  have ho := branchOf_offset_le s.l.toNat s.h.toNat
  have hs := branchOf_shift_le hb hlh (toNat_le_top s.h)
  have hl2 := hs.2.1.trans hs.1
  rw [renormPass, branchOutput_emit _ _ h, Run.andThen_done, shiftStep,
    if_neg (by simp [consumes]; omega)]
  simp only [shiftInput, Run.andThen_done]
  rw [if_neg (by simp [consumes]; omega)]
  simp [State.emitPass, consumes]

/-- The state after one pass of `RENORM C` that takes the branch `b`. -/
def State.consumePass (b : Branch) (s : State) : State :=
  { s with
    l := BitVec.ofNat 32 (2 * (s.l.toNat - b.offset))
    h := BitVec.ofNat 32 (2 * (s.h.toNat - b.offset) + 1)
    value := BitVec.ofNat 32 (2 * (s.value.toNat - b.offset) + (s.remaining.headD false).toNat)
    rdPos := s.rdPos + 1
    ioFails := s.ioFails.tail }

theorem bsRead_one {s : State} (hf : s.transferFails = false) (hr : 1 ≤ s.remaining.length) (stage : Stage) :
    bsRead stage 1 s =
      .done (BitVec.ofNat 64 (s.remaining.headD false).toNat) { s.afterTransfer with rdPos := s.rdPos + 1 } := by
  rw [bsRead_ok (by decide) (by decide) hf hr]
  cases h : s.remaining with
  | nil => simp [h] at hr
  | cons b bs => simp [natOfBits]

/-- A pass of `RENORM C`, whatever the bounds and `value`: the underflow guard, the read, the check against `top`, in that
order (42_renormalizer R165, R167, R168, 60_exceptions R238). -/
theorem renormPass_consume_eq (s : State) :
    renormPass .consume (branchOf s.l.toNat s.h.toNat) s =
      let off := (branchOf s.l.toNat s.h.toNat).offset
      if s.value.toNat < off then .raised .intervalOverflow .renorm s
      else if s.transferFails then .raised .ioError .renorm (s.takeBits 1)
      else if s.rdBits.length ≤ s.rdPos then .raised .shortRead .renorm (s.takeBits 1)
      else if top < 2 * (s.l.toNat - off) ∨ top < 2 * (s.h.toNat - off) + 1 ∨
          top < 2 * (s.value.toNat - off) + (s.remaining.headD false).toNat then
        .raised .intervalOverflow .renorm { s.afterTransfer with rdPos := s.rdPos + 1 }
      else .done () (s.consumePass (branchOf s.l.toNat s.h.toNat)) := by
  have ho := branchOf_offset_le s.l.toNat s.h.toNat
  rw [renormPass, branchOutput, Run.andThen_done, shiftStep]
  dsimp only
  by_cases hg : s.value.toNat < (branchOf s.l.toNat s.h.toNat).offset
  · rw [if_pos (.inr (.inr ⟨rfl, hg⟩)), if_pos hg]
  rw [if_neg (by rintro (h | h | ⟨-, h⟩) <;> omega), if_neg hg]
  simp only [shiftInput]
  cases hf : s.transferFails with
  | true => rw [bsRead_fails (by decide) (by decide) hf]; rfl
  | false =>
    by_cases hr : s.rdBits.length ≤ s.rdPos
    · rw [bsRead_short (by decide) (by decide) hf (by rw [State.remaining_length]; omega)]
      simp [hr]
    · have hbit : (s.remaining.headD false).toNat ≤ 1 := Bool.toNat_le _
      have hw : (BitVec.ofNat 64 (s.remaining.headD false).toNat).toNat = (s.remaining.headD false).toNat := by
        rw [BitVec.toNat_ofNat]; omega
      rw [bsRead_one hf (by rw [State.remaining_length]; omega), Run.andThen_done]
      simp only [State.afterTransfer, hw]
      simp [State.consumePass, consumes, hr]

/-- With `value` inside the interval a pass of `RENORM C` raises nothing but the read's faults (42_renormalizer R171). -/
theorem renormPass_consume {s : State} (hv : s.ValueInside) (hb : branchOf s.l.toNat s.h.toNat ≠ .done) :
    renormPass .consume (branchOf s.l.toNat s.h.toNat) s =
      if s.transferFails then .raised .ioError .renorm (s.takeBits 1)
      else if s.rdBits.length ≤ s.rdPos then .raised .shortRead .renorm (s.takeBits 1)
      else .done () (s.consumePass (branchOf s.l.toNat s.h.toNat)) := by
  have ho := branchOf_offset_le s.l.toNat s.h.toNat
  have hs := branchOf_shift_le hb (hv.1.trans hv.2) (toNat_le_top s.h)
  have hbit : (s.remaining.headD false).toNat ≤ 1 := Bool.toNat_le _
  obtain ⟨hv1, hv2⟩ := hv
  rw [renormPass_consume_eq]
  dsimp only
  rw [if_neg (by omega), if_neg (c := _ ∨ _) (by omega)]

/-! ### The bounds a pass leaves, in either direction -/

theorem writeRepeated_all {P : State → Prop} (hP : ∀ s bits, P s → P (s.afterTransfer.appendBits bits))
    (stage : Stage) (b : Bool) (k : Nat) {s : State} (h : P s) : (writeRepeated stage b k s).All P := by
  induction k generalizing s with
  | zero => exact h
  | succ k ih =>
    refine Run.All.andThen (P := P) ?_ (fun _ s hs => ih hs) fun _ hs => hs
    cases hf : s.transferFails with
    | true => rw [bsWrite_fails (by decide) (by decide) hf]; exact hP _ _ h
    | false => rw [bsWrite_ok (by decide) (by decide) hf]; exact hP _ _ h

theorem bitPlusFollow_all {P : State → Prop} (hP : ∀ s bits, P s → P (s.afterTransfer.appendBits bits))
    (hB : ∀ s n, P s → P { s with bitsToFollow := n }) (stage : Stage) (b : Bool) {s : State} (h : P s) :
    (bitPlusFollow stage b s).All P := by
  refine Run.All.andThen (P := P) (writeRepeated_all hP _ _ _ h) (fun _ s hs => ?_) fun _ hs => hs
  exact Run.All.andThen (P := P) (writeRepeated_all hP _ _ _ hs) (fun _ s hs => hB _ _ hs) fun _ hs => hs

theorem branchOutput_all {P : State → Prop} (hP : ∀ s bits, P s → P (s.afterTransfer.appendBits bits))
    (hB : ∀ s n, P s → P { s with bitsToFollow := n }) (dir : Dir) (b : Branch) {s : State} (h : P s) :
    (branchOutput dir b s).All P := by
  cases dir with
  | consume => exact h
  | emit =>
    cases b with
    | e2 => exact bitPlusFollow_all hP hB _ _ h
    | e1 => exact bitPlusFollow_all hP hB _ _ h
    | e3 => exact hB _ _ h
    | done => exact h

theorem bsRead_all {P : State → Prop} (hR : ∀ s n, P s → P (s.takeBits n)) (stage : Stage)
    (n : Nat) {s : State} (h : P s) : (bsRead stage n s).All P := by
  unfold bsRead
  split_ifs with h1 h2 h3 h4
  · exact h
  · exact h
  · exact hR _ _ h
  · exact hR _ _ h
  · exact hR _ _ h

/-- What holds of the state after the shift's read holds of the state it leaves, for a property that the bounds, the
window, the transfers and the pending count do not touch. -/
structure Steady (P : State → Prop) : Prop where
  write : ∀ s bits, P s → P (s.afterTransfer.appendBits bits)
  pending : ∀ s n, P s → P { s with bitsToFollow := n }
  read : ∀ s n, P s → P (s.takeBits n)
  bounds : ∀ s l h v, P s → P { s with l := l, h := h, value := v }

theorem shiftStep_all {P : State → Prop} (hP : Steady P) (dir : Dir) (off : Nat) {s : State} (h : P s) :
    (shiftStep dir off s).All P := by
  rw [shiftStep]
  by_cases h1 : s.l.toNat < off ∨ s.h.toNat < off ∨ (consumes dir = true ∧ s.value.toNat < off)
  · rw [if_pos h1]; exact h
  · rw [if_neg h1]
    have hin : (shiftInput dir s).All P := by
      cases dir with
      | emit => exact h
      | consume => exact bsRead_all hP.read _ _ h
    refine Run.All.andThen (P := P) hin (fun bit s hs => ?_) fun _ hs => hs
    dsimp only
    split
    · exact hs
    · exact hP.bounds _ _ _ _ hs

theorem renormPass_all {P : State → Prop} (hP : Steady P) (dir : Dir) (b : Branch) {s : State} (h : P s) :
    (renormPass dir b s).All P :=
  Run.All.andThen (P := P) (branchOutput_all hP.write hP.pending dir b h) (fun _ _ hs => shiftStep_all hP dir _ hs)
    fun _ hs => hs

/-- A pass that goes through leaves the doubled bounds (42_renormalizer R165). -/
theorem renormPass_bounds {dir : Dir} {b : Branch} {s s' : State} (h : renormPass dir b s = .done () s') :
    s'.l.toNat = 2 * (s.l.toNat - b.offset) ∧ s'.h.toNat = 2 * (s.h.toNat - b.offset) + 1 ∧
      b.offset ≤ s.l.toNat ∧ b.offset ≤ s.h.toNat := by
  have hout : (branchOutput dir b s).All fun t => t.l = s.l ∧ t.h = s.h :=
    branchOutput_all (fun _ _ h => h) (fun _ _ h => h) dir b ⟨rfl, rfl⟩
  rw [renormPass] at h
  cases ho : branchOutput dir b s with
  | stopped f => simp [ho] at h
  | raised f g t => simp [ho] at h
  | done u t =>
    rw [ho] at hout h
    obtain ⟨hl, hh⟩ := hout
    rw [Run.andThen_done, shiftStep] at h
    by_cases h1 : t.l.toNat < b.offset ∨ t.h.toNat < b.offset ∨ (consumes dir = true ∧ t.value.toNat < b.offset)
    · rw [if_pos h1] at h; cases h
    rw [if_neg h1] at h
    have hin : (shiftInput dir t).All fun u => u.l = s.l ∧ u.h = s.h := by
      cases dir with
      | emit => exact ⟨hl, hh⟩
      | consume => exact bsRead_all (fun _ _ h => h) _ _ ⟨hl, hh⟩
    cases hi : shiftInput dir t with
    | stopped f => simp [hi] at h
    | raised f g t => simp [hi] at h
    | done bit u =>
      rw [hi] at hin h
      obtain ⟨hl', hh'⟩ := hin
      rw [Run.andThen_done] at h
      dsimp only at h
      split at h
      · cases h
      · next h2 =>
        injection h with _ h
        subst h
        rw [hl, hh] at h1
        rw [hl', hh'] at h2
        refine ⟨?_, ?_, by omega, by omega⟩
        · rw [hl']; exact toNat_ofNat_top (by omega)
        · rw [hh']; exact toNat_ofNat_top (by omega)

/-! ### The loop ends -/

theorem renormLoop_succ {dir : Dir} {n : Nat} {s : State} (hb : branchOf s.l.toNat s.h.toNat ≠ .done) :
    renormLoop dir (n + 1) s =
      (renormPass dir (branchOf s.l.toNat s.h.toNat) s).andThen fun _ s => renormLoop dir n s := by
  rw [renormLoop]
  cases h : branchOf s.l.toNat s.h.toNat <;> first | rfl | exact absurd h hb

theorem renormLoop_done {dir : Dir} {n : Nat} {s : State} (hb : branchOf s.l.toNat s.h.toNat = .done) :
    renormLoop dir (n + 1) s = .done () s := by rw [renormLoop, hb]

/-- From ordered bounds the fuel is enough when the width, doubled at each shift, would pass `2^31` (42_renormalizer
R169). -/
theorem renormLoop_ordered {P : State → Prop} (hP : Steady P) (dir : Dir) (n : Nat) {s : State} (h : P s)
    (hlh : s.l.toNat ≤ s.h.toNat) (hn : 2 ^ 32 < 2 ^ (n + 1) * (s.h.toNat - s.l.toNat + 1)) :
    (renormLoop dir (n + 1) s).All P := by
  induction n generalizing s with
  | zero =>
    by_cases hb : branchOf s.l.toNat s.h.toNat = .done
    · rw [renormLoop_done hb]; exact h
    · have := (branchOf_shift_le hb hlh (toNat_le_top s.h)).2.2
      omega
  | succ n ih =>
    by_cases hb : branchOf s.l.toNat s.h.toNat = .done
    · rw [renormLoop_done hb]; exact h
    · have hs := branchOf_shift_le hb hlh (toNat_le_top s.h)
      rw [renormLoop_succ hb]
      have hall := renormPass_all hP dir (branchOf s.l.toNat s.h.toNat) h
      cases hp : renormPass dir (branchOf s.l.toNat s.h.toNat) s with
      | stopped f => rw [hp] at hall; exact hall
      | raised f g t => rw [hp] at hall; exact hall
      | done u t =>
        rw [hp] at hall
        obtain ⟨hl, hh, ho1, ho2⟩ := renormPass_bounds hp
        refine ih hall (by omega) ?_
        rw [hl, hh, show 2 * (s.h.toNat - (branchOf s.l.toNat s.h.toNat).offset) + 1 -
          2 * (s.l.toNat - (branchOf s.l.toNat s.h.toNat).offset) + 1 = 2 * (s.h.toNat - s.l.toNat + 1) by omega]
        calc 2 ^ 32 < 2 ^ (n + 1 + 1) * (s.h.toNat - s.l.toNat + 1) := hn
          _ = 2 ^ (n + 1) * (2 * (s.h.toNat - s.l.toNat + 1)) := by rw [pow_succ]; ring

/-- From crossed bounds every pass that goes through puts one more zero at the end of `l`, which 32 bits cannot hold, so
the loop raises before its fuel is spent. -/
theorem renormLoop_crossed {P : State → Prop} (hP : Steady P) (dir : Dir) (n : Nat) {s : State} (h : P s)
    (hlh : s.h.toNat < s.l.toNat) (hd : 2 ^ (32 - n) ∣ s.l.toNat) (hn : n ≤ 32) :
    ∃ f g t, renormLoop dir (n + 1) s = .raised f g t ∧ P t := by
  induction n generalizing s with
  | zero =>
    have h1 := Nat.le_of_dvd (by omega) hd
    have h2 := s.l.isLt
    omega
  | succ n ih =>
    have hc := branchOf_crossed hlh
    have hb : branchOf s.l.toNat s.h.toNat ≠ .done := by
      rcases hc with h | h <;> rw [h.1] <;> decide
    have hall := renormPass_all hP dir (branchOf s.l.toNat s.h.toNat) h
    rw [renormLoop_succ hb]
    cases hp : renormPass dir (branchOf s.l.toNat s.h.toNat) s with
    | stopped f => rw [hp] at hall; exact hall.elim
    | raised f g t => rw [hp] at hall; exact ⟨f, g, t, rfl, hall⟩
    | done u t =>
      rw [hp] at hall
      obtain ⟨hl, hh, ho1, ho2⟩ := renormPass_bounds hp
      refine ih hall (by omega) ?_ (by omega)
      rw [hl, show 32 - n = 32 - (n + 1) + 1 by omega, pow_succ, mul_comm]
      refine Nat.mul_dvd_mul_left 2 (Nat.dvd_sub hd ?_)
      rcases hc with h | h <;> rw [h.1]
      · exact Nat.dvd_zero _
      · exact Nat.pow_dvd_pow 2 (show 32 - (n + 1) ≤ 31 by omega)

/-- `RENORM` ends in every state, and keeps what its transfers and its registers do not touch (42_renormalizer R169). -/
theorem renormalize_all {P : State → Prop} (hP : Steady P) (dir : Dir) {s : State} (h : P s) :
    (renormalize dir s).All P := by
  by_cases hlh : s.l.toNat ≤ s.h.toNat
  · exact renormLoop_ordered hP dir 32 h hlh (by omega)
  · obtain ⟨f, g, t, ht, hPt⟩ := renormLoop_crossed hP dir 32 h (by omega) (by simp) le_rfl
    rw [renormalize, renormFuel, ht]
    exact hPt

/-! ### `NARROW` -/

/-- Floor division of the exact product keeps a symbol inside the interval, and its bounds apart when the interval is at
least as wide as the total (42_renormalizer R170). -/
theorem scaled_bounds {lo hi denom delta : Nat} (hlo : lo < hi) (hhi : hi ≤ denom) (hd : denom ≤ delta) :
    lo * delta / denom + 1 ≤ hi * delta / denom ∧ hi * delta / denom ≤ delta := by
  have hpos : 0 < denom := by omega
  constructor
  · rw [Nat.le_div_iff_mul_le hpos, Nat.add_mul, Nat.one_mul]
    have h1 := Nat.div_mul_le_self (lo * delta) denom
    have h2 : lo * delta + delta ≤ hi * delta := by
      rw [← Nat.succ_mul]; exact Nat.mul_le_mul_right _ hlo
    omega
  · exact Nat.div_le_of_le_mul (Nat.mul_le_mul_right _ hhi)

/-- `NARROW v` in a table that meets its invariants: the formulas of 42_renormalizer R161, without wrap, wherever the
formula of `h` does not go below zero. -/
theorem State.narrowed_values {s : State} (ht : s.table.Valid s.cfg) (hlh : s.l.toNat ≤ s.h.toNat) (v : Sym)
    (h1 : 1 ≤ s.l.toNat + s.scaled (s.table.iv (highIndex v))) :
    (s.narrowedL v).toNat = s.l.toNat + s.scaled (s.table.iv (lowIndex v)) ∧
      (s.narrowedH v).toNat + 1 = s.l.toNat + s.scaled (s.table.iv (highIndex v)) := by
  have hs := ht.symbol v
  have htop := toNat_le_top s.h
  have hpos : 0 < s.denom := by unfold State.denom; omega
  have hdelta : s.delta = s.h.toNat - s.l.toNat + 1 := rfl
  have hlow : s.scaled (s.table.iv (lowIndex v)) < s.delta := by
    rw [State.scaled, Nat.div_lt_iff_lt_mul hpos, mul_comm s.delta]
    exact Nat.mul_lt_mul_of_pos_right (hs.1.trans_le hs.2) (by omega)
  have hhigh : s.scaled (s.table.iv (highIndex v)) ≤ s.delta :=
    Nat.div_le_of_le_mul (Nat.mul_le_mul_right _ hs.2)
  constructor
  · unfold State.narrowedL
    dsimp only
    rw [if_pos ⟨by omega, by omega⟩, toNat_ofNat_top (by omega)]
  · unfold State.narrowedH
    dsimp only
    rw [if_pos ⟨by omega, by omega, by omega⟩, toNat_ofNat_top (by omega)]
    omega

/-- The same in an interval at least as wide as the total: the new interval lies inside the old and is not empty
(42_renormalizer R170). -/
theorem State.narrowed {s : State} (ht : s.table.Valid s.cfg) (hlh : s.l.toNat ≤ s.h.toNat)
    (hd : s.denom ≤ s.delta) (v : Sym) :
    (s.narrowedL v).toNat = s.l.toNat + s.scaled (s.table.iv (lowIndex v)) ∧
      (s.narrowedH v).toNat + 1 = s.l.toNat + s.scaled (s.table.iv (highIndex v)) ∧
      (s.narrowedL v).toNat ≤ (s.narrowedH v).toNat ∧ (s.narrowedH v).toNat ≤ s.h.toNat := by
  have hs := ht.symbol v
  have hb := scaled_bounds hs.1 hs.2 hd
  have hdelta : s.delta = s.h.toNat - s.l.toNat + 1 := rfl
  have e1 : s.scaled (s.table.iv (lowIndex v)) = s.table.iv (lowIndex v) * s.delta / s.table.iv denomIndex := rfl
  have e2 : s.scaled (s.table.iv (highIndex v)) = s.table.iv (highIndex v) * s.delta / s.table.iv denomIndex := rfl
  have hv := State.narrowed_values ht hlh v (by omega)
  exact ⟨hv.1, hv.2, by omega, by omega⟩

end Sys2Proof.Machine
end

