-- ==== Sys2Proof/Laws/Loop.lean ====
section
/-! SUPPORT. The whole loop of `RENORM`: what it leaves when the transfers succeed, what it can raise, and what
it leaves when it goes through. -/

namespace Sys2Proof.Machine

/-- The width of the working interval. -/
def State.width (s : State) : Nat := s.h.toNat - s.l.toNat + 1

/-- What a run of `RENORM E` with `k` shifts that wrote `bits` leaves. -/
structure EmitRun (s t : State) (k : Nat) (bits : Bits) : Prop where
  frame : t = { s with
    l := t.l, h := t.h, bitsToFollow := t.bitsToFollow
    wrBits := s.wrBits ++ bits, ioFails := s.ioFails.drop bits.length }
  wide : t.Wide
  width : t.width = 2 ^ k * s.width
  count : bits.length + t.bitsToFollow = s.bitsToFollow + k

/-- What a run of `RENORM C` with `k` shifts leaves. -/
structure ConsumeRun (s t : State) (k : Nat) : Prop where
  frame : t = { s with
    l := t.l, h := t.h, value := t.value, rdPos := s.rdPos + k, ioFails := s.ioFails.drop k }
  wide : t.Wide
  inside : t.ValueInside
  width : t.width = 2 ^ k * s.width

/-- The bounds after the pass that takes the branch of `s`. -/
theorem passBounds {s : State} (hlh : s.l.toNat ≤ s.h.toNat) (hb : branchOf s.l.toNat s.h.toNat ≠ .done) :
    (BitVec.ofNat 32 (2 * (s.l.toNat - (branchOf s.l.toNat s.h.toNat).offset))).toNat =
        2 * (s.l.toNat - (branchOf s.l.toNat s.h.toNat).offset) ∧
      (BitVec.ofNat 32 (2 * (s.h.toNat - (branchOf s.l.toNat s.h.toNat).offset) + 1)).toNat =
        2 * (s.h.toNat - (branchOf s.l.toNat s.h.toNat).offset) + 1 := by
  have hs := branchOf_shift_le hb hlh (toNat_le_top s.h)
  exact ⟨toNat_ofNat_top (hs.2.1.trans hs.1), toNat_ofNat_top hs.1⟩

theorem State.emitPass_bounds {s : State} (hlh : s.l.toNat ≤ s.h.toNat) (hb : branchOf s.l.toNat s.h.toNat ≠ .done) :
    (s.emitPass (branchOf s.l.toNat s.h.toNat)).l.toNat ≤ (s.emitPass (branchOf s.l.toNat s.h.toNat)).h.toNat ∧
      (s.emitPass (branchOf s.l.toNat s.h.toNat)).width = 2 * s.width := by
  have hp := passBounds hlh hb
  have ho := branchOf_offset_le s.l.toNat s.h.toNat
  simp only [State.width, State.emitPass, hp.1, hp.2]
  omega

theorem State.consumePass_bounds {s : State} (hv : s.ValueInside) (hb : branchOf s.l.toNat s.h.toNat ≠ .done) :
    (s.consumePass (branchOf s.l.toNat s.h.toNat)).ValueInside ∧
      (s.consumePass (branchOf s.l.toNat s.h.toNat)).width = 2 * s.width := by
  have hlh := hv.1.trans hv.2
  have hp := passBounds hlh hb
  have ho := branchOf_offset_le s.l.toNat s.h.toNat
  have hs := branchOf_shift_le hb hlh (toNat_le_top s.h)
  obtain ⟨hv1, hv2⟩ := hv
  have hbit : (s.remaining.headD false).toNat ≤ 1 := Bool.toNat_le _
  have hval : (s.consumePass (branchOf s.l.toNat s.h.toNat)).value.toNat =
      2 * (s.value.toNat - (branchOf s.l.toNat s.h.toNat).offset) + (s.remaining.headD false).toNat :=
    toNat_ofNat_top (by omega)
  simp only [State.ValueInside, hval]
  simp only [State.width, State.consumePass, hp.1, hp.2]
  omega

/-- `RENORM E` from ordered bounds when no transfer fails (42_renormalizer R165, R169). -/
theorem renormLoop_emit (n : Nat) {s : State} (hf : s.NoTransferFails) (hlh : s.l.toNat ≤ s.h.toNat)
    (hn : 2 ^ 32 < 2 ^ (n + 1) * s.width) :
    ∃ t k bits, renormLoop .emit (n + 1) s = .done () t ∧ EmitRun s t k bits ∧ k ≤ n := by
  induction n generalizing s with
  | zero =>
    by_cases hb : branchOf s.l.toNat s.h.toNat = .done
    · exact ⟨s, 0, [], renormLoop_done hb, ⟨by simp, s.wide_iff.mpr hb, by simp, by simp⟩, le_rfl⟩
    · have := (branchOf_shift_le hb hlh (toNat_le_top s.h)).2.2
      unfold State.width at hn
      omega
  | succ n ih =>
    by_cases hb : branchOf s.l.toNat s.h.toNat = .done
    · exact ⟨s, 0, [], renormLoop_done hb, ⟨by simp, s.wide_iff.mpr hb, by simp, by simp⟩, Nat.zero_le _⟩
    · have hp := State.emitPass_bounds hlh hb
      obtain ⟨t, k, bits, ht, hrun, hk⟩ := ih (s := s.emitPass (branchOf s.l.toNat s.h.toNat))
        (hf.of_drop rfl) hp.1 (by rw [hp.2]; rw [pow_succ 2 (n + 1)] at hn; linarith)
      refine ⟨t, k + 1, emitted (branchOf s.l.toNat s.h.toNat) s.bitsToFollow ++ bits, ?_, ?_, by omega⟩
      · rw [renormLoop_succ hb, renormPass_emit hf hlh hb, Run.andThen_done, ht]
      · refine ⟨?_, hrun.wide, ?_, ?_⟩
        · rw [hrun.frame]
          simp [State.emitPass, List.append_assoc]
        · rw [hrun.width, hp.2, pow_succ]; ring
        · have h1 := hrun.count
          have h2 := emitted_length _ hb s.bitsToFollow
          rw [List.length_append]
          simp only [State.emitPass] at h1
          omega

/-- `RENORM C` from a window inside the interval when no transfer fails and the bits suffice (42_renormalizer R165,
R169, R171). -/
theorem renormLoop_consume (n : Nat) {s : State} (hf : s.NoTransferFails) (hv : s.ValueInside)
    (hr : s.rdPos + n ≤ s.rdBits.length) (hn : 2 ^ 32 < 2 ^ (n + 1) * s.width) :
    ∃ t k, renormLoop .consume (n + 1) s = .done () t ∧ ConsumeRun s t k ∧ k ≤ n := by
  induction n generalizing s with
  | zero =>
    by_cases hb : branchOf s.l.toNat s.h.toNat = .done
    · exact ⟨s, 0, renormLoop_done hb, ⟨by simp, s.wide_iff.mpr hb, hv, by simp⟩, le_rfl⟩
    · have := (branchOf_shift_le hb (hv.1.trans hv.2) (toNat_le_top s.h)).2.2
      unfold State.width at hn
      omega
  | succ n ih =>
    by_cases hb : branchOf s.l.toNat s.h.toNat = .done
    · exact ⟨s, 0, renormLoop_done hb, ⟨by simp, s.wide_iff.mpr hb, hv, by simp⟩, Nat.zero_le _⟩
    · have hp := State.consumePass_bounds hv hb
      obtain ⟨t, k, ht, hrun, hk⟩ := ih (s := s.consumePass (branchOf s.l.toNat s.h.toNat))
        (hf.of_drop (k := 1) (by simp [State.consumePass])) hp.1 (by simp only [State.consumePass]; omega)
        (by rw [hp.2]; rw [pow_succ 2 (n + 1)] at hn; linarith)
      refine ⟨t, k + 1, ?_, ?_, by omega⟩
      · rw [renormLoop_succ hb, renormPass_consume hv hb, hf.transferFails, if_neg (by decide), if_neg (by omega),
          Run.andThen_done, ht]
      · refine ⟨?_, hrun.wide, hrun.inside, ?_⟩
        · rw [hrun.frame]
          simp [State.consumePass, Nat.add_comm, Nat.add_left_comm]
        · rw [hrun.width, hp.2, pow_succ]; ring

theorem renormalize_emit {s : State} (hf : s.NoTransferFails) (hlh : s.l.toNat ≤ s.h.toNat) :
    ∃ t k bits, renormalize .emit s = .done () t ∧ EmitRun s t k bits ∧ k ≤ 32 :=
  renormLoop_emit 32 hf hlh (by unfold State.width; omega)

theorem renormalize_consume {s : State} (hf : s.NoTransferFails) (hv : s.ValueInside)
    (hr : s.rdPos + 32 ≤ s.rdBits.length) :
    ∃ t k, renormalize .consume s = .done () t ∧ ConsumeRun s t k ∧ k ≤ 32 :=
  renormLoop_consume 32 hf hv hr (by unfold State.width; omega)

/-! ### More fuel changes nothing -/

/-- A loop that did not run out of fuel does the same with more. -/
theorem renormLoop_mono (dir : Dir) (n : Nat) {s : State} (h : (renormLoop dir n s).All fun _ => True) :
    renormLoop dir (n + 1) s = renormLoop dir n s := by
  induction n generalizing s with
  | zero => exact h.elim
  | succ n ih =>
    by_cases hb : branchOf s.l.toNat s.h.toNat = .done
    · rw [renormLoop_done hb, renormLoop_done hb]
    · rw [renormLoop_succ hb] at h ⊢
      rw [renormLoop_succ hb]
      cases hp : renormPass dir (branchOf s.l.toNat s.h.toNat) s with
      | stopped f => rfl
      | raised f g t => rfl
      | done u t => rw [hp] at h; exact ih h

theorem steady_true : Steady fun _ => True :=
  ⟨fun _ _ _ => trivial, fun _ _ _ => trivial, fun _ _ _ => trivial, fun _ _ _ _ _ => trivial⟩

/-- The loop, one pass at a time: `RENORM` is its pass and then `RENORM` again, while a condition holds
(42_renormalizer R165). -/
theorem renormalize_pass {dir : Dir} {s t : State} (hb : branchOf s.l.toNat s.h.toNat ≠ .done)
    (hp : renormPass dir (branchOf s.l.toNat s.h.toNat) s = .done () t) :
    renormalize dir s = renormalize dir t := by
  have h1 : renormalize dir s = renormLoop dir 32 t := by
    rw [renormalize, renormFuel, renormLoop_succ hb, hp, Run.andThen_done]
  have h2 : (renormLoop dir 32 t).All fun _ => True := by
    rw [← h1]; exact renormalize_all steady_true dir trivial
  rw [h1, renormalize, renormFuel, renormLoop_mono dir 32 h2]

theorem renormalize_wide {dir : Dir} {s : State} (hb : s.Wide) : renormalize dir s = .done () s :=
  renormLoop_done (s.wide_iff.mp hb)

/-! ### What can be raised -/

/-- Every fault a stretch of pseudocode can raise is one of `C`. -/
def Run.Raises {α : Type} (C : FaultCode → Stage → Prop) : Run α → Prop
  | .done _ _ => True
  | .raised f g _ => C f g
  | .stopped _ => True

theorem Run.Raises.andThen {α β : Type} {C : FaultCode → Stage → Prop} {r : Run α} {k : α → State → Run β}
    (hr : r.Raises C) (hk : ∀ a s, r = .done a s → (k a s).Raises C) : (r.andThen k).Raises C := by
  cases r with
  | done a s => exact hk a s rfl
  | raised f g s => exact hr
  | stopped f => trivial

theorem Run.Raises.imp {α : Type} {C D : FaultCode → Stage → Prop} {r : Run α} (hr : r.Raises C)
    (h : ∀ f g, C f g → D f g) : r.Raises D := by
  cases r with
  | done a s => trivial
  | raised f g s => exact h f g hr
  | stopped f => trivial

theorem writeRepeated_raises (stage : Stage) (b : Bool) (k : Nat) (s : State) :
    (writeRepeated stage b k s).Raises fun f g => f = .ioError ∧ g = stage := by
  induction k generalizing s with
  | zero => trivial
  | succ k ih =>
    refine Run.Raises.andThen ?_ fun _ t _ => ih t
    cases hf : s.transferFails with
    | true => rw [bsWrite_fails (by decide) (by decide) hf]; exact ⟨rfl, rfl⟩
    | false => rw [bsWrite_ok (by decide) (by decide) hf]; trivial

theorem bitPlusFollow_raises (stage : Stage) (b : Bool) (s : State) :
    (bitPlusFollow stage b s).Raises fun f g => f = .ioError ∧ g = stage :=
  (writeRepeated_raises stage b 1 s).andThen fun _ t _ => (writeRepeated_raises stage (!b) t.bitsToFollow t).andThen
    fun _ _ _ => trivial

theorem branchOutput_raises (dir : Dir) (b : Branch) (s : State) :
    (branchOutput dir b s).Raises fun f g => f = .ioError ∧ g = .renorm := by
  cases dir with
  | consume => trivial
  | emit =>
    cases b with
    | e2 => exact bitPlusFollow_raises _ _ _
    | e1 => exact bitPlusFollow_raises _ _ _
    | e3 => trivial
    | done => trivial

/-- From ordered bounds a pass of `RENORM E` raises nothing but the writes' `IO_ERROR` (42_renormalizer R170). -/
theorem renormPass_emit_raises {s : State} (hlh : s.l.toNat ≤ s.h.toNat)
    (hb : branchOf s.l.toNat s.h.toNat ≠ .done) :
    (renormPass .emit (branchOf s.l.toNat s.h.toNat) s).Raises fun f g => f = .ioError ∧ g = .renorm := by
  have ho := branchOf_offset_le s.l.toNat s.h.toNat
  have hs := branchOf_shift_le hb hlh (toNat_le_top s.h)
  have hall : (branchOutput .emit (branchOf s.l.toNat s.h.toNat) s).All fun t => t.l = s.l ∧ t.h = s.h :=
    branchOutput_all (fun _ _ h => h) (fun _ _ h => h) _ _ ⟨rfl, rfl⟩
  refine (branchOutput_raises .emit _ s).andThen fun u t ht => ?_
  rw [ht] at hall
  obtain ⟨hl, hh⟩ := hall
  rw [shiftStep, hl, hh, if_neg (by rintro (h | h | ⟨h, -⟩) <;> first | omega | cases h)]
  simp only [shiftInput, Run.andThen_done, hl, hh]
  rw [if_neg (by rintro (h | h | ⟨h, -⟩) <;> first | omega | cases h)]
  trivial

theorem renormLoop_emit_raises (n : Nat) {s : State} (hlh : s.l.toNat ≤ s.h.toNat) :
    (renormLoop .emit n s).Raises fun f g => f = .ioError ∧ g = .renorm := by
  induction n generalizing s with
  | zero => trivial
  | succ n ih =>
    by_cases hb : branchOf s.l.toNat s.h.toNat = .done
    · rw [renormLoop_done hb]; trivial
    · rw [renormLoop_succ hb]
      refine (renormPass_emit_raises hlh hb).andThen fun _ t ht => ih ?_
      have := renormPass_bounds ht
      omega

/-- From a window inside the interval `RENORM C` raises nothing but the read's faults (42_renormalizer R171). -/
theorem renormLoop_consume_raises (n : Nat) {s : State} (hv : s.ValueInside) :
    (renormLoop .consume n s).Raises fun f g => (f = .shortRead ∨ f = .ioError) ∧ g = .renorm := by
  induction n generalizing s with
  | zero => trivial
  | succ n ih =>
    by_cases hb : branchOf s.l.toNat s.h.toNat = .done
    · rw [renormLoop_done hb]; trivial
    · rw [renormLoop_succ hb, renormPass_consume hv hb]
      split_ifs
      · exact ⟨.inr rfl, rfl⟩
      · exact ⟨.inl rfl, rfl⟩
      · exact ih (State.consumePass_bounds hv hb).1

/-- What `RENORM` leaves when it goes through, whatever the transfers did. -/
theorem renormLoop_done_wide {dir : Dir} (n : Nat) {s t : State} (h : renormLoop dir n s = .done () t) : t.Wide := by
  induction n generalizing s with
  | zero => cases h
  | succ n ih =>
    by_cases hb : branchOf s.l.toNat s.h.toNat = .done
    · rw [renormLoop_done hb] at h
      injection h with _ h
      subst h
      exact (State.wide_iff _).mpr hb
    · rw [renormLoop_succ hb] at h
      cases hp : renormPass dir (branchOf s.l.toNat s.h.toNat) s with
      | stopped f => simp [hp] at h
      | raised f g u => simp [hp] at h
      | done u v => rw [hp] at h; exact ih h

theorem renormLoop_consume_inside (n : Nat) {s t : State} (hv : s.ValueInside)
    (h : renormLoop .consume n s = .done () t) : t.ValueInside := by
  induction n generalizing s with
  | zero => cases h
  | succ n ih =>
    by_cases hb : branchOf s.l.toNat s.h.toNat = .done
    · rw [renormLoop_done hb] at h
      cases h
      exact hv
    · rw [renormLoop_succ hb, renormPass_consume hv hb] at h
      split_ifs at h
      · cases h
      · cases h
      · exact ih (State.consumePass_bounds hv hb).1 h

end Sys2Proof.Machine
end

