-- ==== Sys2Proof/Laws/Commands.lean ====
section
/-! SUPPORT. Everything an operation can do, once: its pseudocode as a run, what every run leaves alone, the mode it ends
in, the faults it can raise. -/

namespace Sys2Proof.Machine

open Host (Outcome)

/-- Every operation ends as its pseudocode does, but for the refusal of a host command in `FAULT`. -/
theorem exec_eq (i : Instr) (s : State) :
    exec i s =
      if i.isHost = true ∧ i ≠ .abort ∧ s.mode = .fault then .next (s.refuse (some 0)) else finish s (body i s) := by
  cases i <;> simp only [Instr.isHost, Bool.false_eq_true, false_and, true_and, if_false, ne_eq, not_true_eq_false] <;>
    first | rfl | exact if_congr (by simp) rfl rfl

/-! ### What every run leaves alone -/

/-- What a stretch of pseudocode of a command that began at `s` has done at `t`, whatever the operation: the streams have
only advanced, the sink is still a front of the packed bits, the inputs and the configuration stand. -/
structure Advances (s t : State) : Prop where
  cfg : t.cfg = s.cfg
  rdBits : t.rdBits = s.rdBits
  inbox : t.inbox = s.inbox
  tick : t.tick = s.tick
  bits : s.wrBits <+: t.wrBits
  sink : s.sink <+: pack s.wrBits → t.sink <+: pack t.wrBits
  position : s.rdPos ≤ t.rdPos
  positionEnd : s.rdPos ≤ s.rdBits.length → t.rdPos ≤ s.rdBits.length
  table : s.table.Fits s.cfg → t.table.Fits s.cfg

theorem Advances.refl (s : State) : Advances s s :=
  ⟨rfl, rfl, rfl, rfl, List.prefix_rfl, id, le_rfl, id, id⟩

theorem Advances.steady (s : State) : Steady (Advances s) where
  write t bits h :=
    { h with
      bits := h.bits.trans (List.prefix_append _ _)
      sink := fun hs => (h.sink hs).trans (pack_prefix _ _) }
  pending t n h := { h with }
  read t n h :=
    { h with
      position := h.position.trans (Nat.le_add_right _ _)
      positionEnd := fun hs => by
        have := h.positionEnd hs
        have hr := congrArg List.length h.rdBits
        rw [State.takeBits_rdPos, State.remaining_length]
        omega }
  bounds t l h v ht := { ht with }

theorem Advances.newTable {s t : State} (h : Advances s t) : Advances s t.newTable :=
  { h with table := fun _ => (Table.fresh_valid s.cfg).fits }

theorem Advances.updateTable {s t : State} (h : Advances s t) (v : Sym) : Advances s (t.updateTable v) :=
  { h with table := fun hs => by rw [← h.cfg]; exact ((h.cfg ▸ h.table hs : t.table.Fits t.cfg)).update t.tick v }

theorem Advances.forgetRun {s t : State} (h : Advances s t) : Advances s t.forgetRun :=
  { h with table := fun _ => h.cfg ▸ Table.fits_forgetRun t }

/-- Changes that a stretch of pseudocode makes beside its streams and its table. -/
theorem Advances.registers {s t : State} (h : Advances s t) (l' h' v' : Word) (b : Nat) (n i : Count) (m : Mode) :
    Advances s { t with l := l', h := h', value := v', bitsToFollow := b, nTotal := n, symIdx := i, mode := m } :=
  { h with }

theorem bsWrite_all {P : State → Prop} (hP : Steady P) (stage : Stage) (v : Count) (n : Nat) {s : State} (h : P s) :
    (bsWrite stage v n s).All P := by
  unfold bsWrite
  split_ifs
  · exact h
  · exact h
  · exact hP.write _ _ h
  · exact hP.write _ _ h

theorem bsFlush_advances {s t : State} (h : Advances s t) (stage : Stage) : (bsFlush stage t).All (Advances s) := by
  have hw := (Advances.steady s).write t (List.replicate (padLength t.wrBits.length) padBit) h
  unfold bsFlush
  dsimp only
  split_ifs
  · exact hw
  · exact { hw with sink := fun _ => List.prefix_rfl }

theorem narrowInterval_all {P : State → Prop} (hP : Steady P) (v : Sym) {s : State} (h : P s) :
    (narrowInterval v s).All P := by
  unfold narrowInterval
  split_ifs
  · exact h
  · exact hP.bounds _ _ _ _ h

theorem tableIntervalEnd_all {P : State → Prop} (stage : Stage) (idx : Nat) {s : State} (h : P s) :
    (tableIntervalEnd stage idx s).All P := by
  unfold tableIntervalEnd; split_ifs <;> exact h

theorem tableSymbolFor_all {P : State → Prop} (stage : Stage) (p : Nat) {s : State} (h : P s) :
    (tableSymbolFor stage p s).All P := by
  unfold tableSymbolFor
  split_ifs
  · exact h
  · split <;> exact h

theorem searchSymbol_all {P : State → Prop} {s : State} (h : P s) : (searchSymbol s).All P := by
  unfold searchSymbol
  split_ifs
  · exact h
  · exact tableSymbolFor_all _ _ h

theorem Run.All.then {α β : Type} {P : State → Prop} {r : Run α} {k : α → State → Run β} (hr : r.All P)
    (hk : ∀ a s, P s → (k a s).All P) : (r.andThen k).All P :=
  hr.andThen hk fun _ hs => hs

/-- Whatever the operation, its pseudocode ends, and has only advanced the streams. -/
theorem body_advances (i : Instr) (s : State) : (body i s).All (Advances s) := by
  have hS := Advances.steady s
  have h0 := Advances.refl s
  cases i with
  | encBegin n =>
    rw [body, encBeginBody]
    split_ifs
    · exact h0
    · exact (bsWrite_all hS _ _ _ ((h0.newTable).registers _ _ s.value _ _ _ _)).then fun _ _ h => h
  | encSym v =>
    rw [body, encSymBody]
    split_ifs
    · exact h0
    · exact h0
    · exact (narrowInterval_all hS v h0).then fun _ _ h => (renormalize_all hS _ h).then fun _ t h =>
        (h.updateTable v).registers _ _ (t.updateTable v).value _ (t.updateTable v).nTotal _ (t.updateTable v).mode
  | encEnd =>
    rw [body, encEndBody]
    split_ifs
    · exact h0
    · exact h0
    · exact (bitPlusFollow_all hS.write hS.pending _ _ (hS.pending _ _ h0)).then fun _ _ h =>
        (bsWrite_all hS _ _ _ h).then fun _ _ h => (bsFlush_advances h _).then fun _ t h =>
          h.forgetRun.registers t.forgetRun.l t.forgetRun.h t.forgetRun.value t.forgetRun.bitsToFollow
            t.forgetRun.nTotal t.forgetRun.symIdx _
  | decBegin =>
    rw [body, decBeginBody]
    split_ifs
    · exact h0
    · exact (bsRead_all hS.read _ _ ((h0.newTable).registers _ _ s.value s.bitsToFollow s.nTotal _ _)).then
        fun n t h => (bsRead_all hS.read _ _
          (h.registers t.l t.h t.value t.bitsToFollow n t.symIdx t.mode)).then fun w t h =>
            hS.bounds _ t.l t.h _ h
  | decSym =>
    rw [body, decSymBody]
    split_ifs
    · exact h0
    · exact h0
    · exact (searchSymbol_all h0).then fun v _ h => (narrowInterval_all hS v h).then fun _ _ h =>
        (renormalize_all hS _ h).then fun _ t h =>
          (h.updateTable v).registers _ _ (t.updateTable v).value _ (t.updateTable v).nTotal _ (t.updateTable v).mode
  | decEnd =>
    rw [body, decEndBody]
    split_ifs
    · exact h0
    · exact h0
    · exact h0.forgetRun.registers s.forgetRun.l s.forgetRun.h s.forgetRun.value s.forgetRun.bitsToFollow
        s.forgetRun.nTotal s.forgetRun.symIdx _
  | abort =>
    rw [body, abortBody, Run.all_done]
    split_ifs
    · exact { h0 with }
    · exact { h0.forgetRun with }
  | tNew => exact h0.newTable
  | tIend idx => exact (tableIntervalEnd_all _ _ h0).then fun _ _ h => h
  | tSym p => exact (tableSymbolFor_all _ _ h0).then fun _ _ h => h
  | tUpd v => exact h0.updateTable v
  | narrow v => exact (narrowInterval_all hS v h0).then fun _ _ h => h
  | renorm dir => exact (renormalize_all hS dir h0).then fun _ _ h => h
  | bpf b => exact (bitPlusFollow_all hS.write hS.pending _ _ h0).then fun _ _ h => h
  | writebits v n => exact (bsWrite_all hS _ _ _ h0).then fun _ _ h => h
  | readbits n => exact (bsRead_all hS.read _ _ h0).then fun _ _ h => h
  | flush => exact (bsFlush_advances h0 _).then fun _ _ h => h

/-! ### Where an operation is cut off -/

/-- What holds of the state at which a stretch of pseudocode raises. -/
def Run.Cut {α : Type} (P : State → Prop) : Run α → Prop
  | .done _ _ => True
  | .raised _ _ s => P s
  | .stopped _ => True

theorem Run.Cut.andThen {α β : Type} {P : State → Prop} {r : Run α} {k : α → State → Run β} (hr : r.Cut P)
    (hk : ∀ a s, r = .done a s → (k a s).Cut P) : (r.andThen k).Cut P := by
  cases r with
  | done a s => exact hk a s rfl
  | raised f g s => exact hr
  | stopped f => trivial

theorem Run.All.thenCut {α β : Type} {P : State → Prop} {r : Run α} {k : α → State → Run β} (hr : r.All P)
    (hk : ∀ a s, P s → (k a s).Cut P) : (r.andThen k).Cut P := by
  cases r with
  | done a s => exact hk a s hr
  | raised f g s => exact hr
  | stopped f => trivial

theorem Run.All.cut {α : Type} {P : State → Prop} {r : Run α} (h : r.All P) : r.Cut P := by
  cases r with
  | done a s => trivial
  | raised f g s => exact h
  | stopped f => trivial

/-- What a fault record is made of, and the sink, stand at these values. -/
def Stands (m : Mode) (f : FaultRecord) (n : Count) (k : List Byte) (t : State) : Prop :=
  t.mode = m ∧ t.fault = f ∧ t.symIdx = n ∧ t.sink = k

theorem Stands.steady (m : Mode) (f : FaultRecord) (n : Count) (k : List Byte) : Steady (Stands m f n k) :=
  ⟨fun _ _ h => h, fun _ _ h => h, fun _ _ h => h, fun _ _ _ _ h => h⟩

theorem bsFlush_cut {m : Mode} {f : FaultRecord} {n : Count} {k : List Byte} {s : State} (h : Stands m f n k s)
    (stage : Stage) : (bsFlush stage s).Cut (Stands m f n k) := by
  unfold bsFlush
  dsimp only
  split_ifs
  · exact h
  · trivial

/-- Where an operation is cut off the record it leaves is that of its start, and nothing has reached the sink. -/
theorem body_cut {i : Instr} {s t : State} {f : FaultCode} {g : Stage} (h : body i s = .raised f g t) :
    (∀ f g, t.faultRecordOf f g = s.faultRecordOf f g) ∧ t.sink = s.sink := by
  have hS := Stands.steady s.mode s.fault s.symIdx s.sink
  have h0 : Stands s.mode s.fault s.symIdx s.sink s := ⟨rfl, rfl, rfl, rfl⟩
  suffices hc : (body i s).Cut (fun t => (∀ f g, t.faultRecordOf f g = s.faultRecordOf f g) ∧ t.sink = s.sink) by
    rw [h] at hc; exact hc
  have himp : ∀ {r : Run (Option Count)}, r.Cut (Stands s.mode s.fault s.symIdx s.sink) →
      r.Cut fun t => (∀ f g, t.faultRecordOf f g = s.faultRecordOf f g) ∧ t.sink = s.sink := by
    intro r hr
    cases r with
    | done a u => trivial
    | raised f g u =>
      refine ⟨fun f g => ?_, hr.2.2.2⟩
      rw [State.faultRecordOf, State.faultRecordOf, hr.1, hr.2.1, hr.2.2.1]
    | stopped f => trivial
  have hbegin : ∀ {r : Run (Option Count)} (m : Mode), s.mode = .idle → m = .enc ∨ m = .dec →
      r.Cut (Stands m s.fault 0 s.sink) →
      r.Cut fun t => (∀ f g, t.faultRecordOf f g = s.faultRecordOf f g) ∧ t.sink = s.sink := by
    intro r m hi hm hr
    cases r with
    | done a u => trivial
    | raised f g u =>
      refine ⟨fun f g => ?_, hr.2.2.2⟩
      rw [State.faultRecordOf, State.faultRecordOf, hr.1, hr.2.2.1, hi]
      rcases hm with rfl | rfl <;> rfl
    | stopped f => trivial
  cases i with
  | encBegin n =>
    rw [body, encBeginBody]
    split_ifs with hm
    · exact himp (r := .raised _ _ _) h0
    · refine hbegin .enc (by simpa using hm) (.inl rfl) (Run.All.thenCut
        (bsWrite_all (Stands.steady .enc s.fault 0 s.sink) _ _ _ ⟨rfl, rfl, rfl, rfl⟩) ?_)
      exact fun _ _ _ => trivial
  | encSym v =>
    rw [body, encSymBody]
    split_ifs
    · exact himp (r := .raised _ _ _) h0
    · exact himp (r := .raised _ _ _) h0
    · exact himp ((narrowInterval_all hS v h0).thenCut fun _ _ h => (renormalize_all hS _ h).thenCut fun _ _ _ => trivial)
  | encEnd =>
    rw [body, encEndBody]
    split_ifs
    · exact himp (r := .raised _ _ _) h0
    · exact himp (r := .raised _ _ _) h0
    · exact himp ((bitPlusFollow_all hS.write hS.pending _ _ (hS.pending _ _ h0)).thenCut fun _ _ h =>
        (bsWrite_all hS _ _ _ h).thenCut fun _ _ h => (bsFlush_cut h _).andThen fun _ _ _ => trivial)
  | decBegin =>
    rw [body, decBeginBody]
    split_ifs with hm
    · exact himp (r := .raised _ _ _) h0
    · have hD := Stands.steady .dec s.fault 0 s.sink
      refine hbegin .dec (by simpa using hm) (.inr rfl) (Run.All.thenCut
        (bsRead_all (P := Stands .dec s.fault 0 s.sink) hD.read _ _ ⟨rfl, rfl, rfl, rfl⟩) fun _ t h =>
          Run.All.thenCut (bsRead_all (P := Stands .dec s.fault 0 s.sink) hD.read _ _ h) ?_)
      exact fun _ _ _ => trivial
  | decSym =>
    rw [body, decSymBody]
    split_ifs
    · exact himp (r := .raised _ _ _) h0
    · exact himp (r := .raised _ _ _) h0
    · exact himp ((searchSymbol_all h0).thenCut fun v _ h => (narrowInterval_all hS v h).thenCut fun _ _ h =>
        (renormalize_all hS _ h).thenCut fun _ _ _ => trivial)
  | decEnd =>
    rw [body, decEndBody]
    split_ifs
    · exact himp (r := .raised _ _ _) h0
    · exact himp (r := .raised _ _ _) h0
    · trivial
  | abort => trivial
  | tNew => trivial
  | tIend idx => exact himp ((tableIntervalEnd_all _ _ h0).thenCut fun _ _ _ => trivial)
  | tSym p => exact himp ((tableSymbolFor_all _ _ h0).thenCut fun _ _ _ => trivial)
  | tUpd v => trivial
  | narrow v => exact himp ((narrowInterval_all hS v h0).thenCut fun _ _ _ => trivial)
  | renorm dir => exact himp ((renormalize_all hS dir h0).thenCut fun _ _ _ => trivial)
  | bpf b => exact himp ((bitPlusFollow_all hS.write hS.pending _ _ h0).thenCut fun _ _ _ => trivial)
  | writebits v n => exact himp ((bsWrite_all hS _ _ _ h0).thenCut fun _ _ _ => trivial)
  | readbits n => exact himp ((bsRead_all hS.read _ _ h0).thenCut fun _ _ _ => trivial)
  | flush => exact himp ((bsFlush_cut h0 _).andThen fun _ _ _ => trivial)

/-- Fault entry keeps what every run keeps (60_exceptions R230). -/
theorem Advances.takeFault {s t : State} (h : Advances s t) (hk : t.sink = s.sink) (f : FaultCode) (stage : Stage) :
    Advances s (s.takeFault t f stage) where
  cfg := h.cfg
  rdBits := h.rdBits
  inbox := h.inbox
  tick := h.tick
  bits := keptBits_prefix _ _
  sink hs := by
    show t.sink <+: _
    rw [hk]
    exact hs.trans (pack_prefix _ _)
  position := le_freeReadPos s
  positionEnd hs := freeReadPos_le hs
  table _ := h.cfg ▸ Table.fits_forgetRun t

/-- Whatever the operation, it ends in a next state, which has only advanced the streams. -/
theorem exec_advances (i : Instr) (s : State) : ∃ t, exec i s = .next t ∧ Advances s t := by
  rw [exec_eq]
  split_ifs
  · exact ⟨_, rfl, { Advances.refl s with }⟩
  · have h := body_advances i s
    cases hb : body i s with
    | done r t => rw [hb] at h; exact ⟨_, rfl, { h with }⟩
    | raised f g t => rw [hb] at h; exact ⟨_, rfl, h.takeFault (body_cut hb).2 f g⟩
    | stopped f => rw [hb] at h; exact h.elim

/-- Whatever the word, what it does until it is cut off has only advanced the streams. -/
theorem progress_advances (r : Request) (s : State) : (progress r s).All (Advances s) := by
  unfold progress
  split
  · split
    · exact Advances.refl s
    · exact body_advances _ s
  · exact Advances.refl s

/-- Where reset cuts off a word that would have come to `u` (70_reset R260). -/
theorem handle_resetDuring (r : Request) (s : State) :
    ∃ u, handle (.resetDuring r) s = .next (s.cutOff u) ∧ Advances s u ∧
      ((∃ x, progress r s = .done x u) ∨ ∃ f g, progress r s = .raised f g u) := by
  have h := progress_advances r s
  cases hp : progress r s with
  | done x u => rw [hp] at h; exact ⟨u, by rw [handle, hp], h, .inl ⟨x, rfl⟩⟩
  | raised f g u => rw [hp] at h; exact ⟨u, by rw [handle, hp], h, .inr ⟨f, g, rfl⟩⟩
  | stopped f => rw [hp] at h; exact h.elim

/-! ### The mode and the record -/

/-- What holds of the state a stretch of pseudocode leaves when it runs through. -/
def Run.Ends {α : Type} (P : State → Prop) : Run α → Prop
  | .done _ s => P s
  | .raised _ _ _ => True
  | .stopped _ => True

theorem Run.All.ends {α : Type} {P : State → Prop} {r : Run α} (h : r.All P) : r.Ends P := by
  cases r with
  | done a s => exact h
  | raised f g s => trivial
  | stopped f => trivial

theorem Run.Ends.andThen {α β : Type} {P Q : State → Prop} {r : Run α} {k : α → State → Run β} (hr : r.Ends P)
    (hk : ∀ a s, P s → (k a s).Ends Q) : (r.andThen k).Ends Q := by
  cases r with
  | done a s => exact hk a s hr
  | raised f g s => trivial
  | stopped f => trivial

/-- `mode` and `fault` stand at the values `m`, `f`. -/
def ModeIs (m : Mode) (f : FaultRecord) (t : State) : Prop := t.mode = m ∧ t.fault = f

theorem ModeIs.steady (m : Mode) (f : FaultRecord) : Steady (ModeIs m f) :=
  ⟨fun _ _ h => h, fun _ _ h => h, fun _ _ h => h, fun _ _ _ _ h => h⟩

theorem bsFlush_modeIs {m : Mode} {f : FaultRecord} {s : State} (h : ModeIs m f s) (stage : Stage) :
    (bsFlush stage s).All (ModeIs m f) := by
  unfold bsFlush
  dsimp only
  split_ifs <;> exact h

/-- The mode an operation leaves when it runs through (45_run_control R212). -/
def modeAfter (i : Instr) (m : Mode) : Mode :=
  match i with
  | .encBegin _ => .enc
  | .decBegin => .dec
  | .encEnd | .decEnd | .abort => .idle
  | .encSym _ | .decSym | .tNew | .tIend _ | .tSym _ | .tUpd _ | .narrow _ | .renorm _ | .bpf _ | .writebits _ _ | .readbits _
    | .flush => m

/-- The mode in which an operation runs through (45_run_control R212); none: in every mode. -/
def modeBefore (i : Instr) : Option Mode :=
  match i with
  | .encBegin _ | .decBegin => some .idle
  | .encSym _ | .encEnd => some .enc
  | .decSym | .decEnd => some .dec
  | .abort | .tNew | .tIend _ | .tSym _ | .tUpd _ | .narrow _ | .renorm _ | .bpf _ | .writebits _ _ | .readbits _
    | .flush => none

/-- The record an operation leaves when it runs through: `ABORT` clears it (45_run_control R211). -/
def recordAfter (i : Instr) (f : FaultRecord) : FaultRecord := if i = .abort then FaultRecord.clear else f

/-- The mode and the record an operation leaves when it runs through, and the mode in which it does. -/
theorem body_mode {i : Instr} {s t : State} {r : Option Count} (h : body i s = .done r t) :
    ModeIs (modeAfter i s.mode) (recordAfter i s.fault) t ∧ ∀ m, modeBefore i = some m → s.mode = m := by
  have hS := ModeIs.steady s.mode s.fault
  have h0 : ModeIs s.mode s.fault s := ⟨rfl, rfl⟩
  suffices hE : (body i s).Ends fun t =>
      ModeIs (modeAfter i s.mode) (recordAfter i s.fault) t ∧ ∀ m, modeBefore i = some m → s.mode = m by
    rw [h] at hE; exact hE
  cases i with
  | encBegin n =>
    rw [body, encBeginBody]
    split_ifs with hm
    · trivial
    · refine Run.Ends.andThen (P := ModeIs .enc s.fault)
        (bsWrite_all (ModeIs.steady .enc s.fault) _ _ _ (by exact ⟨rfl, rfl⟩)).ends ?_
      exact fun _ _ h => ⟨h, fun m hm' => by rw [← Option.some.inj hm']; simpa using hm⟩
  | encSym v =>
    rw [body, encSymBody]
    split_ifs with hm
    · trivial
    · trivial
    · exact (narrowInterval_all hS v h0).ends.andThen fun _ _ h => (renormalize_all hS _ h).ends.andThen fun _ _ h => by
        exact ⟨h, fun m hm' => by rw [← Option.some.inj hm']; simpa using hm⟩
  | encEnd =>
    rw [body, encEndBody]
    split_ifs with hm
    · trivial
    · trivial
    · refine (bitPlusFollow_all hS.write hS.pending _ _ (hS.pending _ _ h0)).ends.andThen fun _ _ h =>
        (bsWrite_all hS _ _ _ h).ends.andThen fun _ _ h => (bsFlush_modeIs h _).ends.andThen ?_
      exact fun _ t h => ⟨⟨rfl, h.2⟩, fun m hm' => by rw [← Option.some.inj hm']; simpa using hm⟩
  | decBegin =>
    rw [body, decBeginBody]
    split_ifs with hm
    · trivial
    · have hD := ModeIs.steady .dec s.fault
      refine Run.Ends.andThen (P := ModeIs .dec s.fault)
        (bsRead_all hD.read _ _ (by exact ⟨rfl, rfl⟩)).ends fun _ t h => ?_
      refine Run.Ends.andThen (P := ModeIs .dec s.fault) (bsRead_all hD.read _ _ (by exact h)).ends ?_
      exact fun _ _ h => ⟨h, fun m hm' => by rw [← Option.some.inj hm']; simpa using hm⟩
  | decSym =>
    rw [body, decSymBody]
    split_ifs with hm
    · trivial
    · trivial
    · exact (searchSymbol_all h0).ends.andThen fun v _ h => (narrowInterval_all hS v h).ends.andThen fun _ _ h =>
        (renormalize_all hS _ h).ends.andThen fun _ _ h => by
          exact ⟨h, fun m hm' => by rw [← Option.some.inj hm']; simpa using hm⟩
  | decEnd =>
    rw [body, decEndBody]
    split_ifs with hm
    · trivial
    · trivial
    · exact ⟨⟨rfl, rfl⟩, fun m hm' => by rw [← Option.some.inj hm']; simpa using hm⟩
  | abort =>
    refine ⟨?_, fun m hm => nomatch hm⟩
    split_ifs <;> exact ⟨rfl, rfl⟩
  | tNew => exact ⟨h0, fun m hm => nomatch hm⟩
  | tIend idx => exact (tableIntervalEnd_all _ _ h0).ends.andThen fun _ _ h => ⟨h, fun m hm => nomatch hm⟩
  | tSym p => exact (tableSymbolFor_all _ _ h0).ends.andThen fun _ _ h => ⟨h, fun m hm => nomatch hm⟩
  | tUpd v => exact ⟨h0, fun m hm => nomatch hm⟩
  | narrow v => exact (narrowInterval_all hS v h0).ends.andThen fun _ _ h => ⟨h, fun m hm => nomatch hm⟩
  | renorm dir => exact (renormalize_all hS dir h0).ends.andThen fun _ _ h => ⟨h, fun m hm => nomatch hm⟩
  | bpf b =>
    exact (bitPlusFollow_all hS.write hS.pending _ _ h0).ends.andThen fun _ _ h => ⟨h, fun m hm => nomatch hm⟩
  | writebits v n => exact (bsWrite_all hS _ _ _ h0).ends.andThen fun _ _ h => ⟨h, fun m hm => nomatch hm⟩
  | readbits n => exact (bsRead_all hS.read _ _ h0).ends.andThen fun _ _ h => ⟨h, fun m hm => nomatch hm⟩
  | flush => exact (bsFlush_modeIs h0 _).ends.andThen fun _ _ h => ⟨h, fun m hm => nomatch hm⟩

/-- The record of a fault begun at `s` with no fault standing (60_exceptions R230, R232). -/
theorem State.faultRecordOf_eq {s : State} (h : s.mode ≠ .fault) (f : FaultCode) (stage : Stage) :
    s.faultRecordOf f stage = { code := f, symIdx := if s.running then s.symIdx else 0, stage := stage } := by
  unfold State.faultRecordOf State.running
  cases hm : s.mode <;> first | exact absurd hm h | rfl

/-- An operation whose pseudocode raises, outside `FAULT`, shows the fault. -/
theorem exec_raised {i : Instr} {s t : State} {f : FaultCode} {g : Stage} (h : body i s = .raised f g t)
    (hm : s.mode ≠ .fault) : exec i s = .next (s.takeFault t f g) ∧ s.Faulted (s.takeFault t f g) f g := by
  refine ⟨by rw [exec_eq, if_neg (by tauto), h, finish_raised], rfl, ?_, rfl⟩
  exact ((body_cut h).1 f g).trans (State.faultRecordOf_eq hm f g)

/-- Where a fault stands, an operation whose pseudocode raises keeps the record (60_exceptions R234). -/
theorem takeFault_stands {i : Instr} {s t : State} {f : FaultCode} {g : Stage} (h : body i s = .raised f g t)
    (hm : s.mode = .fault) : (s.takeFault t f g).fault = s.fault := by
  refine ((body_cut h).1 f g).trans ?_
  rw [State.faultRecordOf, hm]

/-- An operation whose pseudocode runs through, outside `FAULT`, responds. -/
theorem exec_done {i : Instr} {s t : State} {r : Option Count} (h : body i s = .done r t) (hm : s.mode ≠ .fault) :
    exec i s = .next (t.respond r) := by
  rw [exec_eq, if_neg (by tauto), h, finish_done]

/-! ### What can be raised -/

theorem renormalize_raises (dir : Dir) (s : State) :
    (renormalize dir s).Raises fun f g => (f = .intervalOverflow ∨ f = .ioError ∨ f = .shortRead) ∧ g = .renorm := by
  have hpass : ∀ (b : Branch) (s : State), (renormPass dir b s).Raises fun f g =>
      (f = .intervalOverflow ∨ f = .ioError ∨ f = .shortRead) ∧ g = .renorm := by
    intro b s
    refine ((branchOutput_raises dir b s).imp fun f g h => ⟨.inr (.inl h.1), h.2⟩).andThen fun _ t _ => ?_
    unfold shiftStep
    split
    · exact ⟨.inl rfl, rfl⟩
    · refine Run.Raises.andThen ?_ fun _ u _ => ?_
      · cases dir with
        | emit => trivial
        | consume =>
          unfold shiftInput bsRead
          simp only [bsMaxN, show ¬64 < 1 by omega, if_false, one_ne_zero]
          split_ifs
          · exact ⟨.inr (.inl rfl), rfl⟩
          · exact ⟨.inr (.inr rfl), rfl⟩
          · trivial
      · dsimp only
        split
        · exact ⟨.inl rfl, rfl⟩
        · trivial
  have hloop : ∀ (n : Nat) (s : State), (renormLoop dir n s).Raises fun f g =>
      (f = .intervalOverflow ∨ f = .ioError ∨ f = .shortRead) ∧ g = .renorm := by
    intro n
    induction n with
    | zero => exact fun _ => trivial
    | succ n ih =>
      intro s
      by_cases hb : branchOf s.l.toNat s.h.toNat = .done
      · rw [renormLoop_done hb]; trivial
      · rw [renormLoop_succ hb]; exact (hpass _ s).andThen fun _ t _ => ih t
  exact hloop _ s

/-- A code that an operation can raise: all but the reserved ones and `COUNTER_OVERFLOW` (60_exceptions R221; log 19). -/
def Raisable (f : FaultCode) (_ : Stage) : Prop := f ≠ .none ∧ f ≠ .counterOverflow

theorem bsWrite_raises (stage : Stage) (v : Count) (n : Nat) (s : State) : (bsWrite stage v n s).Raises Raisable := by
  unfold bsWrite
  split_ifs <;> simp [Run.Raises, Raisable]

theorem bsRead_raises (stage : Stage) (n : Nat) (s : State) : (bsRead stage n s).Raises Raisable := by
  unfold bsRead
  split_ifs <;> simp [Run.Raises, Raisable]

theorem bsFlush_raises (stage : Stage) (s : State) : (bsFlush stage s).Raises Raisable := by
  unfold bsFlush
  dsimp only
  split_ifs <;> simp [Run.Raises, Raisable]

theorem narrowInterval_raises (v : Sym) (s : State) : (narrowInterval v s).Raises Raisable := by
  unfold narrowInterval
  split_ifs <;> simp [Run.Raises, Raisable]

theorem tableSymbolFor_raises (stage : Stage) (p : Nat) (s : State) : (tableSymbolFor stage p s).Raises Raisable := by
  unfold tableSymbolFor
  split_ifs
  · exact ⟨by decide, by decide⟩
  · split <;> trivial

theorem tableIntervalEnd_raises (stage : Stage) (i : Nat) (s : State) :
    (tableIntervalEnd stage i s).Raises Raisable := by
  unfold tableIntervalEnd
  split_ifs <;> simp [Run.Raises, Raisable]

theorem searchSymbol_raises (s : State) : (searchSymbol s).Raises Raisable := by
  unfold searchSymbol
  split_ifs
  · exact ⟨by decide, by decide⟩
  · exact tableSymbolFor_raises _ _ _

theorem bitPlusFollow_raisable (stage : Stage) (b : Bool) (s : State) : (bitPlusFollow stage b s).Raises Raisable :=
  (bitPlusFollow_raises stage b s).imp fun f g h => by rw [h.1]; exact ⟨by decide, by decide⟩

theorem renormalize_raisable (dir : Dir) (s : State) : (renormalize dir s).Raises Raisable :=
  (renormalize_raises dir s).imp fun f g h => by rcases h.1 with h | h | h <;> rw [h] <;> exact ⟨by decide, by decide⟩

theorem body_raises (i : Instr) (s : State) : (body i s).Raises Raisable := by
  cases i with
  | encBegin n =>
    rw [body, encBeginBody]
    split_ifs
    · exact ⟨by decide, by decide⟩
    · exact (bsWrite_raises _ _ _ _).andThen fun _ _ _ => trivial
  | encSym v =>
    rw [body, encSymBody]
    split_ifs
    · exact ⟨by decide, by decide⟩
    · exact ⟨by decide, by decide⟩
    · exact (narrowInterval_raises v s).andThen fun _ t _ => (renormalize_raisable _ t).andThen fun _ _ _ => trivial
  | encEnd =>
    rw [body, encEndBody]
    split_ifs
    · exact ⟨by decide, by decide⟩
    · exact ⟨by decide, by decide⟩
    · exact (bitPlusFollow_raisable _ _ _).andThen fun _ _ _ => (bsWrite_raises _ _ _ _).andThen fun _ _ _ =>
        (bsFlush_raises _ _).andThen fun _ _ _ => trivial
  | decBegin =>
    rw [body, decBeginBody]
    split_ifs
    · exact ⟨by decide, by decide⟩
    · exact (bsRead_raises _ _ _).andThen fun _ _ _ => (bsRead_raises _ _ _).andThen fun _ _ _ => trivial
  | decSym =>
    rw [body, decSymBody]
    split_ifs
    · exact ⟨by decide, by decide⟩
    · exact ⟨by decide, by decide⟩
    · exact (searchSymbol_raises s).andThen fun v _ _ => (narrowInterval_raises v _).andThen fun _ t _ =>
        (renormalize_raisable _ t).andThen fun _ _ _ => trivial
  | decEnd =>
    rw [body, decEndBody]
    split_ifs
    · exact ⟨by decide, by decide⟩
    · exact ⟨by decide, by decide⟩
    · trivial
  | abort => trivial
  | tNew => trivial
  | tIend idx => exact (tableIntervalEnd_raises _ _ _).andThen fun _ _ _ => trivial
  | tSym p => exact (tableSymbolFor_raises _ _ _).andThen fun _ _ _ => trivial
  | tUpd v => trivial
  | narrow v => exact (narrowInterval_raises _ _).andThen fun _ _ _ => trivial
  | renorm dir => exact (renormalize_raisable _ _).andThen fun _ _ _ => trivial
  | bpf b => exact (bitPlusFollow_raisable _ _ _).andThen fun _ _ _ => trivial
  | writebits v n => exact (bsWrite_raises _ _ _ _).andThen fun _ _ _ => trivial
  | readbits n => exact (bsRead_raises _ _ _).andThen fun _ _ _ => trivial
  | flush => exact (bsFlush_raises _ _).andThen fun _ _ _ => trivial

end Sys2Proof.Machine
end

