-- ==== Sys2Proof/Laws/Encoding.lean ====
section
/-! SUPPORT. Fields of a word that is a concatenation, and when two rows of the opcode table cannot select one word. -/

namespace Sys2Proof

/-- A field that lies in the low part. -/
theorem field_low {m n : Nat} (a : BitVec m) (b : BitVec n) (k : Nat) (hk : k ≤ n) :
    (a ++ b).extractLsb' 0 k = b.extractLsb' 0 k := by
  ext i hi
  simp [BitVec.getLsbD_append, show i < n by omega]

/-- A field that lies in the high part. -/
theorem field_high {m n : Nat} (a : BitVec m) (b : BitVec n) (j k : Nat) (h : n ≤ j) :
    (a ++ b).extractLsb' j k = a.extractLsb' (j - n) k := by
  ext i hi
  simp only [BitVec.getElem_extractLsb', BitVec.getLsbD_append]
  rw [if_neg (by omega)]
  congr 1
  omega

theorem field_all {n : Nat} (a : BitVec n) : a.extractLsb' 0 n = a := by simp

theorem bit_low {m n : Nat} (a : BitVec m) (b : BitVec n) (h : 0 < n) : (a ++ b).getLsbD 0 = b.getLsbD 0 := by
  rw [BitVec.getLsbD_append, if_pos h]

/-- Two rows that one word selects agree under both masks. -/
theorem mask_overlap {w : Nat} {x m p m' p' : BitVec w} (h : x &&& m = p) (h' : x &&& m' = p') :
    p &&& m' = p' &&& m := by
  subst h h'
  rw [BitVec.and_assoc, BitVec.and_assoc, BitVec.and_comm m]

theorem whenZero_ok {w : Nat} {field : BitVec w} {i j : Instr} : whenZero field i = .ok j ↔ field = 0 ∧ i = j := by
  unfold whenZero
  split <;> simp_all

end Sys2Proof
end

