-- ==== Sys2Proof/Laws/Symbols.lean ====
section
/-! SUPPORT. One symbol of a run, from a wide interval and a table that meets its invariants: what `NARROW` and the
decoder's search do there; that `RENORM` does not look at the last response; that `T_UPD` does not depend on the free
values. -/

namespace Sys2Proof.Machine

/-! ### The interval between symbols -/

/-- A wide interval is wider than a quarter (10_state R40, 42_renormalizer R170). -/
theorem State.Wide.quarter {s : State} (h : s.Wide) : firstQuart + 1 ≤ s.delta ∧ s.l.toNat ≤ s.h.toNat := by
  obtain ⟨h1, h2, h3⟩ := h
  unfold State.delta
  unfold half firstQuart thirdQuart at *
  omega

/-- The total of a table that meets its invariants is below a quarter (00_scope R7: `COUNT_BITS <= 30`). -/
theorem Table.Valid.denom_le {s : State} (ht : s.table.Valid s.cfg) : s.denom ≤ firstQuart := by
  have h1 := ht.total
  have h2 := ht.bounds.2
  have h3 := ceiling_bounds s.cfg
  have h4 : 2 ^ s.cfg.countBits ≤ 2 ^ 30 := Nat.pow_le_pow_right (by decide) s.cfg.legal.2
  show s.table.iv 256 ≤ firstQuart
  unfold firstQuart
  omega

/-- The state after `NARROW v` that goes through. -/
def State.narrowTo (v : Sym) (s : State) : State := { s with l := s.narrowedL v, h := s.narrowedH v }

theorem narrowInterval_ok {s : State} (h : s.l.toNat ≤ s.h.toNat) (v : Sym) :
    narrowInterval v s = .done () (s.narrowTo v) := by
  rw [narrowInterval, if_neg (by omega)]; rfl

/-- Between symbols `NARROW` leaves ordered bounds (42_renormalizer R170). -/
theorem State.Wide.narrow_ordered {s : State} (hw : s.Wide) (ht : s.table.Valid s.cfg) (v : Sym) :
    (s.narrowTo v).l.toNat ≤ (s.narrowTo v).h.toNat :=
  (State.narrowed ht hw.quarter.2 (ht.denom_le.trans (by have := hw.quarter.1; omega)) v).2.2.1

/-! ### The decoder's search -/

/-- The position the decoder computes, and that it lies below the total (44_decoder R202, R205). -/
theorem State.ValueInside.position {s : State} (hv : s.ValueInside) (ht : s.table.Valid s.cfg) :
    s.position = ((s.value.toNat - s.l.toNat + 1) * s.table.iv 256 - 1) / (s.h.toNat - s.l.toNat + 1) ∧
      s.position < s.table.totalCount := by
  have hd : 256 ≤ s.table.iv 256 := ht.total ▸ ht.bounds.1
  have hpos : 0 < (s.value.toNat - s.l.toNat + 1) * s.table.iv 256 := Nat.mul_pos (by omega) (by omega)
  have e : s.position =
      ((s.value.toNat - s.l.toNat + 1) * s.table.iv 256 - 1) / (s.h.toNat - s.l.toNat + 1) := if_pos hpos
  refine ⟨e, ?_⟩
  rw [e, ht.total, Nat.div_lt_iff_lt_mul (by omega)]
  have : (s.value.toNat - s.l.toNat + 1) * s.table.iv 256 ≤ s.table.iv 256 * (s.h.toNat - s.l.toNat + 1) := by
    rw [mul_comm]; exact Nat.mul_le_mul_left _ (by have := hv.2; omega)
  omega

/-- The search succeeds with the symbol whose range contains the position (44_decoder R202, R205). -/
theorem State.ValueInside.search {s : State} (hv : s.ValueInside) (ht : s.table.Valid s.cfg) :
    ∃ v : Sym, searchSymbol s = .done v s ∧ s.table.iv v.toNat ≤ s.position ∧
      s.position < s.table.iv (v.toNat + 1) := by
  have hp := (hv.position ht).2
  obtain ⟨v, hv1, hv2, hv3, hv4⟩ := ht.search hp
  have e : (BitVec.ofNat 8 v).toNat = v := by rw [BitVec.toNat_ofNat]; omega
  refine ⟨BitVec.ofNat 8 v, ?_, by rwa [e], by rwa [e]⟩
  rw [searchSymbol, if_neg (by have := hv.1; have := hv.2; omega), tableSymbolFor, if_neg (by omega), hv1]

/-- The window stays inside the interval of the symbol found (44_decoder R205). -/
theorem State.ValueInside.narrow {s : State} (hv : s.ValueInside) (hw : s.Wide) (ht : s.table.Valid s.cfg) {v : Sym}
    (h1 : s.table.iv v.toNat ≤ s.position) (h2 : s.position < s.table.iv (v.toNat + 1)) :
    (s.narrowTo v).ValueInside := by
  have hn := State.narrowed ht hw.quarter.2 (ht.denom_le.trans (by have := hw.quarter.1; omega)) v
  have e1 : s.scaled (s.table.iv (lowIndex v)) =
      s.table.iv v.toNat * (s.h.toNat - s.l.toNat + 1) / s.table.iv 256 := rfl
  have e2 : s.scaled (s.table.iv (highIndex v)) =
      s.table.iv (v.toNat + 1) * (s.h.toNat - s.l.toNat + 1) / s.table.iv 256 := rfl
  have hd : 256 ≤ s.table.iv 256 := ht.total ▸ ht.bounds.1
  have hpos : 0 < (s.value.toNat - s.l.toNat + 1) * s.table.iv 256 := Nat.mul_pos (by omega) (by omega)
  rw [e1, e2] at hn
  rw [(hv.position ht).1, Nat.le_div_iff_mul_le (by omega)] at h1
  rw [(hv.position ht).1, Nat.div_lt_iff_lt_mul (by omega)] at h2
  have c1 : s.table.iv v.toNat * (s.h.toNat - s.l.toNat + 1) / s.table.iv 256 < s.value.toNat - s.l.toNat + 1 := by
    rw [Nat.div_lt_iff_lt_mul (by omega)]; omega
  have c2 : s.value.toNat - s.l.toNat + 1 ≤
      s.table.iv (v.toNat + 1) * (s.h.toNat - s.l.toNat + 1) / s.table.iv 256 := by
    rw [Nat.le_div_iff_mul_le (by omega)]; omega
  have := hv.1
  show (s.narrowedL v).toNat ≤ s.value.toNat ∧ s.value.toNat ≤ (s.narrowedH v).toNat
  omega

/-! ### Free values do not enter a run -/

/-- `T_UPD` of a table that meets its invariants is the same in every step. -/
theorem Table.Valid.update_tick {cfg : Config} {t : Table} (h : t.Valid cfg) (a b : Nat) (v : Sym) :
    t.update cfg a v = t.update cfg b v := by
  have hinc : t.increment cfg a v = t.increment cfg b v := by
    have hlt := fun i (hi : i ≤ 256) => (increment_atMostCeiling h a v)
    have hc := ceiling_bounds cfg
    have hb := h.bounds.2
    unfold Table.increment
    congr 1
    · unfold entries
      simp only [Vector.mk.injEq, Array.mk.injEq]
      refine List.map_congr_left fun i hi => ?_
      have hi : i ≤ 256 := by have := List.mem_range.mp hi; omega
      split
      · rw [fitEntry_of_lt (by have := h.cnt_le hi; omega), fitEntry_of_lt (by have := h.cnt_le hi; omega)]
      · rfl
    · unfold entries
      simp only [Vector.mk.injEq, Array.mk.injEq]
      refine List.map_congr_left fun i hi => ?_
      have hi : i ≤ 256 := by have := List.mem_range.mp hi; omega
      split
      · rw [fitEntry_of_lt (by have := h.iv_le hi; omega), fitEntry_of_lt (by have := h.iv_le hi; omega)]
      · rfl
  have hm := increment_atMostCeiling h b v
  rw [Table.update_eq, Table.update_eq, hinc]
  split
  · generalize t.increment cfg b v = u at hm ⊢
    have hsum : ∀ i, i ≤ 256 →
        rebuiltInterval cfg a (u.iv 0)
            (fun i => (entries fun i => if i = 0 then u.cnt 0 else halved (u.cnt i))[i]?.getD 0) i =
          rebuiltInterval cfg b (u.iv 0)
            (fun i => (entries fun i => if i = 0 then u.cnt 0 else halved (u.cnt i))[i]?.getD 0) i := by
      intro i hi
      have ha := (hm.rescale_valid a)
      have hb := (hm.rescale_valid b)
      have key : ∀ i, i ≤ 256 → (u.rescale cfg a).iv i = (u.rescale cfg b).iv i := by
        intro i
        induction i with
        | zero => intro _; rw [ha.zeroBase.2, hb.zeroBase.2]
        | succ i ih =>
          intro hi
          rw [ha.sums i (by omega), hb.sums i (by omega), ih (by omega), rescale_cnt _ _ _ (by omega) hi,
            rescale_cnt _ _ _ (by omega) hi]
      have := key i hi
      unfold Table.rescale at this
      simpa only [Table.iv_entries, if_pos (show i < 257 by omega)] using this
    unfold Table.rescale
    simp only [Table.mk.injEq, true_and]
    refine ⟨?_, hsum 256 le_rfl⟩
    unfold entries
    simp only [Vector.mk.injEq, Array.mk.injEq]
    exact List.map_congr_left fun i hi => hsum i (by have := List.mem_range.mp hi; omega)
  · rfl

/-! ### The last response does not enter a run -/

/-- The same state with another last response. -/
def State.withResponse (s : State) (r : Option Response) : State := { s with response := r }

/-- The same run with another last response. -/
def Run.withResponse {α : Type} (r : Run α) (x : Option Response) : Run α :=
  match r with
  | .done a s => .done a (s.withResponse x)
  | .raised f g s => .raised f g (s.withResponse x)
  | .stopped f => .stopped f

theorem Run.withResponse_andThen {α β : Type} (r : Run α) (k k' : α → State → Run β) (x : Option Response)
    (h : ∀ a s, k' a (s.withResponse x) = (k a s).withResponse x) :
    (r.withResponse x).andThen k' = (r.andThen k).withResponse x := by
  cases r with
  | done a s => exact h a s
  | raised f g s => rfl
  | stopped f => rfl

theorem bsWrite_withResponse (stage : Stage) (v : Count) (n : Nat) (s : State) (x : Option Response) :
    bsWrite stage v n (s.withResponse x) = (bsWrite stage v n s).withResponse x := by
  unfold bsWrite
  dsimp only
  rw [show (s.withResponse x).transferFails = s.transferFails from rfl]
  split_ifs <;> rfl

theorem bsRead_withResponse (stage : Stage) (n : Nat) (s : State) (x : Option Response) :
    bsRead stage n (s.withResponse x) = (bsRead stage n s).withResponse x := by
  unfold bsRead
  rw [show (s.withResponse x).transferFails = s.transferFails from rfl,
    show (s.withResponse x).remaining = s.remaining from rfl]
  split_ifs <;> rfl

theorem writeRepeated_withResponse (stage : Stage) (b : Bool) (k : Nat) (s : State) (x : Option Response) :
    writeRepeated stage b k (s.withResponse x) = (writeRepeated stage b k s).withResponse x := by
  induction k generalizing s with
  | zero => rfl
  | succ k ih =>
    rw [writeRepeated, writeRepeated, bsWrite_withResponse]
    exact Run.withResponse_andThen _ _ _ _ fun _ s => ih s

theorem bitPlusFollow_withResponse (stage : Stage) (b : Bool) (s : State) (x : Option Response) :
    bitPlusFollow stage b (s.withResponse x) = (bitPlusFollow stage b s).withResponse x := by
  rw [bitPlusFollow, bitPlusFollow, writeRepeated_withResponse]
  refine Run.withResponse_andThen _ _ _ _ fun _ s => ?_
  rw [show (s.withResponse x).bitsToFollow = s.bitsToFollow from rfl, writeRepeated_withResponse]
  exact Run.withResponse_andThen _ _ _ _ fun _ s => rfl

theorem renormPass_withResponse (dir : Dir) (b : Branch) (s : State) (x : Option Response) :
    renormPass dir b (s.withResponse x) = (renormPass dir b s).withResponse x := by
  have hout : branchOutput dir b (s.withResponse x) = (branchOutput dir b s).withResponse x := by
    cases dir <;> cases b <;> first | rfl | exact bitPlusFollow_withResponse _ _ _ _
  rw [renormPass, renormPass, hout]
  refine Run.withResponse_andThen _ _ _ _ fun _ s => ?_
  have hin : shiftInput dir (s.withResponse x) = (shiftInput dir s).withResponse x := by
    cases dir
    · rfl
    · exact bsRead_withResponse _ _ _ _
  unfold shiftStep
  rw [hin]
  split
  · rw [if_pos (by assumption)]; rfl
  · rw [if_neg (by assumption)]
    refine Run.withResponse_andThen _ _ _ _ fun bit s => ?_
    dsimp only [State.withResponse]
    split_ifs <;> rfl

/-- `RENORM` does the same whatever the last response. -/
theorem renormLoop_withResponse (dir : Dir) (n : Nat) (s : State) (x : Option Response) :
    renormLoop dir n (s.withResponse x) = (renormLoop dir n s).withResponse x := by
  induction n generalizing s with
  | zero => rfl
  | succ n ih =>
    by_cases hb : branchOf s.l.toNat s.h.toNat = .done
    · rw [renormLoop_done hb, renormLoop_done (s := s.withResponse x) hb]; rfl
    · rw [renormLoop_succ hb, renormLoop_succ (s := s.withResponse x) hb]
      rw [show branchOf (s.withResponse x).l.toNat (s.withResponse x).h.toNat = branchOf s.l.toNat s.h.toNat from rfl,
        renormPass_withResponse]
      exact Run.withResponse_andThen _ _ _ _ fun _ s => ih s

/-! ### Both directions move the bounds alike -/

/-- The shifts made so far show in the streams: bits written and pending in direction `E`, bits read in direction `C`
(20_memory R69). -/
def shifts : Dir → State → Nat
  | .emit, s => s.wrBits.length + s.bitsToFollow
  | .consume, s => s.rdPos

/-- `BPF` that goes through writes the decided bit and the pending ones. -/
theorem bitPlusFollow_shifts {stage : Stage} {b : Bool} {s t : State} (h : bitPlusFollow stage b s = .done () t) :
    shifts .emit t = shifts .emit s + 1 := by
  have key : ∀ (c : Bool) (k : Nat) {s t : State}, writeRepeated stage c k s = .done () t →
      t.wrBits.length = s.wrBits.length + k ∧ t.bitsToFollow = s.bitsToFollow := by
    intro c k
    induction k with
    | zero => intro s t h; injection h with _ h; subst h; exact ⟨rfl, rfl⟩
    | succ k ih =>
      intro s t h
      rw [writeRepeated] at h
      cases hf : s.transferFails with
      | true => rw [bsWrite_fails (by decide) (by decide) hf] at h; cases h
      | false =>
        rw [bsWrite_ok (by decide) (by decide) hf] at h
        obtain ⟨h1, h2⟩ := ih h
        refine ⟨?_, h2⟩
        rw [h1]
        simp [State.appendBits, State.afterTransfer]
        omega
  unfold bitPlusFollow at h
  cases h1 : writeRepeated stage b 1 s with
  | stopped f => rw [h1] at h; cases h
  | raised f g u => rw [h1] at h; cases h
  | done x u =>
    rw [h1, Run.andThen_done] at h
    cases h2 : writeRepeated stage (!b) u.bitsToFollow u with
    | stopped f => rw [h2] at h; cases h
    | raised f g w => rw [h2] at h; cases h
    | done y w =>
      rw [h2, Run.andThen_done] at h
      injection h with _ h
      subst h
      have k1 := key _ _ h1
      have k2 := key _ _ h2
      simp only [shifts]
      omega

/-- A pass of `RENORM E` that goes through decides or defers one bit. -/
theorem emitPass_shifts {b : Branch} (hb : b ≠ .done) {s t : State} (h : renormPass .emit b s = .done () t) :
    shifts .emit t = shifts .emit s + 1 := by
  have hshift : ∀ {off : Nat} {u : State}, shiftStep .emit off u = .done () t → shifts .emit t = shifts .emit u := by
    intro off u h
    unfold shiftStep at h
    split at h
    · cases h
    · simp only [shiftInput, Run.andThen_done] at h
      split at h
      · cases h
      · injection h with _ h
        subst h
        rfl
  rw [renormPass] at h
  cases ho : branchOutput .emit b s with
  | stopped f => rw [ho] at h; cases h
  | raised f g u => rw [ho] at h; cases h
  | done x u =>
    rw [ho] at h
    rw [hshift h]
    cases b with
    | e2 => exact bitPlusFollow_shifts ho
    | e1 => exact bitPlusFollow_shifts ho
    | e3 => injection ho with _ ho; subst ho; rfl
    | done => exact absurd rfl hb

/-- A pass of `RENORM C` that goes through reads one bit. -/
theorem consumePass_shifts {b : Branch} {s t : State} (h : renormPass .consume b s = .done () t) :
    shifts .consume t = shifts .consume s + 1 := by
  rw [renormPass, branchOutput, Run.andThen_done] at h
  unfold shiftStep at h
  split at h
  · cases h
  · rw [shiftInput] at h
    cases hf : s.transferFails with
    | true => rw [bsRead_fails (by decide) (by decide) hf] at h; cases h
    | false =>
      by_cases hr : 1 ≤ s.remaining.length
      · rw [bsRead_one hf hr, Run.andThen_done] at h
        dsimp only at h
        split at h
        · cases h
        · injection h with _ h
          subst h
          rfl
      · rw [bsRead_short (by decide) (by decide) hf (by omega)] at h; cases h

/-- Where `RENORM` goes through in both directions from equal bounds, it leaves equal bounds after the same number of
shifts (42_renormalizer R172). -/
theorem renormLoop_mirrored (n : Nat) {e d te td : State} (hl : e.l = d.l) (hh : e.h = d.h)
    (he : renormLoop .emit n e = .done () te) (hd : renormLoop .consume n d = .done () td) :
    te.l = td.l ∧ te.h = td.h ∧ shifts .emit te + shifts .consume d = shifts .emit e + shifts .consume td := by
  induction n generalizing e d with
  | zero => cases he
  | succ n ih =>
    by_cases hb : branchOf e.l.toNat e.h.toNat = .done
    · rw [renormLoop_done hb] at he
      rw [renormLoop_done (by rw [← hl, ← hh]; exact hb)] at hd
      injection he with _ he
      injection hd with _ hd
      subst he hd
      exact ⟨hl, hh, rfl⟩
    · have hb' : branchOf d.l.toNat d.h.toNat ≠ .done := by rw [← hl, ← hh]; exact hb
      rw [renormLoop_succ hb] at he
      rw [renormLoop_succ hb'] at hd
      cases hpe : renormPass .emit (branchOf e.l.toNat e.h.toNat) e with
      | stopped f => rw [hpe] at he; cases he
      | raised f g u => rw [hpe] at he; cases he
      | done u e' =>
        cases hpd : renormPass .consume (branchOf d.l.toNat d.h.toNat) d with
        | stopped f => rw [hpd] at hd; cases hd
        | raised f g u => rw [hpd] at hd; cases hd
        | done u d' =>
          rw [hpe] at he
          rw [hpd] at hd
          have be := renormPass_bounds hpe
          have bd := renormPass_bounds hpd
          have hl' : e'.l = d'.l := BitVec.eq_of_toNat_eq (by rw [be.1, bd.1, hl, hh])
          have hh' : e'.h = d'.h := BitVec.eq_of_toNat_eq (by rw [be.2.1, bd.2.1, hl, hh])
          obtain ⟨h1, h2, h3⟩ := ih hl' hh' he hd
          refine ⟨h1, h2, ?_⟩
          have se := emitPass_shifts hb hpe
          have sd := consumePass_shifts hpd
          omega

end Sys2Proof.Machine
end

