-- ==== Sys2Proof/Laws/Inputs.lean ====
section
/-! SUPPORT. Operations and their inputs: what the loop of `RENORM C` does on a source that ends too soon or with a
transfer that fails, what `RENORM` does where transfers fail; the operations that read no bit. -/

namespace Sys2Proof.Machine

/-! ### The inputs -/

/-- The same state with more bits behind the source's. -/
def State.withMore (s : State) (more : Bits) : State := { s with rdBits := s.rdBits ++ more }

/-- The same state where no transfer fails. -/
def State.unfailing (s : State) : State := { s with ioFails := [] }

theorem State.withMore_next (s : State) (more : Bits) (h : s.rdPos < s.rdBits.length) :
    (s.withMore more).remaining.headD false = s.remaining.headD false := by
  simp only [State.remaining, State.withMore]
  rw [List.drop_append_of_le_length (by omega)]
  cases hd : s.rdBits.drop s.rdPos with
  | nil => have := congrArg List.length hd; simp at this; omega
  | cons b bs => rfl

theorem nextTransfersSucceed_add (s : State) (a b : Nat) :
    s.NextTransfersSucceed (a + b) ↔
      s.NextTransfersSucceed a ∧ ∀ u : State, u.ioFails = s.ioFails.drop a → u.NextTransfersSucceed b := by
  unfold State.NextTransfersSucceed
  rw [List.take_add]
  constructor
  · intro h
    exact ⟨fun x hx => h x (List.mem_append_left _ hx), fun u hu x hx => h x (List.mem_append_right _ (hu ▸ hx))⟩
  rintro ⟨h1, h2⟩ x hx
  rcases List.mem_append.mp hx with hx | hx
  · exact h1 x hx
  · exact h2 { s with ioFails := s.ioFails.drop a } rfl x hx

theorem nextTransfersSucceed_one {s : State} (h : s.transferFails = false) : s.NextTransfersSucceed 1 := by
  unfold State.transferFails at h
  unfold State.NextTransfersSucceed
  cases hs : s.ioFails with
  | nil => simp
  | cons c cs => rw [hs] at h; simpa using h

/-- After a transfer that succeeds, the ones that follow. -/
theorem nextTransfersSucceed_tail {s u : State} (h : s.transferFails = false) (hu : u.ioFails = s.ioFails.tail)
    (k : Nat) : s.NextTransfersSucceed (k + 1) ↔ u.NextTransfersSucceed k := by
  have hu1 : u.ioFails = s.ioFails.drop 1 := by rw [hu, List.drop_one]
  rw [Nat.add_comm, nextTransfersSucceed_add]
  exact ⟨fun hs => hs.2 u hu1, fun hs => ⟨nextTransfersSucceed_one h, fun v hv => by
    unfold State.NextTransfersSucceed at hs ⊢
    rwa [hv, ← hu1]⟩⟩

/-! ### A source that ends too soon -/

/-- What a run of `RENORM C` begun at `s`, which with more bits and without failing transfers ends at `t`, does with the
bits and the transfers of `s`: the same, or `SHORT_READ` at the first bit past the end, or `IO_ERROR` at the first failing
transfer up to there (60_exceptions R222, R223, R238). -/
structure Fed (r : Run Unit) (s t : State) (more : Bits) : Prop where
  outcome :
    (t.rdPos ≤ s.rdBits.length ∧ s.NextTransfersSucceed (t.rdPos - s.rdPos) ∧ ∃ u : State, r = .done () u ∧
      t = (u.withMore more).unfailing ∧ u.rdBits = s.rdBits ∧ u.ioFails = s.ioFails.drop (t.rdPos - s.rdPos)) ∨
    (s.rdBits.length < t.rdPos ∧ s.NextTransfersSucceed (s.rdBits.length - s.rdPos + 1) ∧
      ∃ u, r = .raised .shortRead .renorm u) ∨
    (¬s.NextTransfersSucceed (min (t.rdPos - s.rdPos) (s.rdBits.length - s.rdPos + 1)) ∧
      ∃ u, r = .raised .ioError .renorm u)
  position : s.rdPos ≤ t.rdPos

/-- The loop never moves the read position back (20_memory R67). -/
theorem renormLoop_position {dir : Dir} (n : Nat) {s t : State} (h : renormLoop dir n s = .done () t) :
    s.rdPos ≤ t.rdPos := by
  induction n generalizing s with
  | zero => cases h
  | succ n ih =>
    by_cases hb : branchOf s.l.toNat s.h.toNat = .done
    · rw [renormLoop_done hb] at h; injection h with _ h; subst h; exact le_rfl
    · rw [renormLoop_succ hb] at h
      have hp := renormPass_all (Advances.steady s) dir (branchOf s.l.toNat s.h.toNat) (Advances.refl s)
      cases hq : renormPass dir (branchOf s.l.toNat s.h.toNat) s with
      | stopped f => rw [hq] at h; cases h
      | raised f g t => rw [hq] at h; cases h
      | done u v => rw [hq] at h hp; exact hp.position.trans (ih h)

/-- `RENORM C` on a source that ends too soon or with a transfer that fails. -/
theorem renormLoop_fed (n : Nat) {s t : State} {more : Bits} (hs : s.rdPos ≤ s.rdBits.length)
    (h : renormLoop .consume n (s.withMore more).unfailing = .done () t) :
    Fed (renormLoop .consume n s) s t more := by
  induction n generalizing s with
  | zero => cases h
  | succ n ih =>
    by_cases hb : branchOf s.l.toNat s.h.toNat = .done
    · rw [renormLoop_done (s := (s.withMore more).unfailing) hb] at h
      injection h with _ h
      subst h
      have h0 : (s.withMore more).unfailing.rdPos - s.rdPos = 0 := Nat.sub_self _
      refine ⟨.inl ⟨hs, ?_, s, renormLoop_done hb, rfl, rfl, ?_⟩, le_rfl⟩
      · rw [h0]; exact fun x hx => by simp at hx
      · rw [h0, List.drop_zero]
    rw [renormLoop_succ (s := (s.withMore more).unfailing) hb, renormPass_consume_eq] at h
    rw [renormLoop_succ hb, renormPass_consume_eq]
    have e1 : (s.withMore more).unfailing.l = s.l := rfl
    have e2 : (s.withMore more).unfailing.h = s.h := rfl
    have e3 : (s.withMore more).unfailing.value = s.value := rfl
    have e4 : (s.withMore more).unfailing.transferFails = false := rfl
    have e5 : (s.withMore more).unfailing.remaining = (s.withMore more).remaining := rfl
    simp only [e1, e2, e3, e4, e5, Bool.false_eq_true, if_false] at h ⊢
    split_ifs at h with h1 h2 h3 <;> try cases h
    rw [if_neg h1]
    rw [Run.andThen_done] at h
    have hpos : s.rdPos + 1 ≤ t.rdPos := renormLoop_position n h
    refine ⟨?_, by omega⟩
    cases hf : s.transferFails with
    | true =>
      obtain ⟨j, hj⟩ : ∃ j, min (t.rdPos - s.rdPos) (s.rdBits.length - s.rdPos + 1) = j + 1 :=
        ⟨_, (Nat.succ_pred_eq_of_pos (by omega)).symm⟩
      exact .inr (.inr ⟨fun hn => by simp [(hj ▸ hn).first] at hf, _, rfl⟩)
    | false =>
      simp only [Bool.false_eq_true, if_false]
      by_cases hr : s.rdBits.length ≤ s.rdPos
      · rw [if_pos hr, show s.rdBits.length - s.rdPos = 0 by omega]
        exact .inr (.inl ⟨by omega, nextTransfersSucceed_one hf, _, rfl⟩)
      have hbit := s.withMore_next more (by omega)
      rw [hbit] at h3
      rw [if_neg hr, if_neg h3, Run.andThen_done]
      have hu : Fed (renormLoop .consume n (s.consumePass (branchOf s.l.toNat s.h.toNat)))
          (s.consumePass (branchOf s.l.toNat s.h.toNat)) t more := by
        refine ih (show s.rdPos + 1 ≤ s.rdBits.length by omega) (Eq.trans ?_ h)
        congr 1
        simp only [State.consumePass, State.withMore, State.unfailing, State.remaining] at hbit ⊢
        rw [hbit]
        rfl
      have htail := nextTransfersSucceed_tail (u := s.consumePass (branchOf s.l.toNat s.h.toNat)) hf rfl
      have hk : t.rdPos - s.rdPos = t.rdPos - (s.rdPos + 1) + 1 := by omega
      have ha : s.rdBits.length - s.rdPos = s.rdBits.length - (s.rdPos + 1) + 1 := by omega
      rcases hu.outcome with ⟨a, b, u, c, d, e, f⟩ | ⟨a, b, c⟩ | ⟨a, b⟩
      · refine .inl ⟨a, by rw [hk, htail]; exact b, u, c, d, e, ?_⟩
        rw [f, hk, ← List.drop_tail]
        rfl
      · exact .inr (.inl ⟨a, by rw [ha, htail]; exact b, c⟩)
      · refine .inr (.inr ⟨?_, b⟩)
        rw [hk, ha, Nat.add_min_add_right, htail]
        exact a

/-! ### Failing transfers -/

/-- How many transfers of one bit lie between two states of a symbol's shifts: the bits written and read (log 25). -/
def transfers (s t : State) : Nat := t.wrBits.length - s.wrBits.length + (t.rdPos - s.rdPos)

/-- What a run begun at `s`, which without failing transfers ends at `t`, does with the transfers of `s`: the same if
they succeed, else `IO_ERROR` in stage `RENORM` (60_exceptions R222). The streams have not moved back. -/
structure Charged (r : Run Unit) (s t : State) : Prop where
  outcome :
    (s.NextTransfersSucceed (transfers s t) ∧ ∃ u : State, r = .done () u ∧ t = u.unfailing ∧
      u.ioFails = s.ioFails.drop (transfers s t)) ∨
    (¬s.NextTransfersSucceed (transfers s t) ∧ ∃ u, r = .raised .ioError .renorm u)
  bits : s.wrBits.length ≤ t.wrBits.length
  position : s.rdPos ≤ t.rdPos
  unfailing : t.unfailing = t

/-- A run of no transfers. -/
theorem Charged.none {r : Run Unit} {s u : State} (hr : r = .done () u) (h1 : u.wrBits = s.wrBits)
    (h2 : u.rdPos = s.rdPos) (h3 : u.ioFails = s.ioFails) : Charged r s u.unfailing := by
  have htr : transfers s u.unfailing = 0 := by simp [transfers, State.unfailing, h1, h2]
  refine ⟨.inl ?_, by simp [State.unfailing, h1], by simp [State.unfailing, h2], rfl⟩
  rw [htr]
  exact ⟨fun x hx => by simp at hx, u, hr, rfl, h3⟩

/-- One transfer, which goes through to `u` or fails. -/
theorem Charged.one {r : Run Unit} {s u : State} (htr : transfers s u = 1) (h1 : s.wrBits.length ≤ u.wrBits.length)
    (h2 : s.rdPos ≤ u.rdPos) (hr : s.transferFails = false → r = .done () u) (h3 : u.ioFails = s.ioFails.tail)
    (hf : s.transferFails = true → ∃ w, r = .raised .ioError .renorm w) : Charged r s u.unfailing := by
  have htr' : transfers s u.unfailing = 1 := htr
  refine ⟨?_, h1, h2, rfl⟩
  rw [htr']
  rcases Bool.eq_false_or_eq_true s.transferFails with h | h
  · exact .inr ⟨fun hn => (by simp [hn.first (k := 0)] at h), hf h⟩
  · exact .inl ⟨nextTransfersSucceed_one h, u, hr h, rfl, by rw [h3, List.drop_one]⟩

theorem Charged.andThen {r : Run Unit} {k : Unit → State → Run Unit} {s t v : State} (h1 : Charged r s t)
    (h2 : ∀ u : State, t = u.unfailing → Charged (k () u) u v) : Charged (r.andThen k) s v := by
  have ht := h2 t h1.unfailing.symm
  have hsum : ∀ u : State, t = u.unfailing → transfers s v = transfers s t + transfers u v := by
    intro u hu
    have e1 : t.wrBits = u.wrBits := by rw [hu]; rfl
    have e2 : t.rdPos = u.rdPos := by rw [hu]; rfl
    have := h1.bits
    have := h1.position
    have := ht.bits
    have := ht.position
    simp only [transfers, ← e1, ← e2]
    omega
  refine ⟨?_, h1.bits.trans ht.bits, h1.position.trans ht.position, ht.unfailing⟩
  rcases h1.outcome with ⟨a, u, b, c, d⟩ | ⟨a, u, b⟩
  · rw [b, hsum u c, nextTransfersSucceed_add]
    rcases (h2 u c).outcome with ⟨e, w, f, g, i⟩ | ⟨e, w, f⟩
    · refine .inl ⟨⟨a, fun x hx y hy => e y ?_⟩, w, f, g, by rw [i, d, List.drop_drop]⟩
      rw [d]; rwa [hx] at hy
    · exact .inr ⟨fun h => e (h.2 u d), w, f⟩
  · rw [b, hsum t h1.unfailing.symm, nextTransfersSucceed_add]
    exact .inr ⟨fun h => a h.1, u, rfl⟩

theorem writeRepeated_charged (b : Bool) (k : Nat) (s : State) :
    Charged (writeRepeated .renorm b k s) s { s.unfailing with wrBits := s.wrBits ++ List.replicate k b } := by
  induction k generalizing s with
  | zero =>
    have h : Charged (writeRepeated .renorm b 0 s) s s.unfailing := .none rfl rfl rfl rfl
    simpa [State.unfailing] using h
  | succ k ih =>
    rw [writeRepeated]
    refine Charged.andThen (t := (s.afterTransfer.appendBits [b]).unfailing)
      (.one ?_ ?_ le_rfl (fun h => ?_) rfl fun h => ?_) fun u hu => ?_
    · simp [transfers, State.appendBits, State.afterTransfer]
    · simp [State.appendBits, State.afterTransfer]
    · rw [bsWrite_ok (by decide) (by decide) h, bitsOf_ofBool]
    · rw [bsWrite_fails (by decide) (by decide) h]; exact ⟨_, rfl⟩
    · have hw : s.wrBits ++ [b] = u.wrBits := congrArg State.wrBits hu
      have hs : ({ s.unfailing with wrBits := s.wrBits ++ List.replicate (k + 1) b } : State) =
          { u.unfailing with wrBits := u.wrBits ++ List.replicate k b } := by
        rw [← hu, ← hw]; simp [State.unfailing, State.appendBits, State.afterTransfer, List.replicate_succ]
      rw [hs]
      exact ih u

/-- The group of a bit and its follow-bits. -/
theorem bitPlusFollow_charged (b : Bool) (s : State) :
    Charged (bitPlusFollow .renorm b s) s { s.unfailing with
      wrBits := s.wrBits ++ b :: List.replicate s.bitsToFollow (!b), bitsToFollow := 0 } := by
  refine (writeRepeated_charged b 1 s).andThen fun u hu => ?_
  refine (writeRepeated_charged (!b) u.bitsToFollow u).andThen fun w hw => ?_
  have h1 : s.wrBits ++ List.replicate 1 b = u.wrBits := (congrArg State.wrBits hu :)
  have h2 : s.bitsToFollow = u.bitsToFollow := (congrArg State.bitsToFollow hu :)
  have e : ({ s.unfailing with
      wrBits := s.wrBits ++ b :: List.replicate s.bitsToFollow (!b), bitsToFollow := 0 } : State) =
      ({ w with bitsToFollow := 0 } : State).unfailing := by
    rw [show ({ w with bitsToFollow := 0 } : State).unfailing = { w.unfailing with bitsToFollow := 0 } from rfl, ← hw,
      ← hu, ← h1, ← h2]
    simp [State.unfailing]
  rw [e]
  exact .none rfl rfl rfl rfl

theorem branchOutput_charged (dir : Dir) (b : Branch) {s t : State}
    (h : branchOutput dir b s.unfailing = .done () t) : Charged (branchOutput dir b s) s t := by
  have hbpf : ∀ {b : Bool}, bitPlusFollow .renorm b s.unfailing = .done () t →
      Charged (bitPlusFollow .renorm b s) s t := by
    intro b h
    rw [bitPlusFollow_ok _ _ _ fun x hx => by simp [State.unfailing] at hx] at h
    injection h with _ h
    subst h
    simpa [State.unfailing] using bitPlusFollow_charged b s
  have hnone : ∀ u : State, u.wrBits = s.wrBits → u.rdPos = s.rdPos → u.ioFails = s.ioFails → u.unfailing = t →
      Charged (.done () u) s t := fun u h1 h2 h3 h4 => h4 ▸ .none rfl h1 h2 h3
  cases dir with
  | consume => injection h with _ h; exact hnone s rfl rfl rfl h
  | emit =>
    cases b with
    | e2 => exact hbpf h
    | e1 => exact hbpf h
    | e3 => injection h with _ h; exact hnone { s with bitsToFollow := s.bitsToFollow + 1 } rfl rfl rfl h
    | done => injection h with _ h; exact hnone s rfl rfl rfl h

theorem shiftStep_charged (dir : Dir) (off : Nat) {s t : State} (h : shiftStep dir off s.unfailing = .done () t) :
    Charged (shiftStep dir off s) s t := by
  unfold shiftStep at h ⊢
  by_cases hg : s.l.toNat < off ∨ s.h.toNat < off ∨ (consumes dir = true ∧ s.value.toNat < off)
  · exact absurd ((if_pos hg).symm.trans h) (by simp)
  rw [if_neg hg]
  replace h := (if_neg hg).symm.trans h
  cases dir with
  | emit =>
    simp only [shiftInput, Run.andThen_done] at h ⊢
    by_cases hk : top < 2 * (s.l.toNat - off) ∨ top < 2 * (s.h.toNat - off) + 1 ∨
        (consumes .emit = true ∧ top < 2 * (s.value.toNat - off) + (0 : Count).toNat)
    · exact absurd ((if_pos hk).symm.trans h) (by simp)
    · rw [if_neg hk]
      have h := (if_neg hk).symm.trans h
      injection h with _ h
      subst h
      exact .none rfl rfl rfl rfl
  | consume =>
    simp only [shiftInput] at h ⊢
    by_cases hr : 1 ≤ s.remaining.length
    · rw [bsRead_one (s := s.unfailing) rfl hr, Run.andThen_done] at h
      by_cases hk : top < 2 * (s.l.toNat - off) ∨ top < 2 * (s.h.toNat - off) + 1 ∨
          (consumes .consume = true ∧
            top < 2 * (s.value.toNat - off) + (BitVec.ofNat 64 (s.remaining.headD false).toNat).toNat)
      · exact absurd ((if_pos hk).symm.trans h) (by simp)
      · have h := (if_neg hk).symm.trans h
        injection h with _ h
        subst h
        refine .one (u := State.mk _ _ _ _ _ _ _ _ _ _ _ _ _ _ _ _ _ _) ?_ le_rfl (Nat.le_succ _) (fun hf => ?_) rfl
          fun hf => ?_
        · simp [transfers, State.unfailing, State.afterTransfer]
        · rw [bsRead_one hf hr, Run.andThen_done]; exact if_neg hk
        · rw [bsRead_fails (by decide) (by decide) hf]; exact ⟨_, rfl⟩
    · rw [bsRead_short (s := s.unfailing) (by decide) (by decide) rfl (by change s.remaining.length < 1; omega)] at h
      cases h

theorem renormPass_charged (dir : Dir) (b : Branch) {s t : State} (h : renormPass dir b s.unfailing = .done () t) :
    Charged (renormPass dir b s) s t := by
  rw [renormPass] at h ⊢
  cases ho : branchOutput dir b s.unfailing with
  | stopped f => rw [ho] at h; cases h
  | raised f g u => rw [ho] at h; cases h
  | done x u =>
    rw [ho, Run.andThen_done] at h
    exact (branchOutput_charged dir b ho).andThen fun v hv => shiftStep_charged dir _ (hv ▸ h)

/-- `RENORM` that goes through where no transfer fails does the same if the transfers it makes succeed, and else raises
`IO_ERROR` in stage `RENORM` (42_renormalizer R165, 60_exceptions R222). -/
theorem renormLoop_charged (dir : Dir) (n : Nat) {s t : State} (h : renormLoop dir n s.unfailing = .done () t) :
    Charged (renormLoop dir n s) s t := by
  induction n generalizing s with
  | zero => cases h
  | succ n ih =>
    by_cases hb : branchOf s.l.toNat s.h.toNat = .done
    · rw [renormLoop_done (s := s.unfailing) hb] at h
      injection h with _ h
      subst h
      exact .none (renormLoop_done hb) rfl rfl rfl
    · rw [renormLoop_succ (s := s.unfailing) hb] at h
      rw [renormLoop_succ hb]
      cases hp : renormPass dir (branchOf s.l.toNat s.h.toNat) s.unfailing with
      | stopped f => exact absurd ((congrArg (Run.andThen · _) hp).symm.trans h) (by simp)
      | raised f g u => exact absurd ((congrArg (Run.andThen · _) hp).symm.trans h) (by simp)
      | done x u =>
        have h := (congrArg (Run.andThen · _) hp).symm.trans h
        exact (renormPass_charged dir _ hp).andThen fun v hv => ih (hv ▸ h)

/-! ### Operations that read no bit -/

/-- Every end of the run leaves the read position at `p`. -/
def Run.ReadsNone {α : Type} (p : Nat) (r : Run α) : Prop := r.All fun t => t.rdPos = p

theorem bsWrite_readsNone {p : Nat} (stage : Stage) (v : Count) (n : Nat) {s : State} (h : s.rdPos = p) :
    (bsWrite stage v n s).ReadsNone p := by
  unfold bsWrite; split_ifs <;> exact h

theorem bsFlush_readsNone {p : Nat} (stage : Stage) {s : State} (h : s.rdPos = p) : (bsFlush stage s).ReadsNone p := by
  unfold bsFlush; dsimp only; split_ifs <;> exact h

theorem narrowInterval_readsNone {p : Nat} (v : Sym) {s : State} (h : s.rdPos = p) :
    (narrowInterval v s).ReadsNone p := by
  unfold narrowInterval; split_ifs <;> exact h

theorem bitPlusFollow_readsNone {p : Nat} (stage : Stage) (b : Bool) {s : State} (h : s.rdPos = p) :
    (bitPlusFollow stage b s).ReadsNone p :=
  bitPlusFollow_all (P := fun t => t.rdPos = p) (fun _ _ h => h) (fun _ _ h => h) stage b h

theorem renormPass_readsNone {p : Nat} (b : Branch) {s : State} (h : s.rdPos = p) :
    (renormPass .emit b s).ReadsNone p := by
  refine Run.All.then (branchOutput_all (P := fun t => t.rdPos = p) (fun _ _ h => h) (fun _ _ h => h) .emit b h)
    fun _ s h => ?_
  unfold shiftStep
  split
  · exact h
  · simp only [shiftInput, Run.andThen_done]
    split <;> exact h

/-- `RENORM E` reads no bit (42_renormalizer R165). -/
theorem renormalize_readsNone {p : Nat} {s : State} (h : s.rdPos = p) : (renormalize .emit s).ReadsNone p := by
  have hloop : ∀ (n : Nat) {s : State}, s.rdPos = p → (renormLoop .emit n s).All (fun _ => True) →
      (renormLoop .emit n s).ReadsNone p := by
    intro n
    induction n with
    | zero => exact fun _ h => h.elim
    | succ n ih =>
      intro s h ht
      by_cases hb : branchOf s.l.toNat s.h.toNat = .done
      · rw [renormLoop_done hb]; exact h
      · rw [renormLoop_succ hb] at ht ⊢
        have hp := renormPass_readsNone (branchOf s.l.toNat s.h.toNat) h
        cases hq : renormPass .emit (branchOf s.l.toNat s.h.toNat) s with
        | done a t => rw [hq] at hp ht; exact ih hp ht
        | raised f g t => rw [hq] at hp; exact hp
        | stopped f => rw [hq] at hp; exact hp.elim
  exact hloop _ h (renormalize_all steady_true .emit trivial)

/-- The operations that read bits: `DEC_BEGIN`, `DEC_SYM`, `RENORM C`, `READBITS` (20_memory R65). -/
def reads : Instr → Bool
  | .decBegin | .decSym | .readbits _ | .renorm .consume => true
  | .encBegin _ | .encSym _ | .encEnd | .decEnd | .abort | .tNew | .tIend _ | .tSym _ | .tUpd _ | .narrow _
  | .renorm .emit | .bpf _ | .writebits _ _ | .flush => false

/-- Every other operation leaves the read position alone. -/
theorem body_readsNone {i : Instr} (hi : reads i = false) (s : State) : (body i s).ReadsNone s.rdPos := by
  cases i with
  | decBegin => cases hi
  | decSym => cases hi
  | readbits n => cases hi
  | renorm d =>
    cases d with
    | consume => cases hi
    | emit => exact (renormalize_readsNone rfl).then fun _ _ h => h
  | encBegin n =>
    rw [body, encBeginBody]
    split_ifs
    · rfl
    · exact (bsWrite_readsNone _ _ _ rfl).then fun _ _ h => h
  | encSym v =>
    rw [body, encSymBody]
    split_ifs
    · rfl
    · rfl
    · exact (narrowInterval_readsNone v rfl).then fun _ _ h => (renormalize_readsNone h).then fun _ _ h => h
  | encEnd =>
    rw [body, encEndBody]
    split_ifs
    · rfl
    · rfl
    · exact Run.All.then (bitPlusFollow_readsNone (p := s.rdPos) _ _ rfl) fun _ _ h =>
        (bsWrite_readsNone _ _ _ h).then fun _ _ h => (bsFlush_readsNone _ h).then fun _ _ h => h
  | decEnd => rw [body, decEndBody]; split_ifs <;> rfl
  | abort => rw [body, abortBody]; split_ifs <;> rfl
  | tNew => rfl
  | tIend i => exact (tableIntervalEnd_all (P := fun t => t.rdPos = s.rdPos) _ _ rfl).then fun _ _ h => h
  | tSym i => exact (tableSymbolFor_all (P := fun t => t.rdPos = s.rdPos) _ _ rfl).then fun _ _ h => h
  | tUpd v => rfl
  | narrow v => exact (narrowInterval_readsNone v rfl).then fun _ _ h => h
  | bpf b => exact (bitPlusFollow_readsNone _ _ rfl).then fun _ _ h => h
  | writebits v n => exact (bsWrite_readsNone _ _ _ rfl).then fun _ _ h => h
  | flush => exact (bsFlush_readsNone _ rfl).then fun _ _ h => h

end Sys2Proof.Machine
end

