-- ==== Sys2Proof/Laws/PerInstr.lean ====
section
/-! SUPPORT. Facts of every operation as syntax, one lemma per constructor. Family RowMatch: the word an operation is
encoded as selects the operation's own row of the opcode table (30_encoding R105). -/

namespace Sys2Proof.Laws.RowMatch

/-- The encoded word selects the operation's own row. -/
def Statement (i : Instr) : Prop := i.row.selects (encode i) = true

/-- A word with the pattern's high part and zeros under the mask elsewhere selects the row. -/
theorem and_append {m n : Nat} (a p : BitVec m) (b q : BitVec n) : (a ++ b) &&& (p ++ q) = (a &&& p) ++ (b &&& q) := by
  ext i hi
  simp only [BitVec.getElem_and, BitVec.getElem_append]
  split <;> simp

theorem encBegin (n : Count) : Statement (.encBegin n) := by
  show ((0x1#4 ++ n) &&& (0xF#4 ++ 0#64) == (0x1#4 ++ 0#64)) = true
  rw [beq_iff_eq, and_append, BitVec.and_zero]; rfl

theorem encSym (v : Sym) : Statement (.encSym v) := by
  show ((0x2#4 ++ 0#56 ++ v) &&& (0xF#4 ++ BitVec.allOnes 56 ++ 0#8) == (0x2#4 ++ 0#56 ++ 0#8)) = true
  rw [beq_iff_eq, and_append, and_append, BitVec.and_zero]; rfl

theorem encEnd : Statement .encEnd := by unfold Statement; decide
theorem decBegin : Statement .decBegin := by unfold Statement; decide
theorem decSym : Statement .decSym := by unfold Statement; decide
theorem decEnd : Statement .decEnd := by unfold Statement; decide
theorem abort : Statement .abort := by unfold Statement; decide
theorem tNew : Statement .tNew := by unfold Statement; decide

theorem tIend (idx : BitVec 9) : Statement (.tIend idx) := by
  show ((1#2 ++ 0#21 ++ idx) &&& (3#2 ++ BitVec.allOnes 21 ++ 0#9) == (1#2 ++ 0#21 ++ 0#9)) = true
  rw [beq_iff_eq, and_append, and_append, BitVec.and_zero]; rfl

theorem tSym (p : BitVec 30) : Statement (.tSym p) := by
  show ((2#2 ++ p) &&& (3#2 ++ 0#30) == (2#2 ++ 0#30)) = true
  rw [beq_iff_eq, and_append, BitVec.and_zero]; rfl

theorem tUpd (s : Sym) : Statement (.tUpd s) := by
  show ((3#2 ++ 0#22 ++ s) &&& (3#2 ++ BitVec.allOnes 22 ++ 0#8) == (3#2 ++ 0#22 ++ 0#8)) = true
  rw [beq_iff_eq, and_append, and_append, BitVec.and_zero]; rfl

theorem narrow (s : Sym) : Statement (.narrow s) := by
  show ((0#2 ++ s) &&& (3#2 ++ 0#8) == (0#2 ++ 0#8)) = true
  rw [beq_iff_eq, and_append, BitVec.and_zero]; rfl

theorem renorm (dir : Dir) : Statement (.renorm dir) := by cases dir <;> unfold Statement <;> decide
theorem bpf (b : Bool) : Statement (.bpf b) := by cases b <;> unfold Statement <;> decide

theorem writebits (v : Count) (n : BitVec 7) : Statement (.writebits v n) := by
  show ((0#2 ++ n ++ v) &&& (3#2 ++ 0#7 ++ 0#64) == (0#2 ++ 0#7 ++ 0#64)) = true
  rw [beq_iff_eq, and_append, and_append, BitVec.and_zero, BitVec.and_zero]; rfl

theorem readbits (n : BitVec 7) : Statement (.readbits n) := by
  show ((1#2 ++ n ++ 0#64) &&& (3#2 ++ 0#7 ++ BitVec.allOnes 64) == (1#2 ++ 0#7 ++ 0#64)) = true
  rw [beq_iff_eq, and_append, and_append, BitVec.and_zero]; rfl

theorem flush : Statement .flush := by unfold Statement; decide

end Sys2Proof.Laws.RowMatch
end

