-- ==== Sys2Proof/Tests/Slice0.lean ====
section
/-! SUPPORT. Tests: expected values are the spec's own vectors (95_test_vectors) or its encodings written out by hand;
after them a witness for the hypotheses of every obligation that has some. -/

namespace Sys2Proof.Tests

open Sys2Proof.Machine

set_option Elab.async false

/-- A next state that passes a check. -/
def passes (o : Host.Outcome State Fault Refusal) (check : State → Bool) : Bool :=
  match o with
  | .next t => check t
  | .fault _ => false
  | .refused _ => false

/-- The next state of an outcome, `s` if there is none. -/
def nextOf (s : State) (o : Host.Outcome State Fault Refusal) : State :=
  match o with
  | .next t => t
  | .fault _ => s
  | .refused _ => s

theorem eq_next {o : Host.Outcome State Fault Refusal} (s : State) (h : passes o (fun _ => true) = true) :
    o = .next (nextOf s o) := by
  cases o with
  | next t => rfl
  | fault f => cases h
  | refused r => cases h

/-- A state with given bounds and pending bits, in an encode run of 5 symbols with a fresh table. -/
def encoding (l h : Word) (pending : Nat) (done : Count) : State :=
  { State.reset with
    mode := .enc, l := l, h := h, bitsToFollow := pending, nTotal := 5, symIdx := done, table := Table.fresh }

/-- The same in a decode run, with its window and its source. -/
def decoding (l h value : Word) (source : List Byte) (pos : Nat) (done : Count) : State :=
  { State.reset with
    mode := .dec, l := l, h := h, value := value, nTotal := 5, symIdx := done, table := Table.fresh
    rdBits := unpack source, rdPos := pos }

/-- The same state where the next transfer fails. -/
def failing (s : State) : State := { s with ioFails := [true] }

/-- A faulted state: vector E9v. -/
def faulted : State :=
  { State.reset with mode := .fault, fault := { code := .badMode, symIdx := 0, stage := .command } }

/-- A table with `count[1] = a`, every other count 1. -/
def skewed (a : Nat) : Table :=
  { count := entries fun i => if i = 0 then 0 else if i = 1 then a else 1
    interval := entries fun i => if i = 0 then 0 else i + a - 1
    totalCount := a + 255 }

/-! ### Well-formedness: each check refuses an ill-formed term (30_encoding R102, R104, R107) -/

theorem test_tIend_257_illFormed : ¬(Instr.tIend 257).WellFormed := by decide
theorem test_tIend_256_wellFormed : (Instr.tIend 256).WellFormed := by decide
theorem test_writebits_65_illFormed : ¬(Instr.writebits 0 65).WellFormed := by decide
theorem test_readbits_65_illFormed : ¬(Instr.readbits 65).WellFormed := by decide
theorem test_readbits_64_wellFormed : (Instr.readbits 64).WellFormed := by decide

/-! ### Decoding: words written out from the formats of 30_encoding R101 to R104, one a constructor -/

/-- `op = 0001`, `arg = 5` -/
theorem test_decode_encBegin : decode (.host 0x10000000000000005) = .ok (.encBegin 5) := by decide
/-- `op = 0010`, `arg[7:0] = 0x41` -/
theorem test_decode_encSym : decode (.host 0x20000000000000041) = .ok (.encSym 0x41) := by decide
theorem test_decode_encEnd : decode (.host 0x30000000000000000) = .ok .encEnd := by decide
theorem test_decode_decBegin : decode (.host 0x40000000000000000) = .ok .decBegin := by decide
theorem test_decode_decSym : decode (.host 0x50000000000000000) = .ok .decSym := by decide
theorem test_decode_decEnd : decode (.host 0x60000000000000000) = .ok .decEnd := by decide
/-- `arg` is ignored by `ABORT` -/
theorem test_decode_abort : decode (.host 0x7FFFFFFFFFFFFFFFF) = .ok .abort := by decide
theorem test_decode_tNew : decode (.aft 0x00000000) = .ok .tNew := by decide
/-- `op = 01`, `idx = 1_0000_0000` -/
theorem test_decode_tIend : decode (.aft 0b01_000000000000000000000_100000000) = .ok (.tIend 256) := by decide
theorem test_decode_tSym : decode (.aft 0b10_000000000000000000000100000001) = .ok (.tSym 257) := by decide
theorem test_decode_tUpd : decode (.aft 0b11_0000000000000000000000_11111111) = .ok (.tUpd 0xFF) := by decide
theorem test_decode_narrow : decode (.rn 0b00_01000001) = .ok (.narrow 0x41) := by decide
theorem test_decode_renorm : decode (.rn 0b01_00000001) = .ok (.renorm .consume) := by decide
theorem test_decode_bpf : decode (.rn 0b10_00000001) = .ok (.bpf true) := by decide
/-- `op = 00`, `n = 0001001`, `val = 0x1FF` -/
theorem test_decode_writebits : decode (.bsb 0x00900000000000001FF) = .ok (.writebits 0x1FF 9) := by decide
/-- `op = 01`, `n = 0000111`, `val = 0` -/
theorem test_decode_readbits : decode (.bsb 0x0870000000000000000) = .ok (.readbits 7) := by decide
theorem test_decode_flush : decode (.bsb 0x1000000000000000000) = .ok .flush := by decide

/-- Reserved `op` values, must-be-zero bits, operand ranges (30_encoding R107; vectors E14v, R5v, T6, B16). -/
theorem test_decode_refuses :
    decode (.host 0x00000000000000000) = .error .reservedOp ∧
      decode (.host 0x80000000000000000) = .error .reservedOp ∧
      decode (.rn 0x300) = .error .reservedOp ∧
      decode (.bsb 0x1800000000000000000) = .error .reservedOp ∧
      decode (.host 0x20000000000000100) = .error .mustBeZero ∧
      decode (.aft 0x00000001) = .error .mustBeZero ∧
      decode (.rn 0x102) = .error .mustBeZero ∧
      decode (.aft 0x40000101) = .error .indexRange ∧
      decode (.bsb 0x0410000000000000000) = .error .widthRange ∧
      decode (.bsb 0x0C10000000000000000) = .error .widthRange := by decide

/-- The opcode table's words in the table's numbering (log 24). -/
theorem test_decodeTableWord :
    decodeTableWord 72 0x20000000000000041 = some (.encSym 0x41) ∧ decodeTableWord 32 0xC0000005 = some (.tUpd 5) ∧
      decodeTableWord 16 0x200 = some (.bpf false) ∧
      decodeTableWord 80 0x1000000000000000000 = some .flush ∧ decodeTableWord 16 0x400 = none := by decide

/-! ### The host commands -/

/-- Section 2.1: 61 zeros, then 101; E13v's state. -/
theorem test_encBegin_header :
    passes (exec (.encBegin 5) State.reset) (fun t =>
      t.wrBits == List.replicate 61 false ++ [true, false, true] && t.mode == .enc && t.h == 0xFFFFFFFF &&
        t.table.totalCount == 256) = true := by decide +kernel

/-- E12v -/
theorem test_encBegin_twice :
    passes (exec (.encBegin 1) (encoding 0 0xFFFFFFFF 0 0)) (fun t =>
      t.mode == .fault && t.fault == { code := .badMode, symIdx := 0, stage := .command }) = true := by decide +kernel

/-- Section 2.1, row 0, with N2's symbol: E2, E1, E2 x5, E1. -/
theorem test_encSym_verbatim :
    passes (exec (.encSym 0x41) (encoding 0 0xFFFFFFFF 0 0)) (fun t =>
      t.wrBits == [false, true, false, false, false, false, false, true] && t.l == 0 && t.h == 0xFFFFFFFF &&
        t.symIdx == 1 && t.table.iv 0x42 == 0x43 && t.table.totalCount == 257) = true := by decide +kernel

/-- E10v: the count is reached. -/
theorem test_encSym_mismatch :
    passes (exec (.encSym 0) (encoding 0 0xFFFFFFFF 0 5)) (fun t =>
      t.fault == { code := .countMismatch, symIdx := 5, stage := .command }) = true := by decide +kernel

/-- Section 2.1's end: from 98 bits (here 2, the same modulo 8) with `bitsToFollow = 2`. -/
theorem test_encEnd_terminates :
    passes (exec .encEnd { encoding 0x293EA000 0xE1EE5DFF 2 5 with wrBits := [true, true] }) (fun t =>
      t.sink == [0xDC, 0xA4, 0xFA, 0x80, 0x00] && t.mode == .idle) = true := by decide +kernel

/-- E1v's payload: `l = 0`, so the quarter bit is 0. -/
theorem test_encEnd_empty :
    passes (exec .encEnd { encoding 0 0xFFFFFFFF 0 0 with nTotal := 0 }) (fun t =>
      t.sink == [0x40, 0, 0, 0, 0]) = true := by decide +kernel

/-- Section 2.2: the first 12 bytes of the worked stream (D9v). -/
theorem test_decBegin_window :
    passes (exec .decBegin { State.reset with rdBits := unpack [0, 0, 0, 0, 0, 0, 0, 5, 0x00, 0x01, 0xFE, 0x07] })
      (fun t => t.response == some { status := 0, result := some 5 } && t.value == 0x0001FE07 && t.rdPos == 96 &&
        t.nTotal == 5 && t.mode == .dec) = true := by decide +kernel

/-- D10v -/
theorem test_decBegin_short :
    passes (exec .decBegin { State.reset with rdBits := unpack [0, 0, 0, 0, 0, 0, 0, 5, 0x00, 0x01, 0xFE] })
      (fun t => t.fault == { code := .shortRead, symIdx := 0, stage := .window }) = true := by decide +kernel

/-- D4v: `position = 65`, 8 bits read. -/
theorem test_decSym_first :
    passes (exec .decSym (decoding 0 0xFFFFFFFF 0x41400000 [0] 0 0)) (fun t =>
      t.response == some { status := 0, result := some 0x41 } && t.value == 0x40000000 && t.rdPos == 8 &&
        t.symIdx == 1 && t.table.totalCount == 257) = true := by decide +kernel

/-- D9v: no bit left. -/
theorem test_decSym_short :
    passes (exec .decSym (decoding 0 0xFFFFFFFF 0x0001FE07 [] 0 0)) (fun t =>
      t.fault == { code := .shortRead, symIdx := 0, stage := .renorm }) = true := by decide +kernel

theorem test_decEnd_ends :
    passes (exec .decEnd (decoding 0 0xFFFFFFFF 0 [0] 3 5)) (fun t => t.mode == .idle && t.rdPos == 3) = true := by
  decide +kernel

/-- Section 3.5: `DEC_END` after four of five symbols. -/
theorem test_decEnd_mismatch :
    passes (exec .decEnd (decoding 0 0xFFFFFFFF 0 [0] 3 4)) (fun t =>
      t.fault == { code := .countMismatch, symIdx := 4, stage := .command }) = true := by decide +kernel

/-- R4v: the fault is cleared. -/
theorem test_abort_clears :
    passes (exec .abort faulted) (fun t => t.mode == .idle && t.fault == FaultRecord.clear) = true := by decide +kernel

/-- R2v: the bits stay, nothing is written. -/
theorem test_abort_keepsBits :
    passes (exec .abort { encoding 0 0xFFFFFFFF 0 1 with wrBits := [true] }) (fun t =>
      t.mode == .idle && t.wrBits == [true] && t.sink == []) = true := by decide +kernel

/-! ### The table (section 3.2) -/

/-- T1 -/
theorem test_tNew :
    passes (exec .tNew State.reset) (fun t =>
      t.table.cnt 0 == 0 && t.table.cnt 1 == 1 && t.table.cnt 256 == 1 && t.table.iv 255 == 255 &&
        t.table.totalCount == 256) = true := by decide +kernel

/-- T1: `T_IEND 255 -> 256` -/
theorem test_tIend_last :
    passes (exec (.tIend 256) { State.reset with table := Table.fresh }) (fun t =>
      t.response == some { status := 0, result := some 256 }) = true := by decide +kernel

/-- T6, typed -/
theorem test_tIend_range :
    passes (exec (.tIend 257) State.reset) (fun t =>
      t.fault == { code := .tableRange, symIdx := 0, stage := .none }) = true := by decide +kernel

/-- Program 4, steps 6 to 8 in one: after `T_UPD 0`, 1 is of symbol 0 and 2 of symbol 1. -/
theorem test_tSym_bounds :
    passes (exec (.tSym 1) { State.reset with table := skewed 2 })
        (fun t => t.response == some { status := 0, result := some 0 }) = true ∧
      passes (exec (.tSym 2) { State.reset with table := skewed 2 })
        (fun t => t.response == some { status := 0, result := some 1 }) = true := by decide +kernel

/-- T5: 256 is out of range. -/
theorem test_tSym_range :
    passes (exec (.tSym 256) { State.reset with table := Table.fresh }) (fun t =>
      t.fault == { code := .tableRange, symIdx := 0, stage := .none }) = true := by decide +kernel

/-- T3: the increment starts at the symbol's own entry. -/
theorem test_tUpd_last :
    passes (exec (.tUpd 255) { State.reset with table := Table.fresh }) (fun t =>
      t.table.cnt 256 == 2 && t.table.iv 255 == 255 && t.table.iv 256 == 257 && t.table.totalCount == 257) = true := by
  decide +kernel

/-- T8: the rescale at `COUNT_BITS = 9`. -/
theorem test_tUpd_rescales :
    passes (exec (.tUpd 0) { State.reset with cfg := ⟨9, by decide⟩, table := skewed 255 }) (fun t =>
      t.table.cnt 1 == 128 && t.table.cnt 2 == 1 && t.table.iv 1 == 128 && t.table.iv 2 == 129 &&
        t.table.totalCount == 383) = true := by decide +kernel

/-! ### The renormalizer (section 3.3) -/

/-- N4: floor division by 257. -/
theorem test_narrow_floors :
    passes (exec (.narrow 1) { State.reset with h := 0xFFFFFFFF, table := skewed 2 }) (fun t =>
      t.l == 0x01FE01FE && t.h == 0x02FD02FC) = true := by decide +kernel

/-- N7 -/
theorem test_narrow_crossed :
    passes (exec (.narrow 0) { State.reset with l := 0x90000000, h := 0x10000000 }) (fun t =>
      t.fault == { code := .intervalOverflow, symIdx := 0, stage := .narrow }) = true := by decide +kernel

/-- N-L3 -/
theorem test_renorm_emit :
    passes (exec (.renorm .emit) (encoding 0x4FEF915C 0x516B1BC4 0 0)) (fun t =>
      t.l == 0x7BE45700 && t.h == 0xDAC6F13F && t.bitsToFollow == 3 && t.wrBits == [false, true, false]) = true := by
  decide +kernel

/-- The example of `RENORM C` at the end of section 3.3. -/
theorem test_renorm_consume :
    passes (exec (.renorm .consume) (decoding 0x41000000 0x41FFFFFF 0x41400000 [0] 0 0)) (fun t =>
      t.l == 0 && t.h == 0xFFFFFFFF && t.value == 0x40000000 && t.rdPos == 8) = true := by decide +kernel

/-- F3 -/
theorem test_bpf_zero :
    passes (exec (.bpf false) { State.reset with bitsToFollow := 3 }) (fun t =>
      t.wrBits == [false, true, true, true] && t.bitsToFollow == 0) = true := by decide +kernel

/-- F4 -/
theorem test_bpf_one :
    passes (exec (.bpf true) { State.reset with bitsToFollow := 2 }) (fun t =>
      t.wrBits == [true, false, false] && t.bitsToFollow == 0) = true := by decide +kernel

/-! ### The bit stream (section 3.1) -/

/-- B1 -/
theorem test_writebits_order :
    passes (exec (.writebits 5 3) State.reset) (fun t => t.wrBits == [true, false, true]) = true := by decide +kernel

/-- B17 -/
theorem test_writebits_io :
    passes (exec (.writebits 0 1) { State.reset with ioFails := [true] }) (fun t =>
      t.fault == { code := .ioError, symIdx := 0, stage := .none } &&
        t.response == some { status := 1, result := none }) = true := by decide +kernel

/-- B10: across a byte boundary. -/
theorem test_readbits_crosses :
    passes (exec (.readbits 7) { State.reset with rdBits := unpack [0xA5, 0xC0], rdPos := 3 }) (fun t =>
      t.response == some { status := 0, result := some 0x17 } && t.rdPos == 10) = true := by decide +kernel

/-- B11 -/
theorem test_readbits_short :
    passes (exec (.readbits 7) { State.reset with rdBits := unpack [0xA5, 0xC0], rdPos := 10 }) (fun t =>
      t.fault.code == .shortRead && t.mode == .fault) = true := by decide +kernel

/-- B3 -/
theorem test_flush_pads :
    passes (exec .flush { State.reset with wrBits := true :: false :: List.replicate 10 true }) (fun t =>
      t.sink == [0xBF, 0xF0] && t.wrBits.length == 16) = true := by decide +kernel

/-- B7: no pad bit. -/
theorem test_flush_whole :
    passes (exec .flush { State.reset with wrBits := unpack [0x12, 0x34] }) (fun t =>
      t.sink == [0x12, 0x34] && t.wrBits.length == 16) = true := by decide +kernel

/-! ### The step -/

/-- A word placed for the next step runs: R5v, and `ENC_BEGIN 5`. -/
theorem test_step_word :
    passes (step (State.reset.withFetchWord 72 0x10000000000000005)) (fun t =>
        t.mode == .enc && t.nTotal == 5 && t.inbox == [] && t.tick == 1) = true ∧
      passes (step (State.reset.withFetchWord 72 0x90000000000000000)) (fun t =>
        t.fault == { code := .illegalCmd, symIdx := 0, stage := .command }) = true := by decide +kernel

/-- R3v, R6v: in `FAULT` commands are refused with the standing code. -/
theorem test_step_refused :
    passes (step (faulted.withFetchWord 72 0x10000000000000001)) (fun t =>
        t.mode == .fault && t.response == some { status := 5, result := some 0 }) = true ∧
      passes (step (faulted.withFetchWord 72 0x90000000000000000)) (fun t =>
        t.fault == faulted.fault && t.response == some { status := 5, result := some 0 }) = true := by decide +kernel

/-- Reset in the middle of `ENC_SYM 0x41`, which writes 8 bits and reads none (N-L2), and of a refused `DEC_BEGIN`: the
read side stands where it stood, of what is written a part stays (70_reset R260). -/
theorem test_reset_midCommand :
    (∃ t, handle (.resetDuring (.host 0x20000000000000041))
        { encoding 0 0xFFFFFFFF 0 0 with rdBits := unpack [1, 2, 3, 4] } = .next t ∧
      t.mode = .idle ∧ t.rdPos = 0 ∧ t.wrBits.length ≤ 8) ∧
    ∃ t, handle (.resetDuring (.host 0x40000000000000000)) { faulted with rdBits := unpack [1, 2, 3, 4] } = .next t ∧
      t.mode = .idle ∧ t.rdPos = 0 ∧ t.wrBits = [] := by
  have h : ∀ (r : Request) (s : State) (k : Nat),
      (match progress r s with
        | .done _ u => u.rdPos == s.rdPos && u.wrBits.length ≤ k && s.wrBits.length ≤ k
        | .raised _ _ _ => false
        | .stopped _ => false) = true →
      ∃ t, handle (.resetDuring r) s = .next t ∧ t.mode = .idle ∧ t.rdPos = s.rdPos ∧ t.wrBits.length ≤ k := by
    intro r s k h
    cases hp : progress r s with
    | done x u =>
      simp only [hp, Bool.and_eq_true, beq_iff_eq, decide_eq_true_eq] at h
      refine ⟨s.cutOff u, by rw [handle, hp], rfl, by simp [keptReads, h.1.1], ?_⟩
      simp only [State.cutOff_wrBits, keptBits, front_eq_take, List.length_append, List.length_take, List.length_drop]
      omega
    | raised f g u => simp [hp] at h
    | stopped f => simp [hp] at h
  refine ⟨h _ _ 8 (by decide +kernel), ?_⟩
  obtain ⟨t, h1, h2, h3, h4⟩ := h (.host 0x40000000000000000) { faulted with rdBits := unpack [1, 2, 3, 4] } 0
    (by decide +kernel)
  exact ⟨t, h1, h2, h3, List.length_eq_zero_iff.mp (by omega)⟩

/-! ### Witnesses: for each obligation with hypotheses, inputs that meet them, clause by clause -/

theorem skewed_valid (cfg : Config) (a : Nat) (h : 1 ≤ a) (h' : a + 255 < cfg.ceiling) : (skewed a).Valid cfg where
  zeroBase := by simp [skewed]
  positive := by
    intro i h1 hi
    simp only [skewed, Table.cnt_entries, if_pos (show i < 257 by omega), if_neg (show i ≠ 0 by omega)]
    split <;> omega
  sums := by
    intro i hi
    simp only [skewed, Table.cnt_entries, Table.iv_entries, if_pos (show i < 257 by omega),
      if_pos (show i + 1 < 257 by omega), if_neg (show i + 1 ≠ 0 by omega)]
    split <;> split <;> omega
  total := by
    show a + 255 = _
    simp only [skewed, Table.iv_entries, if_pos (show 256 < 257 by omega), if_neg (show (256 : Nat) ≠ 0 by omega)]
    omega
  bounds := ⟨by show 256 ≤ a + 255; omega, h'⟩

/-- The smallest legal configuration. -/
def nine : Config := ⟨9, by decide⟩

/-- The table of T7 and T8, one update before the rescale. -/
theorem skewed_nine : (skewed 255).Valid nine := skewed_valid nine 255 (by decide) (by decide)

theorem encoding_runInv {l h : Word} {pending : Nat} {done : Count}
    (hw : l.toNat < half ∧ half ≤ h.toNat ∧ (l.toNat < firstQuart ∨ thirdQuart ≤ h.toNat)) (hd : done.toNat ≤ 5) :
    (encoding l h pending done).RunInv :=
  ⟨fun _ => Table.fresh_valid _, fun _ => ⟨hw.1, hw.2.1, hw.2.2⟩, fun hm => (nomatch hm), fun _ => hd⟩

theorem decoding_runInv {l h value : Word} {source : List Byte} {pos : Nat} {done : Count}
    (hw : l.toNat < half ∧ half ≤ h.toNat ∧ (l.toNat < firstQuart ∨ thirdQuart ≤ h.toNat))
    (hv : l.toNat ≤ value.toNat ∧ value.toNat ≤ h.toNat) (hd : done.toNat ≤ 5) :
    (decoding l h value source pos done).RunInv :=
  ⟨fun _ => Table.fresh_valid _, fun _ => ⟨hw.1, hw.2.1, hw.2.2⟩, fun _ => hv, fun _ => hd⟩

theorem noFails (s : State) (h : s.ioFails = []) : s.NoTransferFails := by simp [State.NoTransferFails, h]

theorem nextSucceed (s : State) (k : Nat) (h : s.ioFails = []) : s.NextTransfersSucceed k := by
  simp [State.NextTransfersSucceed, h]

theorem witness_DecodeInvertsEncode :
    (Instr.tIend 256).WellFormed ∧ (Instr.writebits 0xFFFFFFFFFFFFFFFF 64).WellFormed ∧ (Instr.readbits 0).WellFormed := by
  decide

theorem witness_EncodeInvertsDecode :
    decode (.bsb 0x0400000000000000000) = .ok (.writebits 0 64) ∧ decode (.host 0x7FFFFFFFFFFFFFFFF) = .ok .abort := by
  decide

theorem witness_DecodeFollowsTheOpcodeTable : decode (.rn 0x201) = .ok (.bpf true) := by decide

theorem witness_OpcodeRowsAreDisjoint :
    (Instr.abort.row ∈ tableRows ∧ Instr.abort.row.selects (.host 0x7FFFFFFFFFFFFFFFF) = true) ∧
      Instr.flush.row ∈ tableRows ∧ Instr.flush.row.selects (.bsb 0x1000000000000000000) = true := by decide

/-- A reserved `op`; an index out of range in a row whose bits match. -/
theorem witness_UnselectedWordRaisesIllegalCmd :
    ¬SelectsOperation (.host 0x90000000000000000) ∧ ¬SelectsOperation (.aft 0x40000101) ∧ State.reset.mode ≠ .fault := by
  refine ⟨?_, ?_, by decide⟩
  · rintro ⟨h, -⟩
    exact absurd h (by decide)
  · rintro ⟨-, h⟩
    exact absurd (h (by decide)) (by decide)

theorem witness_TIendReturnsTheIntervalEntry :
    ({ State.reset with table := Table.fresh }).table.Fits State.reset.cfg ∧ (256#9).toNat ≤ 256 ∧
      256 < (257#9).toNat ∧ ({ State.reset with table := Table.fresh }).mode ≠ .fault :=
  ⟨(Table.fresh_valid _).fits, by decide, by decide, by decide⟩

theorem witness_TSymReturnsTheContainingSymbol :
    ({ State.reset with table := Table.fresh }).table.Valid State.reset.cfg ∧ (255#30).toNat < Table.fresh.totalCount ∧
      Table.fresh.totalCount ≤ (256#30).toNat ∧ ({ State.reset with table := Table.fresh }).mode ≠ .fault :=
  ⟨Table.fresh_valid _, by decide, by decide, by decide⟩

/-- Below the ceiling by one update more (T7's state before its last update), at it (T8), and with an injected total at
the ceiling before the increment, one bit too wide after it. -/
theorem witness_TUpdIncrementsAndRescales :
    ((skewed 254).Valid nine ∧ (skewed 254).totalCount + 1 < nine.ceiling) ∧
      ((skewed 255).Valid nine ∧ nine.ceiling ≤ (skewed 255).totalCount + 1) ∧
      (skewed 256).totalCount + 1 = 2 ^ nine.countBits ∧ nine.ceiling ≤ (skewed 256).totalCount + 1 ∧
      (skewed 256).cnt ((0 : Sym).toNat + 1) < nine.ceiling :=
  ⟨⟨skewed_valid nine 254 (by decide) (by decide), by decide⟩, ⟨skewed_nine, by decide⟩, by decide, by decide,
    by decide +kernel⟩

theorem witness_TUpdKeepsTheTableInvariants :
    (skewed 255).Valid nine ∧
      ∃ t, exec (.tUpd 0) { State.reset with cfg := nine, table := skewed 255 } = .next t :=
  ⟨skewed_nine, _, rfl⟩

theorem witness_RescaleKeepsTheRanking :
    (skewed 255).Valid nine ∧ nine.ceiling ≤ (skewed 255).totalCount + 1 ∧
      (∃ t, exec (.tUpd 0) { State.reset with cfg := nine, table := skewed 255 } = .next t) ∧
      (skewed 255).cnt 256 ≤ (skewed 255).cnt 1 + 1 := by
  refine ⟨skewed_nine, by decide, ⟨_, rfl⟩, ?_⟩
  simp [skewed]

theorem witness_NarrowMapsTheSymbolToItsSubinterval :
    ((encoding 0 0xFFFFFFFF 0 0).table.Valid (encoding 0 0xFFFFFFFF 0 0).cfg ∧
        (encoding 0 0xFFFFFFFF 0 0).l.toNat ≤ (encoding 0 0xFFFFFFFF 0 0).h.toNat ∧
        1 ≤ (encoding 0 0xFFFFFFFF 0 0).l.toNat + (encoding 0 0xFFFFFFFF 0 0).table.iv ((0 : Sym).toNat + 1) *
          ((encoding 0 0xFFFFFFFF 0 0).h.toNat - (encoding 0 0xFFFFFFFF 0 0).l.toNat + 1) /
            (encoding 0 0xFFFFFFFF 0 0).table.iv 256 ∧
        (encoding 0 0xFFFFFFFF 0 0).table.iv 256 ≤
          (encoding 0 0xFFFFFFFF 0 0).h.toNat - (encoding 0 0xFFFFFFFF 0 0).l.toNat + 1) ∧
      (encoding 0x90000000 0x10000000 0 0).h.toNat < (encoding 0x90000000 0x10000000 0 0).l.toNat ∧
      (encoding 0x90000000 0x10000000 0 0).mode ≠ .fault :=
  ⟨⟨Table.fresh_valid _, by decide, by decide +kernel, by decide +kernel⟩, by decide, by decide⟩

theorem witness_BpfWritesTheBitAndTheFollowBits :
    (encoding 0 0xFFFFFFFF 3 0).NextTransfersSucceed 4 ∧
      ¬({ encoding 0 0xFFFFFFFF 3 0 with ioFails := [false, false, false, true] }).NextTransfersSucceed 4 :=
  ⟨nextSucceed _ _ rfl, fun h => absurd (h true (by decide)) (by decide)⟩

/-- A state for each branch at its boundary (N-S5, N-S6, N-S4) and for none (N-S10). -/
theorem witness_RenormEmitTakesTheFirstBranchThatHolds :
    (∀ s ∈ [encoding 0x40000000 0x7FFFFFFF 2 0, encoding 0x80000000 0xBFFFFFFF 2 0, encoding 0x7FFFFFFF 0x80000000 2 0,
        encoding 0x40000000 0xC0000000 2 0], s.NoTransferFails ∧ s.l.toNat ≤ s.h.toNat) ∧
      (encoding 0x40000000 0x7FFFFFFF 2 0).h.toNat < half ∧ half ≤ (encoding 0x80000000 0xBFFFFFFF 2 0).l.toNat ∧
      ((encoding 0x7FFFFFFF 0x80000000 2 0).l.toNat < half ∧ half ≤ (encoding 0x7FFFFFFF 0x80000000 2 0).h.toNat ∧
        firstQuart ≤ (encoding 0x7FFFFFFF 0x80000000 2 0).l.toNat ∧
        (encoding 0x7FFFFFFF 0x80000000 2 0).h.toNat < thirdQuart) ∧
      (encoding 0x40000000 0xC0000000 2 0).Wide := by
  refine ⟨?_, by decide, by decide, by decide, by decide, by decide, by decide⟩
  intro s hs
  simp only [List.mem_cons, List.not_mem_nil, or_false] at hs
  rcases hs with rfl | rfl | rfl | rfl <;> exact ⟨noFails _ rfl, by decide⟩

/-- Each branch at its boundary, and none, with the window inside and 32 bits left. -/
theorem witness_RenormConsumeMirrorsTheBranches :
    (∀ s ∈ [decoding 0x40000000 0x7FFFFFFF 0x40000000 [1, 2, 3, 4] 0 0,
        decoding 0x80000000 0xBFFFFFFF 0xBFFFFFFF [1, 2, 3, 4] 0 0,
        decoding 0x7FFFFFFF 0x80000000 0x80000000 [1, 2, 3, 4] 0 0,
        decoding 0x40000000 0xC0000000 0x80000000 [1, 2, 3, 4] 0 0],
      s.NoTransferFails ∧ s.ValueInside ∧ s.rdPos + 32 ≤ s.rdBits.length) ∧
      (decoding 0x40000000 0x7FFFFFFF 0x40000000 [1, 2, 3, 4] 0 0).h.toNat < half ∧
      half ≤ (decoding 0x80000000 0xBFFFFFFF 0xBFFFFFFF [1, 2, 3, 4] 0 0).l.toNat ∧
      ((decoding 0x7FFFFFFF 0x80000000 0x80000000 [1, 2, 3, 4] 0 0).l.toNat < half ∧
        half ≤ (decoding 0x7FFFFFFF 0x80000000 0x80000000 [1, 2, 3, 4] 0 0).h.toNat ∧
        firstQuart ≤ (decoding 0x7FFFFFFF 0x80000000 0x80000000 [1, 2, 3, 4] 0 0).l.toNat ∧
        (decoding 0x7FFFFFFF 0x80000000 0x80000000 [1, 2, 3, 4] 0 0).h.toNat < thirdQuart) ∧
      (decoding 0x40000000 0xC0000000 0x80000000 [1, 2, 3, 4] 0 0).Wide := by
  refine ⟨?_, by decide, by decide, by decide, by decide, by decide, by decide⟩
  intro s hs
  simp only [List.mem_cons, List.not_mem_nil, or_false] at hs
  rcases hs with rfl | rfl | rfl | rfl <;>
    exact ⟨noFails _ rfl, ⟨by decide +kernel, by decide +kernel⟩, by decide +kernel⟩

/-- One pass from a `value` outside the interval: above `h`, after which the interval is wide; below `l`, after which the
next pass raises. -/
theorem witness_RenormConsumeMirrorsTheBranches_outside :
    let above := decoding 0 0x7FFFFFFE 0x7FFFFFFF [0xFF] 0 0
    let below := decoding 0x40000000 0x7FFFFFFF 0x3FFFFFFF [0xFF] 0 0
    let after := fun s : State => { s with
      l := BitVec.ofNat 32 (2 * (s.l.toNat - 0)), h := BitVec.ofNat 32 (2 * (s.h.toNat - 0) + 1)
      value := BitVec.ofNat 32 (2 * (s.value.toNat - 0) + s.nextBit.toNat)
      rdPos := s.rdPos + 1, ioFails := s.ioFails.tail }
    (∀ s ∈ [above, below], s.mode ≠ .fault ∧ s.ShiftsBy 0 ∧ 0 ≤ s.value.toNat ∧ s.transferFails = false ∧
        s.rdPos < s.rdBits.length ∧ 2 * (s.l.toNat - 0) ≤ top ∧
        2 * (s.value.toNat - 0) + s.nextBit.toNat ≤ top) ∧
      (∃ t, exec (.renorm .consume) (after above) = .next t ∧ t.mode ≠ .fault) ∧
      (∃ t, exec (.renorm .consume) (after below) = .next t ∧ below.Faulted t .intervalOverflow .renorm) ∧
      (decoding 0x40000000 0xC0000000 0 [] 0 0).Wide := by
  refine ⟨?_, ⟨_, eq_next State.reset (by decide +kernel), by decide +kernel⟩,
    ⟨_, eq_next State.reset (by decide +kernel), by decide +kernel, by decide +kernel, by decide +kernel⟩,
    by decide, by decide, by decide⟩
  intro s hs
  simp only [List.mem_cons, List.not_mem_nil, or_false] at hs
  rcases hs with rfl | rfl <;>
    exact ⟨by decide, .inl ⟨by decide, rfl⟩, by decide, rfl, by decide, by decide, by decide +kernel⟩

/-- The widest run of shifts, from a width of 1 (section 3.3's note on N-L4). -/
theorem witness_RenormEmitEndsWide :
    (encoding 0x55555555 0x55555555 0 0).NoTransferFails ∧
      (encoding 0x55555555 0x55555555 0 0).l.toNat ≤ (encoding 0x55555555 0x55555555 0 0).h.toNat :=
  ⟨noFails _ rfl, by decide⟩

theorem witness_RenormConsumeEndsWide :
    (decoding 0x55555555 0x55555555 0x55555555 [1, 2, 3, 4] 0 0).NoTransferFails ∧
      (decoding 0x55555555 0x55555555 0x55555555 [1, 2, 3, 4] 0 0).ValueInside ∧
      (decoding 0x55555555 0x55555555 0x55555555 [1, 2, 3, 4] 0 0).rdPos + 32 ≤
        (decoding 0x55555555 0x55555555 0x55555555 [1, 2, 3, 4] 0 0).rdBits.length :=
  ⟨noFails _ rfl, ⟨by decide +kernel, by decide +kernel⟩, by decide +kernel⟩

/-- N-R1 -/
theorem witness_CrossedBoundsReportOverflow :
    (encoding 0x90000000 0x10000000 0 0).NoTransferFails ∧
      (encoding 0x90000000 0x10000000 0 0).h.toNat < (encoding 0x90000000 0x10000000 0 0).l.toNat ∧
      (encoding 0x90000000 0x10000000 0 0).mode ≠ .fault :=
  ⟨noFails _ rfl, by decide, by decide⟩

/-- The guard: N-R3 (E1), and E3 at its boundary. -/
theorem witness_ValueBelowTheOffsetReportsOverflow :
    ((decoding 0x80000000 0xFFFFFFFF 0x10000000 [0] 0 0).mode ≠ .fault ∧
        (decoding 0x80000000 0xFFFFFFFF 0x10000000 [0] 0 0).ShiftsBy half ∧
        (decoding 0x80000000 0xFFFFFFFF 0x10000000 [0] 0 0).value.toNat < half) ∧
      (decoding 0x40000000 0xBFFFFFFF 0x3FFFFFFF [0] 0 0).ShiftsBy firstQuart ∧
      (decoding 0x40000000 0xBFFFFFFF 0x3FFFFFFF [0] 0 0).value.toNat < firstQuart :=
  ⟨⟨by decide, .inr (.inl ⟨by decide, by decide, rfl⟩), by decide⟩,
    .inr (.inr ⟨by decide, by decide, by decide, by decide, rfl⟩), by decide⟩

/-- The post-shift check of `value` at its boundary in E2 and E3, and of `l` from the crossed bounds of R167. -/
theorem witness_ValueBelowTheOffsetReportsOverflow_shifted :
    (∀ s ∈ [decoding 0 0x7FFFFFFF 0x80000000 [0] 0 0, decoding 0x40000000 0xBFFFFFFF 0xC0000000 [0] 0 0,
        decoding 0x90000000 0x10000000 0 [0] 0 0],
      s.mode ≠ .fault ∧ s.transferFails = false ∧ s.rdPos < s.rdBits.length) ∧
      ((decoding 0 0x7FFFFFFF 0x80000000 [0] 0 0).ShiftsBy 0 ∧
        top < 2 * ((decoding 0 0x7FFFFFFF 0x80000000 [0] 0 0).value.toNat - 0) +
          (decoding 0 0x7FFFFFFF 0x80000000 [0] 0 0).nextBit.toNat) ∧
      ((decoding 0x40000000 0xBFFFFFFF 0xC0000000 [0] 0 0).ShiftsBy firstQuart ∧
        firstQuart ≤ (decoding 0x40000000 0xBFFFFFFF 0xC0000000 [0] 0 0).value.toNat ∧
        top < 2 * ((decoding 0x40000000 0xBFFFFFFF 0xC0000000 [0] 0 0).value.toNat - firstQuart) +
          (decoding 0x40000000 0xBFFFFFFF 0xC0000000 [0] 0 0).nextBit.toNat) ∧
      (decoding 0x90000000 0x10000000 0 [0] 0 0).ShiftsBy 0 ∧
      top < 2 * ((decoding 0x90000000 0x10000000 0 [0] 0 0).l.toNat - 0) := by
  refine ⟨?_, ⟨.inl ⟨by decide, rfl⟩, by decide +kernel⟩,
    ⟨.inr (.inr ⟨by decide, by decide, by decide, by decide, rfl⟩), by decide, by decide +kernel⟩,
    .inl ⟨by decide, rfl⟩, by decide⟩
  intro s hs
  simp only [List.mem_cons, List.not_mem_nil, or_false] at hs
  rcases hs with rfl | rfl | rfl <;> exact ⟨by decide, rfl, by decide⟩

theorem witness_WritebitsAppendsTheLowBits :
    ((64#7).toNat ≤ 64 ∧ State.reset.transferFails = false) ∧
      ((1#7).toNat ≤ 64 ∧ (1#7) ≠ 0 ∧ ({ State.reset with ioFails := [true] }).transferFails = true ∧
        ({ State.reset with ioFails := [true] }).mode ≠ .fault) ∧
      64 < (65#7).toNat ∧ State.reset.mode ≠ .fault := by decide

/-- Exactly enough bits (B12), one too few (B11), a failing transfer, 65 bits (B16). -/
theorem witness_ReadbitsTakesTheNextBits :
    ((decoding 0 0xFFFFFFFF 0 [0xA5, 0xC0] 10 0).transferFails = false ∧
        (decoding 0 0xFFFFFFFF 0 [0xA5, 0xC0] 10 0).rdPos + (6#7).toNat ≤
          (decoding 0 0xFFFFFFFF 0 [0xA5, 0xC0] 10 0).rdBits.length) ∧
      (decoding 0 0xFFFFFFFF 0 [0xA5, 0xC0] 10 0).rdBits.length <
        (decoding 0 0xFFFFFFFF 0 [0xA5, 0xC0] 10 0).rdPos + (7#7).toNat ∧
      ({ State.reset with ioFails := [true] }).transferFails = true ∧ 64 < (65#7).toNat ∧
      (decoding 0 0xFFFFFFFF 0 [0xA5, 0xC0] 10 0).mode ≠ .fault := by decide +kernel

theorem witness_FlushPadsAndFillsTheSink :
    ({ State.reset with wrBits := [true] }).transferFails = false ∧
      ({ State.reset with ioFails := [true] }).transferFails = true ∧
      ({ State.reset with ioFails := [true] }).mode ≠ .fault := by decide

theorem witness_PackingPutsTheFirstBitInBitSeven :
    15 < (unpack [0xA5, 0xC0]).length ∧ (unpack [0xA5, 0xC0]).length % 8 = 0 := by decide +kernel

theorem witness_EncBeginStartsAnEncodeRun :
    State.reset.mode = .idle ∧ State.reset.transferFails = false ∧
      ({ State.reset with ioFails := [true] }).mode = .idle ∧
      ({ State.reset with ioFails := [true] }).transferFails = true := by decide

/-- The three operations, one after the other, from the first row of section 2.1. -/
theorem witness_EncSymIsNarrowRenormUpdate :
    (encoding 0 0xFFFFFFFF 0 0).mode = .enc ∧
      (encoding 0 0xFFFFFFFF 0 0).symIdx.toNat < (encoding 0 0xFFFFFFFF 0 0).nTotal.toNat ∧
      ∃ a b c, exec (.narrow 0) (encoding 0 0xFFFFFFFF 0 0) = .next a ∧ a.mode = .enc ∧
        exec (.renorm .emit) a = .next b ∧ b.mode = .enc ∧ exec (.tUpd 0) b = .next c :=
  let a := nextOf State.reset (exec (.narrow 0) (encoding 0 0xFFFFFFFF 0 0))
  ⟨by decide, by decide, a, nextOf State.reset (exec (.renorm .emit) a), _,
    eq_next _ (by decide +kernel), by decide +kernel, eq_next _ (by decide +kernel), by decide +kernel, rfl⟩

/-- Before the last symbol, with the interval of section 2.1's row 4. -/
theorem witness_EncSymCompletes :
    (encoding 0x7B527D40 0xF85ED0BF 1 4).RunInv ∧ (encoding 0x7B527D40 0xF85ED0BF 1 4).mode = .enc ∧
      (encoding 0x7B527D40 0xF85ED0BF 1 4).symIdx.toNat < (encoding 0x7B527D40 0xF85ED0BF 1 4).nTotal.toNat ∧
      (encoding 0x7B527D40 0xF85ED0BF 1 4).NoTransferFails :=
  ⟨encoding_runInv (by decide) (by decide), by decide, by decide, noFails _ rfl⟩

theorem witness_EncEndTerminatesTheStream :
    (encoding 0x293EA000 0xE1EE5DFF 2 5).mode = .enc ∧
      (encoding 0x293EA000 0xE1EE5DFF 2 5).symIdx = (encoding 0x293EA000 0xE1EE5DFF 2 5).nTotal ∧
      (encoding 0x293EA000 0xE1EE5DFF 2 5).NextTransfersSucceed 6 :=
  ⟨by decide, by decide, nextSucceed _ _ rfl⟩

/-- With `bitsToFollow = 0`: the third transfer (the 32 bits) fails, or the fourth (the flush). -/
theorem witness_EncEndReportsTheStageOfAFailingTransfer :
    (encoding 0 0xFFFFFFFF 0 5).mode = .enc ∧ (encoding 0 0xFFFFFFFF 0 5).symIdx = (encoding 0 0xFFFFFFFF 0 5).nTotal ∧
      ¬({ encoding 0 0xFFFFFFFF 0 5 with ioFails := [false, false, true] }).NextTransfersSucceed 3 ∧
      ({ encoding 0 0xFFFFFFFF 0 5 with ioFails := [false, false, false, true] }).NextTransfersSucceed 3 ∧
      ¬({ encoding 0 0xFFFFFFFF 0 5 with ioFails := [false, false, false, true] }).NextTransfersSucceed 4 :=
  ⟨rfl, rfl, fun h => absurd (h true (by decide)) (by decide), by simp [State.NextTransfersSucceed],
    fun h => absurd (h true (by decide)) (by decide)⟩

/-- The header's transfer fails; the window's does, with the 64 bits of the header there. -/
theorem witness_DecBeginReportsTheStageOfAFailingTransfer :
    State.reset.mode = .idle ∧ ({ State.reset with ioFails := [true] }).transferFails = true ∧
      ({ State.reset with ioFails := [false, true] }).transferFails = false ∧
      0 + 64 ≤ (unpack (List.replicate 8 0)).length ∧
      ¬({ State.reset with ioFails := [false, true] }).NextTransfersSucceed 2 :=
  ⟨rfl, rfl, rfl, by decide +kernel, fun h => absurd (h true (by decide)) (by decide)⟩

/-- The first bit of the symbol fails. -/
theorem witness_EncSymFaultsOnlyOnIo :
    ({ encoding 0 0xFFFFFFFF 0 0 with ioFails := [true] }).RunInv ∧
      ({ encoding 0 0xFFFFFFFF 0 0 with ioFails := [true] }).mode = .enc ∧
      ({ encoding 0 0xFFFFFFFF 0 0 with ioFails := [true] }).symIdx.toNat <
        ({ encoding 0 0xFFFFFFFF 0 0 with ioFails := [true] }).nTotal.toNat ∧
      ∃ t, exec (.encSym 0) { encoding 0 0xFFFFFFFF 0 0 with ioFails := [true] } = .next t ∧ t.mode = .fault :=
  ⟨⟨fun _ => Table.fresh_valid _, fun _ => ⟨by decide, by decide, by decide⟩, fun hm => (nomatch hm), fun _ => by decide⟩,
    by decide, by decide, _, eq_next State.reset (by decide +kernel), by decide +kernel⟩

theorem witness_DecBeginReadsHeaderAndWindow :
    ({ State.reset with rdBits := unpack (List.replicate 12 0) }).mode = .idle ∧
      ({ State.reset with rdBits := unpack (List.replicate 12 0) }).NextTransfersSucceed 2 ∧
      ({ State.reset with rdBits := unpack (List.replicate 12 0) }).rdPos + 96 ≤
        ({ State.reset with rdBits := unpack (List.replicate 12 0) }).rdBits.length :=
  ⟨by decide, nextSucceed _ _ rfl, by decide +kernel⟩

/-- 7 bytes (D11v), 8 and 11 bytes (D10v). -/
theorem witness_DecBeginOnAShortStreamRaisesShortRead :
    (∀ k ∈ [7, 8, 11], ({ State.reset with rdBits := unpack (List.replicate k 0) }).mode = .idle ∧
        ({ State.reset with rdBits := unpack (List.replicate k 0) }).NextTransfersSucceed 2) ∧
      (unpack (List.replicate 7 0)).length < 0 + 64 ∧ 0 + 64 ≤ (unpack (List.replicate 8 0)).length ∧
      (unpack (List.replicate 11 0)).length < 0 + 96 :=
  ⟨fun _ _ => ⟨rfl, nextSucceed _ _ rfl⟩, by decide +kernel, by decide +kernel, by decide +kernel⟩

/-- The operations one after the other on D4v's state: position 65, symbol 0x41. -/
theorem witness_DecSymIsSearchNarrowRenormUpdate :
    let s := decoding 0 0xFFFFFFFF 0x41400000 [0] 0 0
    s.mode = .dec ∧ s.symIdx.toNat < s.nTotal.toNat ∧ s.ValueInside ∧ s.table.Valid s.cfg ∧
      (65#30).toNat = ((s.value.toNat - s.l.toNat + 1) * s.table.iv 256 - 1) / (s.h.toNat - s.l.toNat + 1) ∧
      ∃ r a b c, exec (.tSym 65) s = .next r ∧
        r.response = some { status := 0, result := some ((0x41#8).setWidth 64) } ∧
        exec (.narrow 0x41) s = .next a ∧ a.mode = .dec ∧
        exec (.renorm .consume) a = .next b ∧ b.mode = .dec ∧ exec (.tUpd 0x41) b = .next c :=
  let s := decoding 0 0xFFFFFFFF 0x41400000 [0] 0 0
  let r := nextOf State.reset (exec (.tSym 65) s)
  let a := nextOf State.reset (exec (.narrow 0x41) s)
  ⟨by decide, by decide, ⟨by decide +kernel, by decide +kernel⟩, Table.fresh_valid _, by decide +kernel, r, a,
    nextOf State.reset (exec (.renorm .consume) a), _,
    eq_next _ (by decide +kernel), by decide +kernel, eq_next _ (by decide +kernel), by decide +kernel,
    eq_next _ (by decide +kernel), by decide +kernel, rfl⟩

theorem witness_DecSymCompletes :
    (decoding 0x7B527D40 0xF85ED0BF 0x7B949F50 [1, 2, 3, 4] 0 4).RunInv ∧
      (decoding 0x7B527D40 0xF85ED0BF 0x7B949F50 [1, 2, 3, 4] 0 4).mode = .dec ∧
      (decoding 0x7B527D40 0xF85ED0BF 0x7B949F50 [1, 2, 3, 4] 0 4).symIdx.toNat <
        (decoding 0x7B527D40 0xF85ED0BF 0x7B949F50 [1, 2, 3, 4] 0 4).nTotal.toNat ∧
      (decoding 0x7B527D40 0xF85ED0BF 0x7B949F50 [1, 2, 3, 4] 0 4).NoTransferFails ∧
      (decoding 0x7B527D40 0xF85ED0BF 0x7B949F50 [1, 2, 3, 4] 0 4).rdPos + 32 ≤
        (decoding 0x7B527D40 0xF85ED0BF 0x7B949F50 [1, 2, 3, 4] 0 4).rdBits.length :=
  ⟨decoding_runInv (by decide) (by decide) (by decide), by decide +kernel, by decide +kernel, noFails _ rfl,
    by decide +kernel⟩

/-- D9v: no bit is left. -/
theorem witness_DecodingFaultsOnlyOnTheStream :
    (State.reset.mode = .idle ∧ ∃ t, exec .decBegin State.reset = .next t ∧ t.mode = .fault) ∧
      (decoding 0 0xFFFFFFFF 0x0001FE07 [] 0 0).RunInv ∧ (decoding 0 0xFFFFFFFF 0x0001FE07 [] 0 0).mode = .dec ∧
      (decoding 0 0xFFFFFFFF 0x0001FE07 [] 0 0).symIdx.toNat < (decoding 0 0xFFFFFFFF 0x0001FE07 [] 0 0).nTotal.toNat ∧
      ∃ t, exec .decSym (decoding 0 0xFFFFFFFF 0x0001FE07 [] 0 0) = .next t ∧ t.mode = .fault :=
  ⟨⟨rfl, _, eq_next State.reset (by decide +kernel), by decide +kernel⟩,
    decoding_runInv (by decide) (by decide) (by decide), by decide, by decide, _,
    eq_next State.reset (by decide +kernel), by decide +kernel⟩

theorem witness_DecEndEndsTheRun :
    (decoding 0 0xFFFFFFFF 0 [0] 3 5).mode = .dec ∧
      (decoding 0 0xFFFFFFFF 0 [0] 3 5).symIdx = (decoding 0 0xFFFFFFFF 0 [0] 3 5).nTotal := by decide +kernel

/-- Symbol 0x41 coded and recovered from the whole interval (N-L2, D4v). -/
theorem witness_EncoderAndDecoderStayMirrored :
    let e := encoding 0 0xFFFFFFFF 0 0
    let d := decoding 0 0xFFFFFFFF 0x41400000 [0] 0 0
    e.RunInv ∧ d.RunInv ∧ e.mode = .enc ∧ d.mode = .dec ∧ e.symIdx.toNat < e.nTotal.toNat ∧
      d.symIdx.toNat < d.nTotal.toNat ∧ e.cfg = d.cfg ∧ e.l = d.l ∧ e.h = d.h ∧ e.table = d.table ∧
      ∃ te td, exec (.encSym 0x41) e = .next te ∧ te.mode = .enc ∧ exec .decSym d = .next td ∧ td.mode = .dec ∧
        td.response = some { status := 0, result := some ((0x41#8).setWidth 64) } :=
  ⟨encoding_runInv (by decide) (by decide), decoding_runInv (by decide) (by decide) (by decide), by decide, by decide,
    by decide, by decide, rfl, rfl, rfl, rfl, nextOf State.reset (exec (.encSym 0x41) (encoding 0 0xFFFFFFFF 0 0)),
    nextOf State.reset (exec .decSym (decoding 0 0xFFFFFFFF 0x41400000 [0] 0 0)),
    eq_next _ (by decide +kernel), by decide +kernel, eq_next _ (by decide +kernel), by decide +kernel,
    by decide +kernel⟩

theorem witness_AbortReturnsToIdle : State.reset.mode = .idle ∧ State.reset.FaultInv :=
  ⟨rfl, ⟨fun h => (nomatch h), fun _ => rfl⟩⟩

/-- Each of the commands in a mode that does not allow it (E9v, E12v, R7v, section 3.5). -/
theorem witness_CommandInTheWrongModeRaisesBadMode :
    State.reset.mode ≠ .fault ∧ (encoding 0 0xFFFFFFFF 0 0).mode ≠ .fault ∧
      (encoding 0 0xFFFFFFFF 0 0).mode ≠ .idle ∧ State.reset.mode ≠ .enc ∧ State.reset.mode ≠ .dec := by decide

theorem witness_WrongSymbolCountRaisesCountMismatch :
    ((encoding 0 0xFFFFFFFF 0 5).mode = .enc ∧ (encoding 0 0xFFFFFFFF 0 5).symIdx = (encoding 0 0xFFFFFFFF 0 5).nTotal) ∧
      ((decoding 0 0xFFFFFFFF 0 [] 0 5).mode = .dec ∧
        (decoding 0 0xFFFFFFFF 0 [] 0 5).symIdx = (decoding 0 0xFFFFFFFF 0 [] 0 5).nTotal) ∧
      ((encoding 0 0xFFFFFFFF 0 4).mode = .enc ∧ (encoding 0 0xFFFFFFFF 0 4).symIdx ≠ (encoding 0 0xFFFFFFFF 0 4).nTotal) ∧
      (decoding 0 0xFFFFFFFF 0 [] 0 4).mode = .dec ∧
      (decoding 0 0xFFFFFFFF 0 [] 0 4).symIdx ≠ (decoding 0 0xFFFFFFFF 0 [] 0 4).nTotal := by decide +kernel

theorem witness_FaultModeRefusesCommands :
    faulted.mode = .fault ∧ Instr.decEnd.isHost = true ∧ Instr.decEnd ≠ .abort ∧
      ¬SelectsOperation (.host 0x90000000000000000) ∧ ¬SelectsOperation (.aft 0x40000101) ∧
      ∀ w, Request.aft 0x40000101 ≠ .host w :=
  ⟨rfl, rfl, by decide, witness_UnselectedWordRaisesIllegalCmd.1, witness_UnselectedWordRaisesIllegalCmd.2.1,
    fun _ h => nomatch h⟩

theorem witness_FaultEntryRecordsTheFault :
    State.reset.mode ≠ .fault ∧ ∃ t, exec (.encSym 0) State.reset = .next t ∧ t.mode = .fault :=
  ⟨by decide, _, eq_next State.reset (by decide +kernel), by decide +kernel⟩

/-- A unit operation that raises where a fault stands. -/
theorem witness_FirstFaultStands :
    faulted.mode = .fault ∧ Instr.tIend 257 ≠ .abort ∧ ∃ t, exec (.tIend 257) faulted = .next t :=
  ⟨rfl, by decide, _, rfl⟩

theorem witness_ModeChangesOnlyByRunControl : ∃ t, exec (.encBegin 0) State.reset = .next t :=
  ⟨_, eq_next State.reset (by decide +kernel)⟩

theorem witness_StreamsOnlyAdvance : ∃ t, exec (.writebits 5 3) State.reset = .next t :=
  ⟨_, eq_next State.reset (by decide +kernel)⟩

theorem witness_RunsUseOneSideOfTheStream :
    (Instr.encSym 0x41).isHost = true ∧ (encoding 0 0xFFFFFFFF 0 0).mode = .enc ∧
      (∃ t, exec (.encSym 0x41) (encoding 0 0xFFFFFFFF 0 0) = .next t ∧ t.mode = .enc) ∧
      Instr.decSym.isHost = true ∧ (decoding 0 0xFFFFFFFF 0x41400000 [0] 0 0).mode = .dec ∧
      ∃ t, exec .decSym (decoding 0 0xFFFFFFFF 0x41400000 [0] 0 0) = .next t ∧ t.mode = .dec :=
  ⟨rfl, rfl, ⟨_, eq_next State.reset (by decide +kernel), by decide +kernel⟩, rfl, rfl, _,
    eq_next State.reset (by decide +kernel), by decide +kernel⟩

/-- A request that decodes, and events that are none. -/
theorem witness_StepRunsTheDecodedOperation :
    (State.reset.withFetchWord 72 0x70000000000000000).inbox = [.request (.host 0x70000000000000000)] ∧
      decode (.host 0x70000000000000000) = .ok .abort ∧
      ({ State.reset with inbox := [.reset, .attachSink] }).inbox = .reset :: [.attachSink] ∧
      State.reset.StreamsInv :=
  ⟨by decide, by decide, rfl, ⟨[], rfl⟩, Nat.le_refl _⟩

theorem witness_StepWithoutARequestWaits : State.reset.inbox = [] ∧ State.reset.StreamsInv :=
  ⟨rfl, ⟨[], rfl⟩, Nat.le_refl _⟩

/-- Operations that read none, one that reads, a success, a refused word. -/
theorem witness_ResetReturnsToIdleAndKeepsTheStreams :
    (∀ i, decode (.host 0x20000000000000041) = .ok i →
        i ≠ .decBegin ∧ i ≠ .decSym ∧ i ≠ .renorm .consume ∧ ∀ n, i ≠ .readbits n) ∧
      (∃ u, serve (.bsb 0x0870000000000000000) { State.reset with rdBits := unpack [0xA5, 0xC0] } = .next u ∧
        ∃ x, u.response = some { status := 0, result := x }) ∧
      faulted.mode = .fault ∧ ∃ w, Request.host 0x40000000000000000 = .host w := by
  refine ⟨fun i hi => ?_, ⟨_, eq_next State.reset (by decide +kernel), some 0x52, by decide +kernel⟩, rfl, _, rfl⟩
  have h : Instr.encSym 0x41 = i := Except.ok.inj ((show decode (.host 0x20000000000000041) = _ by decide).symm.trans hi)
  subst h
  exact ⟨by decide, by decide, by decide, fun n h => nomatch h⟩

/-- A state of 8 shifts to come with no bit left (D9v). -/
def shifting (source : Bits) (ioFails : List Bool) : State :=
  { decoding 0x41000000 0x41FFFFFF 0x41400000 [] 0 0 with rdBits := source, ioFails := ioFails }

/-- With 8 bits more the symbol 0x41 goes through having read 8 (D4v), with the byte there it reads none past the end; so
does `RENORM C` with one bit left and the transfer after the first one past the end failing; with no bit left, and a
branch's condition holding at once, there is none to read (D9v). -/
theorem witness_RunningOutOfBitsRaisesShortRead :
    let d := fun source => decoding 0 0xFFFFFFFF 0x41400000 source 0 0
    let r := shifting [false] [false, false, true]
    ((d []).mode ≠ .fault ∧ (d []).rdPos ≤ (d []).rdBits.length ∧
        ∃ t, exec .decSym { d [] with rdBits := (d []).rdBits ++ unpack [0], ioFails := [] } = .next t ∧
          t.mode ≠ .fault ∧ (d []).rdBits.length < t.rdPos ∧ t.rdPos ≤ (d [0]).rdBits.length ∧
          (d []).NextTransfersSucceed ((d []).rdBits.length - (d []).rdPos + 1) ∧
          (d [0]).NextTransfersSucceed (t.rdPos - (d []).rdPos)) ∧
      (r.mode ≠ .fault ∧ r.rdPos ≤ r.rdBits.length ∧
        ∃ t, exec (.renorm .consume) { r with rdBits := r.rdBits ++ unpack [0], ioFails := [] } = .next t ∧
          t.mode ≠ .fault ∧ r.rdBits.length < t.rdPos ∧
          r.NextTransfersSucceed (r.rdBits.length - r.rdPos + 1)) ∧
      (shifting [] []).mode ≠ .fault ∧ (shifting [] []).ShiftsBy 0 ∧ 0 ≤ (shifting [] []).value.toNat ∧
      (shifting [] []).transferFails = false ∧ (shifting [] []).rdBits.length ≤ (shifting [] []).rdPos :=
  ⟨⟨by decide, by decide, _, eq_next State.reset (by decide +kernel), by decide +kernel, by decide +kernel,
      by decide +kernel, nextSucceed _ _ rfl, nextSucceed _ _ rfl⟩,
    ⟨by decide, by decide, _, eq_next State.reset (by decide +kernel), by decide +kernel, by decide +kernel,
      fun x hx => by simpa [shifting, decoding] using hx⟩,
    by decide, .inl ⟨by decide, rfl⟩, by decide, rfl, by decide⟩

/-- `ENC_SYM 0x41` from the whole interval writes 8 bits (N-L2): with its last transfer failing and with none; the decoder
mirrors it (D4v). -/
theorem witness_AFailingTransferOfAShiftRaisesIoError :
    let e := encoding 0 0xFFFFFFFF 0 0
    let d := decoding 0 0xFFFFFFFF 0x41400000 [0] 0 0
    let bad := List.replicate 7 false ++ [true]
    (∃ t, exec (.encSym 0x41) { e with ioFails := [] } = .next t ∧ t.mode ≠ .fault ∧
        t.wrBits.length - e.wrBits.length + (t.rdPos - e.rdPos) = 8) ∧
      (∃ t, exec .decSym { d with ioFails := [] } = .next t ∧ t.mode ≠ .fault ∧
        t.wrBits.length - d.wrBits.length + (t.rdPos - d.rdPos) = 8) ∧
      e.NextTransfersSucceed 8 ∧ ¬({ e with ioFails := bad }).NextTransfersSucceed 8 ∧
      ¬({ d with ioFails := bad }).NextTransfersSucceed 8 ∧
      ((failing (encoding 0x40000000 0x7FFFFFFF 0 0)).h.toNat < half ∧
        ¬(failing (encoding 0x40000000 0x7FFFFFFF 0 0)).NextTransfersSucceed 1) ∧
      (half ≤ (failing (encoding 0x80000000 0xBFFFFFFF 0 0)).l.toNat ∧
        ¬(failing (encoding 0x80000000 0xBFFFFFFF 0 0)).NextTransfersSucceed 1) ∧
      (∃ t, exec (.renorm .consume)
          { shifting [false] [false, true] with rdBits := (shifting [false] []).rdBits ++ unpack [0], ioFails := [] } =
            .next t ∧ t.mode ≠ .fault ∧
          ¬(shifting [false] [false, true]).NextTransfersSucceed (min (t.rdPos - 0) (1 - 0 + 1))) ∧
      (failing (decoding 0x40000000 0x7FFFFFFF 0x40000000 [] 0 0)).ShiftsBy 0 ∧
      0 ≤ (failing (decoding 0x40000000 0x7FFFFFFF 0x40000000 [] 0 0)).value.toNat ∧
      (failing (decoding 0x40000000 0x7FFFFFFF 0x40000000 [] 0 0)).transferFails = true :=
  ⟨⟨_, eq_next State.reset (by decide +kernel), by decide +kernel, by decide +kernel⟩,
    ⟨_, eq_next State.reset (by decide +kernel), by decide +kernel, by decide +kernel⟩,
    nextSucceed _ _ rfl, fun h => absurd (h true (by decide)) (by decide), fun h => absurd (h true (by decide)) (by decide),
    ⟨by decide, fun h => absurd (h true (by decide)) (by decide)⟩,
    ⟨by decide, fun h => absurd (h true (by decide)) (by decide)⟩,
    ⟨_, eq_next State.reset (by decide +kernel), by decide +kernel, fun h => absurd (h true (by decide +kernel)) (by decide)⟩,
    .inl ⟨by decide, rfl⟩, by decide, rfl⟩

/-- Below the interval and above it. -/
theorem witness_ValueOutsideTheIntervalReportsSearchOverflow :
    (∀ s ∈ [decoding 0x10000000 0xF0000000 0x0FFFFFFF [] 0 0, decoding 0x10000000 0xF0000000 0xF0000001 [] 0 0],
      s.mode = .dec ∧ s.symIdx ≠ s.nTotal) ∧
      (decoding 0x10000000 0xF0000000 0x0FFFFFFF [] 0 0).value.toNat <
        (decoding 0x10000000 0xF0000000 0x0FFFFFFF [] 0 0).l.toNat ∧
      (decoding 0x10000000 0xF0000000 0xF0000001 [] 0 0).h.toNat <
        (decoding 0x10000000 0xF0000000 0xF0000001 [] 0 0).value.toNat := by decide +kernel

theorem witness_AttachedStreamsAreFresh : State.reset.running = false ∧ (encoding 0 0xFFFFFFFF 0 0).running = true := by
  decide

theorem witness_EveryStepKeepsTheInvariant :
    State.reset.Inv ∧ ∃ t, step (State.reset.withFetchWord 72 0x10000000000000005) = .next t :=
  ⟨⟨⟨fun h => (nomatch h), fun _ => rfl⟩, witness_StepWithoutARequestWaits.2,
    ⟨fun i hi => by simp [State.reset, Table.zero, Table.cnt, show i < 257 by omega],
      fun i hi => by simp [State.reset, Table.zero, Table.iv, show i < 257 by omega], by decide⟩⟩,
    _, eq_next State.reset (by decide +kernel)⟩

theorem witness_HostStepsKeepTheRunInvariants :
    let s := { encoding 0 0xFFFFFFFF 0 0 with inbox := [.request (.host 0x20000000000000041)] }
    s.RunInv ∧ (∀ r rest i, s.inbox = .request r :: rest → decode r = .ok i → i.isHost = true) ∧
      ∃ t, step s = .next t := by
  refine ⟨⟨fun _ => Table.fresh_valid _, fun _ => ⟨by decide, by decide, by decide⟩, fun hm => (nomatch hm),
    fun _ => by decide⟩, ?_, _, eq_next State.reset (by decide +kernel)⟩
  intro r rest i hr hd
  have hr : r = .host 0x20000000000000041 := by
    injection hr with h _
    injection h with h
    exact h.symm
  subst hr
  have hi : Instr.encSym 0x41 = i := Except.ok.inj ((show decode (.host 0x20000000000000041) = _ by decide).symm.trans hd)
  subst hi
  rfl

end Sys2Proof.Tests
end

section
/-! SUPPORT. Proofs of the statements on the state. What an operation, a request word, an event and a step can answer,
said once; from it what every step keeps. -/

namespace Sys2Proof.Machine

/-! ### What an operation, a word, an event and a step can answer -/

theorem Run.andThen_eq_done {α β : Type} {r : Run α} {k : α → State → Run β} {b : β} {t : State} :
    r.andThen k = .done b t ↔ ∃ a s, r = .done a s ∧ k a s = .done b t := by
  cases r <;> simp

/-- An operation is refused, runs through and responds, or enters the fault it raises. -/
theorem exec_cases {i : Instr} {s t : State} (h : exec i s = .next t) :
    (s.mode = .fault ∧ t = s.refuse (some 0)) ∨ (∃ r u, body i s = .done r u ∧ t = u.respond r) ∨
      ∃ f g u, body i s = .raised f g u ∧ t = s.takeFault u f g := by
  rw [exec_eq] at h
  split at h
  · next hr =>
    injection h with h
    exact .inl ⟨hr.2.2, h.symm⟩
  · cases hb : body i s with
    | done r u =>
      rw [hb, finish_done] at h
      injection h with h
      exact .inr (.inl ⟨r, u, rfl, h.symm⟩)
    | raised f g u =>
      rw [hb, finish_raised] at h
      injection h with h
      exact .inr (.inr ⟨f, g, u, rfl, h.symm⟩)
    | stopped f => rw [hb] at h; cases h

/-- A word is executed as the operation it selects, is refused in `FAULT`, or raises `ILLEGAL_CMD` (30_encoding R107). -/
theorem serve_cases {r : Request} {s t : State} (h : serve r s = .next t) :
    (∃ i, decode r = .ok i ∧ exec i s = .next t) ∨ (s.mode = .fault ∧ t = s.refuse (refusedResult r)) ∨
      (s.mode ≠ .fault ∧ t = s.takeFault s .illegalCmd .command) := by
  unfold serve at h
  split at h
  · next i hi => exact .inl ⟨i, hi, h⟩
  · unfold illegalRequest at h
    split at h
    · next hm =>
      injection h with h
      exact .inr (.inl ⟨hm, h.symm⟩)
    · next hm =>
      rw [finish_raised] at h
      injection h with h
      exact .inr (.inr ⟨hm, h.symm⟩)

/-- The answers to the events from outside (60_exceptions R245). -/
theorem handle_cases {e : HostEvent} {s t : State} (h : handle e s = .next t) :
    (∃ r, e = .request r ∧ serve r s = .next t) ∨ t = s.afterReset ∨ (∃ u, Advances s u ∧ t = s.cutOff u) ∨
      s.running = false ∧
        (t = { s with wrBits := [], sink := [] } ∨ ∃ bytes, t = { s with rdBits := unpack bytes, rdPos := 0 }) := by
  cases e with
  | request r => exact .inl ⟨r, rfl, h⟩
  | reset =>
    injection h with h
    exact .inr (.inl h.symm)
  | resetDuring r =>
    obtain ⟨u, hu, ha, -⟩ := handle_resetDuring r s
    rw [hu] at h
    injection h with h
    exact .inr (.inr (.inl ⟨u, ha, h.symm⟩))
  | attachSink =>
    rw [handle] at h
    split_ifs at h with hr
    injection h with h
    exact .inr (.inr (.inr ⟨eq_false_of_ne_true hr, .inl h.symm⟩))
  | attachSource bytes =>
    rw [handle] at h
    split_ifs at h with hr
    injection h with h
    exact .inr (.inr (.inr ⟨eq_false_of_ne_true hr, .inr ⟨bytes, h.symm⟩⟩))

theorem step_nil {s : State} (h : s.inbox = []) : step s = .next s.settle := by
  rw [step, nextEvent, h]; rfl

/-- A step waits, or handles the first event of the inbox; then it settles. -/
theorem step_cases {s t : State} (h : step s = .next t) :
    (s.inbox = [] ∧ t = s.settle) ∨
      ∃ e rest u, s.inbox = e :: rest ∧ handle e { s with inbox := rest } = .next u ∧ t = u.settle := by
  cases hi : s.inbox with
  | nil =>
    rw [step_nil hi] at h
    injection h with h
    exact .inl ⟨rfl, h.symm⟩
  | cons e rest =>
    rw [step, nextEvent, hi] at h
    dsimp only at h
    cases hu : handle e { s with inbox := rest } with
    | next u =>
      rw [hu] at h
      injection h with h
      exact .inr ⟨e, rest, u, rfl, hu, h.symm⟩
    | fault f => rw [hu] at h; cases h
    | refused f => rw [hu] at h; cases h

/-! ### The sink -/

theorem State.drain_sink (s : State) :
    s.drain.sink = s.sink ++ ((pack s.wrBits).drop s.sink.length).take (Config.free .sinkGrowth s.tick) := by
  rw [← front_eq_take]; rfl

/-- What may have moved to the sink keeps it a front of the packed bits (10_state R37). -/
theorem State.StreamsInv.drain_sink {s : State} (h : s.StreamsInv) : s.drain.sink <+: pack s.wrBits := by
  obtain ⟨rest, hrest⟩ := h.sink
  rw [State.drain_sink, ← hrest, List.drop_left]
  exact (List.prefix_append_right_inj _).mpr (List.take_prefix _ _)

theorem State.StreamsInv.settle {s : State} (h : s.StreamsInv) : s.settle.StreamsInv :=
  ⟨h.drain_sink, h.position⟩

/-! ### Streams and faults of every operation -/

theorem advances_of_exec {i : Instr} {s t : State} (h : exec i s = .next t) : Advances s t := by
  obtain ⟨u, hu, ha⟩ := exec_advances i s
  rw [hu] at h
  injection h with h
  exact h ▸ ha

/-- An operation that runs through, but for `ABORT`, is in `FAULT` after it exactly if it was before. -/
theorem body_done_mode_fault {i : Instr} {s t : State} {r : Option Count} (h : body i s = .done r t) (hi : i ≠ .abort) :
    t.mode = .fault ↔ s.mode = .fault := by
  obtain ⟨⟨hm, -⟩, hbefore⟩ := body_mode h
  rw [hm]
  cases i with
  | encBegin n => simp [modeAfter, hbefore .idle rfl]
  | decBegin => simp [modeAfter, hbefore .idle rfl]
  | encEnd => simp [modeAfter, hbefore .enc rfl]
  | decEnd => simp [modeAfter, hbefore .dec rfl]
  | abort => exact absurd rfl hi
  | _ => rfl

theorem body_raised_raisable {i : Instr} {s t : State} {f : FaultCode} {g : Stage} (h : body i s = .raised f g t) :
    f ≠ .none ∧ f ≠ .counterOverflow := by
  have hr := body_raises i s
  rw [h] at hr
  exact hr

/-- An operation that enters `FAULT` raised a fault, which shows (60_exceptions R230). -/
theorem exec_enters_fault {i : Instr} {s t : State} (hm : s.mode ≠ .fault) (h : exec i s = .next t)
    (ht : t.mode = .fault) : ∃ f g, Raisable f g ∧ s.Faulted t f g := by
  rcases exec_cases h with ⟨hf, -⟩ | ⟨r, u, hb, rfl⟩ | ⟨f, g, u, hb, rfl⟩
  · exact absurd hf hm
  · by_cases hi : i = .abort
    · subst hi
      have hu : u.mode = .idle := (body_mode hb).1.1
      rw [State.respond_mode, hu] at ht
      cases ht
    · exact absurd ((body_done_mode_fault hb hi).mp ht) hm
  · exact ⟨f, g, body_raised_raisable hb, (exec_raised hb hm).2⟩

/-! ### The invariant of every step -/

theorem State.StreamsInv.advance {s t : State} (h : s.StreamsInv) (ha : Advances s t) : t.StreamsInv :=
  ⟨ha.sink h.sink, by rw [ha.rdBits]; exact ha.positionEnd h.position⟩

theorem Advances.fits {s t : State} (ha : Advances s t) (h : s.table.Fits s.cfg) : t.table.Fits t.cfg := by
  rw [ha.cfg]; exact ha.table h

theorem State.FaultInv.refuse {s : State} (h : s.FaultInv) (r : Option Count) : (s.refuse r).FaultInv :=
  ⟨h.set, h.clear⟩

theorem State.faultInv_of_idle {s : State} (hm : s.mode = .idle) (hf : s.fault = FaultRecord.clear) : s.FaultInv :=
  ⟨fun h => absurd (hm.symm.trans h) (by decide), fun _ => hf⟩

theorem State.Faulted.faultInv {s t : State} {f : FaultCode} {g : Stage} (h : s.Faulted t f g) (hf : f ≠ .none) :
    t.FaultInv :=
  ⟨fun _ => by rw [h.record]; exact hf, fun hm => absurd h.mode hm⟩

/-- A fault raised before anything is done, outside `FAULT`, shows, as of a word that selects no operation
(60_exceptions R225). -/
theorem takeFault_faulted {s : State} (hm : s.mode ≠ .fault) (f : FaultCode) (g : Stage) :
    s.Faulted (s.takeFault s f g) f g :=
  ⟨rfl, State.faultRecordOf_eq hm f g, rfl⟩

/-- The record is set exactly in `FAULT` after every operation: one that runs through keeps mode `FAULT` and the record,
`ABORT` clears both, one that raises sets both (10_state R28). -/
theorem State.FaultInv.exec {i : Instr} {s t : State} (h : s.FaultInv) (he : exec i s = .next t) : t.FaultInv := by
  rcases exec_cases he with ⟨-, rfl⟩ | ⟨r, u, hb, rfl⟩ | ⟨f, g, u, hb, rfl⟩
  · exact h.refuse _
  · obtain ⟨hmode, hrecord⟩ := (body_mode hb).1
    by_cases hi : i = .abort
    · subst hi
      exact State.faultInv_of_idle hmode hrecord
    · have hmf := body_done_mode_fault hb hi
      rw [recordAfter, if_neg hi] at hrecord
      refine ⟨fun hm => ?_, fun hm => ?_⟩
      · rw [State.respond_fault, hrecord]; exact h.set (hmf.mp hm)
      · rw [State.respond_fault, hrecord]; exact h.clear fun hs => hm (hmf.mpr hs)
  · by_cases hm : s.mode = .fault
    · exact ⟨fun _ => by rw [takeFault_stands hb hm]; exact h.set hm, fun ht => absurd rfl ht⟩
    · exact (exec_raised hb hm).2.faultInv (body_raised_raisable hb).1

theorem State.Inv.exec {i : Instr} {s t : State} (h : s.Inv) (he : exec i s = .next t) : t.Inv :=
  have ha := advances_of_exec he
  ⟨h.fault.exec he, h.streams.advance ha, ha.fits h.table⟩

theorem State.Inv.serve {r : Request} {s t : State} (h : s.Inv) (hs : serve r s = .next t) : t.Inv := by
  rcases serve_cases hs with ⟨i, -, he⟩ | ⟨-, rfl⟩ | ⟨hm, rfl⟩
  · exact h.exec he
  · exact ⟨h.fault.refuse _, ⟨h.streams.sink, h.streams.position⟩, h.table⟩
  · have ha := (Advances.refl s).takeFault rfl .illegalCmd .command
    exact ⟨(takeFault_faulted hm _ _).faultInv (by decide), h.streams.advance ha, ha.fits h.table⟩

theorem State.Inv.afterReset {s : State} (h : s.Inv) : s.afterReset.Inv :=
  ⟨State.faultInv_of_idle rfl rfl, ⟨h.streams.sink, h.streams.position⟩, Table.fits_forgetRun s⟩

theorem State.Inv.cutOff {s u : State} (h : s.Inv) (ha : Advances s u) : (s.cutOff u).Inv where
  fault := State.faultInv_of_idle rfl rfl
  streams := ⟨h.streams.sink.trans (pack_prefix _ _), (keptReads_le ha.position).trans (ha.positionEnd h.streams.position)⟩
  table := Table.fits_forgetRun s

theorem State.Inv.handle {e : HostEvent} {s t : State} (h : s.Inv) (he : handle e s = .next t) : t.Inv := by
  rcases handle_cases he with ⟨r, -, hs⟩ | rfl | ⟨u, ha, rfl⟩ | ⟨-, rfl | ⟨bytes, rfl⟩⟩
  · exact h.serve hs
  · exact h.afterReset
  · exact h.cutOff ha
  · exact ⟨⟨h.fault.set, h.fault.clear⟩, ⟨List.nil_prefix, h.streams.position⟩, h.table⟩
  · exact ⟨⟨h.fault.set, h.fault.clear⟩, ⟨h.streams.sink, Nat.zero_le _⟩, h.table⟩

theorem State.Inv.withInbox {s : State} (h : s.Inv) (rest : List HostEvent) : State.Inv { s with inbox := rest } :=
  ⟨⟨h.fault.set, h.fault.clear⟩, ⟨h.streams.sink, h.streams.position⟩, h.table⟩

theorem State.Inv.settle {s : State} (h : s.Inv) : s.settle.Inv :=
  ⟨⟨h.fault.set, h.fault.clear⟩, h.streams.settle, h.table⟩

/-! ### The invariants of a run -/

theorem State.running_iff (s : State) : s.running = true ↔ s.mode = .enc ∨ s.mode = .dec := by
  simp [State.running]

theorem State.runInv_of_not_running {s : State} (h : s.running = false) : s.RunInv where
  table hr := by rw [h] at hr; cases hr
  wide hr := by rw [h] at hr; cases hr
  value hm := by rw [(s.running_iff).mpr (.inr hm)] at h; cases h
  counted hr := by rw [h] at hr; cases hr

theorem State.runInv_of_mode {s : State} {m : Mode} (h : s.mode = m) (hm : m = .idle ∨ m = .fault) : s.RunInv :=
  State.runInv_of_not_running (by rcases hm with rfl | rfl <;> simp [State.running, h])

/-- A run just begun: a fresh table, the full interval, no symbol completed (43_encoder R181, 44_decoder R201). -/
structure Begun (m : Mode) (t : State) : Prop where
  mode : t.mode = m
  table : t.table = Table.fresh
  low : t.l = 0
  high : t.h = BitVec.ofNat 32 top
  symIdx : t.symIdx = 0

theorem Begun.runInv {m : Mode} {t : State} (h : Begun m t) : t.RunInv where
  table _ := by rw [h.table]; exact Table.fresh_valid _
  wide _ := ⟨by rw [h.low]; decide, by rw [h.high]; decide, .inl (by rw [h.low]; decide)⟩
  value _ := ⟨by rw [h.low]; exact Nat.zero_le _, by rw [h.high]; exact toNat_le_top _⟩
  counted _ := by rw [h.symIdx]; exact Nat.zero_le _

theorem bsWrite_begun (stage : Stage) (v : Count) (n : Nat) {m : Mode} {s : State} (h : Begun m s) :
    (bsWrite stage v n s).All (Begun m) := by
  unfold bsWrite
  split_ifs
  · exact h
  · exact h
  · exact { h with }
  · exact { h with }

theorem bsRead_begun (stage : Stage) (n : Nat) {m : Mode} {s : State} (h : Begun m s) :
    (bsRead stage n s).All (Begun m) :=
  bsRead_all (fun _ _ h => { h with }) stage n h

theorem encBeginBody_done {n : Count} {s t : State} {r : Option Count} (h : encBeginBody n s = .done r t) :
    Begun .enc t := by
  suffices hE : (encBeginBody n s).Ends (Begun .enc) by rw [h] at hE; exact hE
  unfold encBeginBody
  split
  · trivial
  · exact (bsWrite_begun _ _ _ ⟨rfl, rfl, rfl, rfl, rfl⟩).ends.andThen fun _ _ hu => hu

theorem decBeginBody_done {s t : State} {r : Option Count} (h : decBeginBody s = .done r t) : Begun .dec t := by
  suffices hE : (decBeginBody s).Ends (Begun .dec) by rw [h] at hE; exact hE
  unfold decBeginBody
  split
  · trivial
  · refine (bsRead_begun (m := .dec) _ _ ⟨rfl, rfl, rfl, rfl, rfl⟩).ends.andThen fun n u hu => ?_
    have hn : Begun .dec { u with nTotal := n } := { hu with }
    exact (bsRead_begun _ _ hn).ends.andThen fun _ _ hu => { hu with }

/-- What the shifts of a symbol leave alone of the run that stands at `s`. -/
structure SameRun (s t : State) : Prop where
  mode : t.mode = s.mode
  cfg : t.cfg = s.cfg
  table : t.table = s.table
  symIdx : t.symIdx = s.symIdx
  nTotal : t.nTotal = s.nTotal

theorem SameRun.steady (s : State) : Steady (SameRun s) :=
  ⟨fun _ _ h => { h with }, fun _ _ h => { h with }, fun _ _ h => { h with }, fun _ _ _ _ h => { h with }⟩

theorem renormalize_sameRun {dir : Dir} {s u t : State} (hu : SameRun s u) (h : renormalize dir u = .done () t) :
    SameRun s t := by
  have ha := renormalize_all (SameRun.steady s) dir hu
  rw [h] at ha
  exact ha

theorem State.narrowTo_sameRun (v : Sym) (s : State) : SameRun s (s.narrowTo v) := ⟨rfl, rfl, rfl, rfl, rfl⟩

/-- Below the symbol count of the run the count of completed symbols does not pass 64 bits. -/
theorem State.countSymbol_symIdx {s : State} (h : s.symIdx.toNat < s.nTotal.toNat) :
    s.countSymbol.symIdx.toNat = s.symIdx.toNat + 1 := by
  have hn := s.nTotal.isLt
  rw [State.countSymbol, if_pos (by omega), BitVec.toNat_add]
  exact Nat.mod_eq_of_lt (show s.symIdx.toNat + 1 < 2 ^ 64 by omega)

/-- A symbol whose shifts went through leaves the invariants of the run (10_state R33, R40). -/
theorem State.RunInv.symbol {s u : State} (h : s.RunInv) (hr : s.running = true) (hn : s.symIdx ≠ s.nTotal)
    (hu : SameRun s u) (hw : u.Wide) (hv : s.mode = .dec → u.ValueInside) (v : Sym) :
    (u.updateTable v).countSymbol.RunInv where
  table _ := by
    have ht : u.table.Valid u.cfg := by rw [hu.table, hu.cfg]; exact h.table hr
    exact ht.update u.tick v
  wide _ := { hw with }
  value hm := hv (hu.mode ▸ hm)
  counted _ := by
    have hle := h.counted hr
    have hne : s.symIdx.toNat ≠ s.nTotal.toNat := fun e => hn (BitVec.eq_of_toNat_eq e)
    have hlt : (u.updateTable v).symIdx.toNat < (u.updateTable v).nTotal.toNat := by
      rw [State.updateTable_symIdx, State.updateTable_nTotal, hu.symIdx, hu.nTotal]; omega
    rw [State.countSymbol_symIdx hlt, State.countSymbol_nTotal]
    omega

theorem narrowInterval_done {v : Sym} {s t : State} (h : narrowInterval v s = .done () t) : t = s.narrowTo v := by
  unfold narrowInterval at h
  split at h
  · cases h
  · injection h with _ h
    exact h.symm

theorem searchSymbol_done {v : Sym} {s t : State} (h : searchSymbol s = .done v t) : t = s := by
  have ha := searchSymbol_all (P := fun t => t = s) rfl
  rw [h] at ha
  exact ha

/-- `ENC_SYM` that goes through, step by step (43_encoder R182). -/
theorem encSymBody_done {v : Sym} {s t : State} {r : Option Count} (h : encSymBody v s = .done r t) :
    s.mode = .enc ∧ s.symIdx ≠ s.nTotal ∧
      ∃ u, renormalize .emit (s.narrowTo v) = .done () u ∧ t = (u.updateTable v).countSymbol := by
  unfold encSymBody at h
  split_ifs at h with hm hn
  obtain ⟨_, w, hw, h⟩ := Run.andThen_eq_done.mp h
  obtain ⟨_, u, hu, h⟩ := Run.andThen_eq_done.mp h
  injection h with _ h
  rw [narrowInterval_done hw] at hu
  exact ⟨not_not.mp hm, hn, u, hu, h.symm⟩

/-- `DEC_SYM` that goes through, step by step (44_decoder R202). -/
theorem decSymBody_done {s t : State} {r : Option Count} (h : decSymBody s = .done r t) :
    s.mode = .dec ∧ s.symIdx ≠ s.nTotal ∧
      ∃ v u, searchSymbol s = .done v s ∧ renormalize .consume (s.narrowTo v) = .done () u ∧
        t = (u.updateTable v).countSymbol := by
  unfold decSymBody at h
  split_ifs at h with hm hn
  obtain ⟨v, w, hw, h⟩ := Run.andThen_eq_done.mp h
  obtain ⟨_, x, hx, h⟩ := Run.andThen_eq_done.mp h
  obtain ⟨_, u, hu, h⟩ := Run.andThen_eq_done.mp h
  injection h with _ h
  have hsearch := searchSymbol_done hw
  rw [narrowInterval_done hx, hsearch] at hu
  rw [hsearch] at hw
  exact ⟨not_not.mp hm, hn, v, u, hw, hu, h.symm⟩

theorem State.RunInv.encSym {v : Sym} {s t : State} {r : Option Count} (h : s.RunInv)
    (hb : encSymBody v s = .done r t) : t.RunInv := by
  obtain ⟨hm, hn, u, hu, rfl⟩ := encSymBody_done hb
  exact h.symbol (s.running_iff.mpr (.inl hm)) hn (renormalize_sameRun (s.narrowTo_sameRun v) hu)
    (renormLoop_done_wide _ hu) (fun hd => by rw [hm] at hd; cases hd) v

/-- The symbol the search finds keeps the window inside its subinterval (44_decoder R205), and the shifts keep it there. -/
theorem State.RunInv.decSym {s t : State} {r : Option Count} (h : s.RunInv) (hb : decSymBody s = .done r t) :
    t.RunInv := by
  obtain ⟨hm, hn, v, u, hs, hu, rfl⟩ := decSymBody_done hb
  have hr : s.running = true := s.running_iff.mpr (.inr hm)
  have hin : (s.narrowTo v).ValueInside := by
    obtain ⟨v', hs', hlow, hhigh⟩ := (h.value hm).search (h.table hr)
    rw [hs] at hs'
    injection hs' with hv
    subst hv
    exact (h.value hm).narrow (h.wide hr) (h.table hr) hlow hhigh
  exact h.symbol hr hn (renormalize_sameRun (s.narrowTo_sameRun v) hu) (renormLoop_done_wide _ hu)
    (fun _ => renormLoop_consume_inside _ hin hu) v

theorem State.RunInv.respond {s : State} (h : s.RunInv) (r : Option Count) : (s.respond r).RunInv :=
  ⟨h.table, fun hr => { h.wide hr with }, h.value, h.counted⟩

/-- A host command that runs through begins a run, completes a symbol or ends the run. -/
theorem State.RunInv.body {i : Instr} {s t : State} {r : Option Count} (h : s.RunInv) (hi : i.isHost = true)
    (hb : body i s = .done r t) : t.RunInv := by
  have hmode : t.mode = modeAfter i s.mode := (body_mode hb).1.1
  cases i with
  | encBegin n => exact (encBeginBody_done hb).runInv
  | decBegin => exact (decBeginBody_done hb).runInv
  | encSym v => exact h.encSym hb
  | decSym => exact h.decSym hb
  | encEnd => exact State.runInv_of_mode hmode (.inl rfl)
  | decEnd => exact State.runInv_of_mode hmode (.inl rfl)
  | abort => exact State.runInv_of_mode hmode (.inl rfl)
  | _ => cases hi

theorem State.RunInv.exec {i : Instr} {s t : State} (h : s.RunInv) (hi : i.isHost = true)
    (he : exec i s = .next t) : t.RunInv := by
  rcases exec_cases he with ⟨hm, rfl⟩ | ⟨r, u, hb, rfl⟩ | ⟨f, g, u, -, rfl⟩
  · exact State.runInv_of_mode (m := .fault) hm (.inr rfl)
  · exact (h.body hi hb).respond r
  · exact State.runInv_of_mode (m := .fault) rfl (.inr rfl)

theorem State.RunInv.handle {e : HostEvent} {s t : State} (h : s.RunInv)
    (hi : ∀ r i, e = .request r → decode r = .ok i → i.isHost = true) (he : handle e s = .next t) : t.RunInv := by
  rcases handle_cases he with ⟨r, rfl, hs⟩ | rfl | ⟨u, -, rfl⟩ | ⟨hr, rfl | ⟨bytes, rfl⟩⟩
  · rcases serve_cases hs with ⟨i, hd, hx⟩ | ⟨hm, rfl⟩ | ⟨-, rfl⟩
    · exact h.exec (hi r i rfl hd) hx
    · exact State.runInv_of_mode (m := .fault) hm (.inr rfl)
    · exact State.runInv_of_mode (m := .fault) rfl (.inr rfl)
  · exact State.runInv_of_mode (m := .idle) rfl (.inl rfl)
  · exact State.runInv_of_mode (m := .idle) rfl (.inl rfl)
  · exact State.runInv_of_not_running hr
  · exact State.runInv_of_not_running hr

theorem State.RunInv.withInbox {s : State} (h : s.RunInv) (rest : List HostEvent) :
    State.RunInv { s with inbox := rest } :=
  ⟨h.table, fun hr => { h.wide hr with }, h.value, h.counted⟩

theorem State.RunInv.settle {s : State} (h : s.RunInv) : s.settle.RunInv :=
  ⟨h.table, fun hr => { h.wide hr with }, h.value, h.counted⟩

/-! ### The side of the stream a run does not use -/

/-- A property that neither what `RENORM` in one direction emits and reads nor the bounds it stores touch; `value` is
stored in direction `C` only. -/
structure Untouched (dir : Dir) (P : State → Prop) : Prop where
  output : ∀ b s, P s → (branchOutput dir b s).All P
  input : ∀ s, P s → (shiftInput dir s).All P
  bounds : ∀ s l h v, P s → (consumes dir = false → v = s.value) → P { s with l := l, h := h, value := v }

theorem Untouched.shiftStep_keeps {dir : Dir} {P : State → Prop} (hP : Untouched dir P) (off : Nat) {s : State} (h : P s) :
    (shiftStep dir off s).All P := by
  unfold Machine.shiftStep
  split
  · exact h
  · refine (hP.input s h).then fun bit t ht => ?_
    dsimp only
    split
    · exact ht
    · exact hP.bounds _ _ _ _ ht fun hd => by simp [hd]

theorem Untouched.renormPass_keeps {dir : Dir} {P : State → Prop} (hP : Untouched dir P) (b : Branch) {s : State} (h : P s) :
    (renormPass dir b s).All P :=
  (hP.output b s h).then fun _ _ ht => hP.shiftStep_keeps _ ht

theorem Untouched.renormLoop_keeps {dir : Dir} {P : State → Prop} (hP : Untouched dir P) (n : Nat) {s : State} (h : P s)
    (hends : (renormLoop dir n s).All fun _ => True) : (renormLoop dir n s).All P := by
  induction n generalizing s with
  | zero => exact hends.elim
  | succ n ih =>
    by_cases hb : branchOf s.l.toNat s.h.toNat = .done
    · rw [renormLoop_done hb]; exact h
    · rw [renormLoop_succ hb] at hends ⊢
      have hp := hP.renormPass_keeps (branchOf s.l.toNat s.h.toNat) h
      cases hq : renormPass dir (branchOf s.l.toNat s.h.toNat) s with
      | done a t => rw [hq] at hp hends; exact ih hp hends
      | raised f g t => rw [hq] at hp; exact hp
      | stopped f => rw [hq] at hp; exact hp.elim

theorem Untouched.renormalize_keeps {dir : Dir} {P : State → Prop} (hP : Untouched dir P) {s : State} (h : P s) :
    (renormalize dir s).All P :=
  hP.renormLoop_keeps _ h (renormalize_all steady_true dir trivial)

theorem untouched_value (v : Word) : Untouched .emit fun t => t.value = v where
  output b _ h := branchOutput_all (P := fun t => t.value = v) (fun _ _ h => h) (fun _ _ h => h) .emit b h
  input _ h := h
  bounds _ _ _ _ h hv := (hv rfl).trans h

/-- Nothing has been written since `s`, and no bit is pending that was not. -/
structure Unwritten (s t : State) : Prop where
  bits : t.wrBits = s.wrBits
  sink : t.sink = s.sink
  pending : t.bitsToFollow = s.bitsToFollow

theorem untouched_unwritten (s : State) : Untouched .consume (Unwritten s) where
  output _ _ h := h
  input _ h := bsRead_all (fun _ _ h => { h with }) _ _ h
  bounds _ _ _ _ h _ := { h with }

/-- `ENC_SYM` that goes through leaves `value` (43_encoder R182). -/
theorem encSymBody_value {v : Sym} {s t : State} {r : Option Count} (h : encSymBody v s = .done r t) :
    t.value = s.value := by
  obtain ⟨-, -, u, hu, rfl⟩ := encSymBody_done h
  have ha := (untouched_value s.value).renormalize_keeps (s := s.narrowTo v) rfl
  rw [hu] at ha
  exact ha

/-- `DEC_SYM` writes nothing, however it ends (44_decoder R202). -/
theorem decSymBody_unwritten (s : State) : (decSymBody s).All (Unwritten s) := by
  have h0 : Unwritten s s := ⟨rfl, rfl, rfl⟩
  unfold decSymBody
  split_ifs
  · exact h0
  · exact h0
  · refine (searchSymbol_all h0).then fun v t h => ?_
    have hn : (narrowInterval v t).All (Unwritten s) := by
      unfold narrowInterval
      split
      · exact h
      · exact { h with }
    exact hn.then fun _ _ h => ((untouched_unwritten s).renormalize_keeps h).then fun _ _ h => { h with }

/-- In a decode run the pseudocode of a host command writes no bit, however it ends: the encoder's commands and
`DEC_BEGIN` raise `BAD_MODE` at once (60_exceptions R226). -/
theorem body_dec_bits {i : Instr} (hi : i.isHost = true) {s : State} (hm : s.mode = .dec) :
    (body i s).All fun t => t.wrBits = s.wrBits ∧ t.sink = s.sink := by
  cases i with
  | encBegin n => rw [body, encBeginBody, if_pos (by simp [hm])]; exact ⟨rfl, rfl⟩
  | encSym v => rw [body, encSymBody, if_pos (by simp [hm])]; exact ⟨rfl, rfl⟩
  | encEnd => rw [body, encEndBody, if_pos (by simp [hm])]; exact ⟨rfl, rfl⟩
  | decBegin => rw [body, decBeginBody, if_pos (by simp [hm])]; exact ⟨rfl, rfl⟩
  | decSym => exact (decSymBody_unwritten s).imp fun _ h => ⟨h.bits, h.sink⟩
  | decEnd => rw [body, decEndBody]; split_ifs <;> exact ⟨rfl, rfl⟩
  | abort => rw [body, abortBody]; split_ifs <;> exact ⟨rfl, rfl⟩
  | _ => cases hi

theorem keptBits_of_unwritten {s t : State} (h : t.wrBits = s.wrBits) : keptBits s t = s.wrBits := by
  simp [keptBits, h]

/-- The host commands that run through in an encode run are the encoder's own and `ABORT` (45_run_control R212). -/
theorem body_done_enc {i : Instr} (hi : i.isHost = true) {s t : State} {r : Option Count} (h : body i s = .done r t)
    (hm : s.mode = .enc) : (∃ v, i = .encSym v) ∨ reads i = false ∧ t.mode = .idle := by
  obtain ⟨⟨hmode, -⟩, hbefore⟩ := body_mode h
  rw [hm] at hbefore
  cases i with
  | encBegin n => cases hbefore .idle rfl
  | decBegin => cases hbefore .idle rfl
  | decSym => cases hbefore .dec rfl
  | decEnd => cases hbefore .dec rfl
  | encSym v => exact .inl ⟨v, rfl⟩
  | encEnd => exact .inr ⟨rfl, hmode⟩
  | abort => exact .inr ⟨rfl, hmode⟩
  | _ => cases hi

/-- The host commands that run through in a decode run are the decoder's own and `ABORT` (45_run_control R212). -/
theorem body_done_dec {i : Instr} (hi : i.isHost = true) {s t : State} {r : Option Count} (h : body i s = .done r t)
    (hm : s.mode = .dec) : i = .decSym ∨ t.mode = .idle := by
  obtain ⟨⟨hmode, -⟩, hbefore⟩ := body_mode h
  rw [hm] at hbefore
  cases i with
  | encBegin n => cases hbefore .idle rfl
  | decBegin => cases hbefore .idle rfl
  | encSym v => cases hbefore .enc rfl
  | encEnd => cases hbefore .enc rfl
  | decSym => exact .inl rfl
  | decEnd => exact .inr hmode
  | abort => exact .inr hmode
  | _ => cases hi

theorem body_done_rdPos {i : Instr} (hi : reads i = false) {s t : State} {r : Option Count}
    (h : body i s = .done r t) : t.rdPos = s.rdPos := by
  have ha := body_readsNone hi s
  rw [h] at ha
  exact ha

/-- A host command of an encode run that does not fault reads no bit, and leaves `value` while the run goes on. -/
theorem exec_enc_reads_none {i : Instr} (hi : i.isHost = true) {s t : State} (he : exec i s = .next t)
    (hm : s.mode = .enc) (ht : t.mode ≠ .fault) : t.rdPos = s.rdPos ∧ (t.mode = .enc → t.value = s.value) := by
  rcases exec_cases he with ⟨hf, -⟩ | ⟨r, u, hb, rfl⟩ | ⟨f, g, u, -, rfl⟩
  · rw [hm] at hf; cases hf
  · rw [State.respond_rdPos, State.respond_mode, State.respond_value]
    rcases body_done_enc hi hb hm with ⟨v, rfl⟩ | ⟨hr, hidle⟩
    · exact ⟨body_done_rdPos rfl hb, fun _ => encSymBody_value hb⟩
    · exact ⟨body_done_rdPos hr hb, fun h => absurd (hidle.symm.trans h) (by decide)⟩
  · exact absurd rfl ht

/-- A host command of a decode run writes no bit, and leaves `bitsToFollow` while the run goes on. -/
theorem exec_dec_writes_none {i : Instr} (hi : i.isHost = true) {s t : State} (he : exec i s = .next t)
    (hm : s.mode = .dec) :
    t.wrBits = s.wrBits ∧ t.sink = s.sink ∧ (t.mode = .dec → t.bitsToFollow = s.bitsToFollow) := by
  have hall := body_dec_bits hi hm
  rcases exec_cases he with ⟨hf, -⟩ | ⟨r, u, hb, rfl⟩ | ⟨f, g, u, hb, rfl⟩
  · rw [hm] at hf; cases hf
  · rw [hb] at hall
    obtain ⟨hbits, hsink⟩ := hall
    refine ⟨hbits, hsink, fun hd => ?_⟩
    rcases body_done_dec hi hb hm with rfl | hidle
    · have hu : Unwritten s u := by
        have ha := decSymBody_unwritten s
        rw [show decSymBody s = .done r u from hb] at ha
        exact ha
      exact hu.pending
    · rw [State.respond_mode, hidle] at hd; cases hd
  · rw [hb] at hall
    obtain ⟨hbits, hsink⟩ := hall
    exact ⟨keptBits_of_unwritten hbits, hsink, fun hd => by cases hd⟩

/-! ### The state after reset -/

theorem Table.zero_fits (cfg : Config) : Table.zero.Fits cfg where
  count i hi := by simp [Table.zero, Table.cnt, show i < 257 by omega]
  interval i hi := by simp [Table.zero, Table.iv, show i < 257 by omega]
  total := Nat.two_pow_pos _

/-! ### The statements -/

/-- Settles O53: each event keeps the invariant, and so does the settling of the step. -/
theorem everyStepKeepsTheInvariant : Obligations.EveryStepKeepsTheInvariant := by
  intro s t h hs
  rcases step_cases hs with ⟨-, rfl⟩ | ⟨e, rest, u, -, he, rfl⟩
  · exact h.settle
  · exact ((h.withInbox rest).handle he).settle

/-- Settles O54: a host command begins a run, completes a symbol, ends the run or faults; no other event touches a run. -/
theorem hostStepsKeepTheRunInvariants : Obligations.HostStepsKeepTheRunInvariants := by
  intro s t h hhost hs
  rcases step_cases hs with ⟨-, rfl⟩ | ⟨e, rest, u, hinbox, he, rfl⟩
  · exact h.settle
  · exact ((h.withInbox rest).handle (fun r i hr hd => hhost r rest i (hr ▸ hinbox) hd) he).settle

/-- Settles O43: only an operation that raises enters `FAULT`. -/
theorem faultEntryRecordsTheFault : Obligations.FaultEntryRecordsTheFault := by
  intro i s t hm he ht
  obtain ⟨f, g, hraisable, hfaulted⟩ := exec_enters_fault hm he ht
  rw [hfaulted.record]
  exact ⟨hraisable.1, hraisable.2, hfaulted⟩

/-- Settles O46: every operation only advances the streams. -/
theorem streamsOnlyAdvance : Obligations.StreamsOnlyAdvance := by
  intro i s t he
  have ha := advances_of_exec he
  exact ⟨ha.bits, ha.position, ha.rdBits, ha.cfg, ha.inbox, ha.tick⟩

/-- Settles O47: `RENORM E` stores no window and reads no bit, `RENORM C` emits nothing. -/
theorem runsUseOneSideOfTheStream : Obligations.RunsUseOneSideOfTheStream :=
  fun _ _ _ hi he => ⟨exec_enc_reads_none hi he, exec_dec_writes_none hi he⟩

/-- Settles O50: a step without an event only settles. -/
theorem stepWithoutARequestWaits : Obligations.StepWithoutARequestWaits := by
  intro s h
  refine ⟨_, step_nil h, fun hs => ?_⟩
  exact hs.drain_sink

/-- Settles O55: no fault stands and no run goes on, the streams are empty, the table holds zeros. -/
theorem resetMeetsTheInvariants : Obligations.ResetMeetsTheInvariants :=
  ⟨⟨State.faultInv_of_idle rfl rfl, ⟨List.nil_prefix, le_rfl⟩, Table.zero_fits _⟩,
    State.runInv_of_mode (m := .idle) rfl (.inl rfl)⟩

/-- Settles O56, field by field. -/
theorem resetValuesAreTheSpecs : Obligations.ResetValuesAreTheSpecs :=
  ⟨rfl, rfl, rfl, rfl, rfl, rfl, rfl⟩

end Sys2Proof.Machine
end

section
/-! SUPPORT. Proofs of the statements on the memory: packing and unpacking of stream bits, the step as the served request
word. -/

namespace Sys2Proof.Machine

/-! ### Packing and unpacking -/

theorem byteBits_getElem (b : Byte) (k : Nat) (h : k < (byteBits b).length) : (byteBits b)[k] = b.getLsbD (7 - k) := by
  simp only [byteBits, bitsOf_getElem, BitVec.getLsbD_setWidth]
  simp [show 7 - k < 64 by omega]

/-- The first of eight stream bits is the most significant of their byte (20_memory R61, R62). -/
theorem byteBits_byteOf (b7 b6 b5 b4 b3 b2 b1 b0 : Bool) :
    byteBits (byteOf b7 b6 b5 b4 b3 b2 b1 b0) = [b7, b6, b5, b4, b3, b2, b1, b0] := by
  refine List.ext_getElem (byteBits_length _) fun k hk hk' => ?_
  rw [byteBits_getElem, byteOf, BitVec.getLsbD_ofNat, decide_eq_true (by omega), Bool.true_and]
  exact natOfBits_testBit [b7, b6, b5, b4, b3, b2, b1, b0] k hk'

theorem unpack_pack : ∀ b : Bits, b.length % 8 = 0 → unpack (pack b) = b
  | b7 :: b6 :: b5 :: b4 :: b3 :: b2 :: b1 :: b0 :: rest, h => by
    have hrest : rest.length % 8 = 0 := by simpa [Nat.add_assoc] using h
    rw [pack, unpack, byteBits_byteOf, unpack_pack rest hrest]
    rfl
  | [], _ => rfl

theorem pack_unpack (l : List Byte) : pack (unpack l) = l := by
  induction l with
  | nil => rfl
  | cons b bs ih => rw [unpack, pack_append_byte, ih]

/-- A bit of an unpacked byte sequence by its position, in the first byte or eight places on (20_memory R61). -/
theorem unpack_getElem (l : List Byte) (k : Nat) (h : k < (unpack l).length) :
    (unpack l)[k] = (l.getD (k / 8) 0).getLsbD (7 - k % 8) := by
  induction l generalizing k with
  | nil => simp [unpack] at h
  | cons b bs ih =>
    simp only [unpack, List.getElem_append, byteBits_length]
    split
    · next hk => rw [byteBits_getElem, Nat.div_eq_of_lt hk, Nat.mod_eq_of_lt hk, List.getD_cons_zero]
    · next hk =>
      obtain ⟨j, rfl⟩ : ∃ j, k = j + 8 := ⟨k - 8, by omega⟩
      simp only [Nat.add_sub_cancel, ih, Nat.add_div_right j (show 0 < 8 by decide), Nat.add_mod_right,
        List.getD_cons_succ]

/-- Settles O24: a sequence of whole bytes is the unpacking of its packing, so its bits are those of the unpacked bytes. -/
theorem packingPutsTheFirstBitInBitSeven : Obligations.PackingPutsTheFirstBitInBitSeven := by
  refine ⟨fun b k h hb => ?_, unpack_pack, pack_unpack⟩
  have hu := unpack_pack b hb
  calc ((pack b).getD (k / 8) 0).getLsbD (7 - k % 8) = (unpack (pack b))[k]'(by rwa [hu]) := (unpack_getElem _ _ _).symm
    _ = b[k] := by simp only [hu]

/-! ### The step as the served request word -/

theorem step_cons {s : State} {e : HostEvent} {rest : List HostEvent} (h : s.inbox = e :: rest) :
    step s = settled (handle e { s with inbox := rest }) := by
  rw [step, nextEvent, h]

theorem handle_request (r : Request) (s : State) : handle (.request r) s = serve r s := rfl

/-- A request word with an operation is that operation (30_encoding R107). -/
theorem serve_of_decode {r : Request} {i : Instr} (h : decode r = .ok i) (s : State) : serve r s = exec i s := by
  rw [serve, h]

/-- Settling moves packed bytes to the sink and counts the step. -/
theorem settled_next (t : State) :
    ∃ moved : List Byte, settled (.next t) = .next { t with sink := t.sink ++ moved, tick := t.tick + 1 } ∧
      (t.StreamsInv → t.sink ++ moved <+: pack t.wrBits) :=
  ⟨_, rfl, fun ht => ht.drain_sink⟩

/-- Settles O49: the event is taken from the inbox, a request word decoded, the outcome settled. -/
theorem stepRunsTheDecodedOperation : Obligations.StepRunsTheDecodedOperation := by
  refine ⟨fun s e rest hs => ⟨step_cons hs, ?_⟩, settled_next, fun _ => rfl, fun _ => rfl⟩
  rintro r rfl
  have hserve : step s = settled (serve r { s with inbox := rest }) := by rw [step_cons hs, handle_request]
  exact ⟨hserve, fun i hi => by rw [hserve, serve_of_decode hi]⟩

end Sys2Proof.Machine
end

section
/-! SUPPORT. Proofs of the statements on the encoding: the request words of an operation, what the decoder makes of
them, and which rows of the opcode table they select; then the refusals in `FAULT`. -/

namespace Sys2Proof

open Machine

/-! ### A word from its fields -/

theorem append_eq_of_fields {m n : Nat} {w : BitVec (m + n)} {a : BitVec m} {b : BitVec n}
    (ha : w.extractLsb' n m = a) (hb : w.extractLsb' 0 n = b) : a ++ b = w := by
  rw [← ha, ← hb, BitVec.extractLsb'_append_extractLsb'_eq_extractLsb' (by omega), field_all]

theorem append3_eq_of_fields {m k n : Nat} {w : BitVec (m + k + n)} {a : BitVec m} {b : BitVec k} {c : BitVec n}
    (ha : w.extractLsb' (k + n) m = a) (hb : w.extractLsb' n k = b) (hc : w.extractLsb' 0 n = c) : a ++ b ++ c = w := by
  refine append_eq_of_fields ?_ hc
  rw [← ha, ← hb, BitVec.extractLsb'_append_extractLsb'_eq_extractLsb' (Nat.add_comm k n)]

/-- The bits a mask leaves whole are those of the match. -/
theorem field_of_masked {n : Nat} {w m p : BitVec n} (h : w &&& m = p) (j k : Nat)
    (hm : m.extractLsb' j k = BitVec.allOnes k) : w.extractLsb' j k = p.extractLsb' j k := by
  rw [← h, BitVec.extractLsb'_and, hm, BitVec.and_allOnes]

theorem bit_zero_eq_ofBool {n : Nat} (w : BitVec n) : w.extractLsb' 0 1 = BitVec.ofBool (w.getLsbD 0) := by
  ext k hk
  obtain rfl : k = 0 := by omega
  simp

theorem bit_zero_eq_bitOfDir {n : Nat} (w : BitVec n) : w.extractLsb' 0 1 = bitOfDir (dirOfBit (w.getLsbD 0)) := by
  rw [bit_zero_eq_ofBool]
  cases w.getLsbD 0 <;> rfl

/-! ### The words of an operation -/

/-- The word asks for the operation: it is the operation's own word, or, for `ABORT`, any word of its `op`, the `arg`
being ignored (30_encoding R107). -/
def Request.Carries (r : Request) (i : Instr) : Prop :=
  encode i = r ∨ (i = .abort ∧ ∃ w : BitVec 68, r = .host w ∧ w.extractLsb' 64 4 = 7)

/-- The constraint on a word says of its operation what well-formedness says (30_encoding R102, R104). -/
theorem Request.Carries.operandInRange_iff {r : Request} {i : Instr} (h : r.Carries i) :
    OperandInRange r ↔ i.WellFormed := by
  obtain rfl | ⟨rfl, w, rfl, -⟩ := h
  · cases i <;>
      simp only [OperandInRange, encode, field_low, field_high, field_all, Nat.le_refl, Nat.reduceLeDiff, Nat.reduceSub]
    case tIend => exact ⟨fun h => decide_eq_true (h rfl), fun h _ => of_decide_eq_true h⟩
    case writebits => exact ⟨fun h => decide_eq_true (h (.inl rfl)), fun h _ => of_decide_eq_true h⟩
    case readbits => exact ⟨fun h => decide_eq_true (h (.inr rfl)), fun h _ => of_decide_eq_true h⟩
    case tNew | tSym | tUpd | flush => exact iff_of_true (fun h => absurd h (by decide)) rfl
    all_goals exact iff_of_true trivial rfl
  · exact iff_of_true trivial rfl

/-- The fields of an operation's own word are its `op`, zeros and its operands, so the decoder's tests are met. -/
theorem decode_encode {i : Instr} (h : i.WellFormed) : decode (encode i) = .ok i := by
  cases i <;>
    simp only [encode, decode, decodeHost, decodeAft, decodeRn, decodeBsb, field_low, field_high, field_all, bit_low,
      Nat.le_refl, Nat.reduceLeDiff, Nat.reduceSub, Nat.reduceLT]
  case tIend | writebits | readbits => exact if_pos (of_decide_eq_true h)
  case renorm dir => cases dir <;> rfl
  case bpf b => cases b <;> rfl
  all_goals rfl

theorem Request.Carries.decode_eq {r : Request} {i : Instr} (h : r.Carries i) (hi : i.WellFormed) :
    decode r = .ok i := by
  obtain rfl | ⟨rfl, w, rfl, hop⟩ := h
  · exact decode_encode hi
  · rw [decode, decodeHost, hop]; rfl

/-! ### What the decoder accepts -/

theorem eq_three_of_ne : ∀ {b : BitVec 2}, b.toNat ≠ 0 → b.toNat ≠ 1 → b.toNat ≠ 2 → b = 3 := by decide

/-- A range test lets the operation through when it is met. -/
theorem ite_ok_iff {c : Prop} [Decidable c] {e : Reject} {i j : Instr} :
    (if c then Except.ok i else .error e) = .ok j ↔ c ∧ i = j := by
  split <;> simp_all

/-- A test that rejects lets the operation through when it is not met. -/
theorem ite_error_iff {c : Prop} [Decidable c] {e : Reject} {x : Except Reject Instr} {j : Instr} :
    (if c then Except.error e else x) = .ok j ↔ ¬c ∧ x = .ok j := by
  split <;> simp_all

theorem carries_of_decodeHost {w : BitVec 68} {i : Instr} (h : decodeHost w = .ok i) :
    i.WellFormed ∧ (Request.host w).Carries i := by
  unfold decodeHost at h
  split at h
  case h_1 hop =>
    cases h
    exact ⟨rfl, .inl (congrArg Request.host (append_eq_of_fields (BitVec.eq_of_toNat_eq hop) rfl))⟩
  case h_2 hop =>
    obtain ⟨hz, rfl⟩ := whenZero_ok.1 h
    exact ⟨rfl, .inl (congrArg Request.host (append3_eq_of_fields (BitVec.eq_of_toNat_eq hop) hz rfl))⟩
  case h_3 hop | h_4 hop | h_5 hop | h_6 hop =>
    obtain ⟨hz, rfl⟩ := whenZero_ok.1 h
    exact ⟨rfl, .inl (congrArg Request.host (append_eq_of_fields (BitVec.eq_of_toNat_eq hop) hz))⟩
  case h_7 hop =>
    cases h
    exact ⟨rfl, .inr ⟨rfl, w, rfl, BitVec.eq_of_toNat_eq hop⟩⟩
  case h_8 => cases h

theorem carries_of_decodeAft {w : BitVec 32} {i : Instr} (h : decodeAft w = .ok i) :
    i.WellFormed ∧ (Request.aft w).Carries i := by
  unfold decodeAft at h
  split at h
  · next hop =>
    obtain ⟨hz, rfl⟩ := whenZero_ok.1 h
    exact ⟨rfl, .inl (congrArg Request.aft (append_eq_of_fields (BitVec.eq_of_toNat_eq hop) hz))⟩
  · next hop =>
    obtain ⟨hz, h⟩ := ite_error_iff.1 h
    obtain ⟨hidx, rfl⟩ := ite_ok_iff.1 h
    exact ⟨decide_eq_true hidx,
      .inl (congrArg Request.aft (append3_eq_of_fields (BitVec.eq_of_toNat_eq hop) (not_not.1 hz) rfl))⟩
  · next hop =>
    cases h
    exact ⟨rfl, .inl (congrArg Request.aft (append_eq_of_fields (BitVec.eq_of_toNat_eq hop) rfl))⟩
  · next h0 h1 h2 =>
    obtain ⟨hz, rfl⟩ := whenZero_ok.1 h
    exact ⟨rfl, .inl (congrArg Request.aft (append3_eq_of_fields (eq_three_of_ne h0 h1 h2) hz rfl))⟩

theorem carries_of_decodeRn {w : BitVec 10} {i : Instr} (h : decodeRn w = .ok i) :
    i.WellFormed ∧ (Request.rn w).Carries i := by
  unfold decodeRn at h
  split at h
  · next hop =>
    cases h
    exact ⟨rfl, .inl (congrArg Request.rn (append_eq_of_fields (BitVec.eq_of_toNat_eq hop) rfl))⟩
  · next hop =>
    obtain ⟨hz, rfl⟩ := whenZero_ok.1 h
    exact ⟨rfl, .inl (congrArg Request.rn
      (append3_eq_of_fields (BitVec.eq_of_toNat_eq hop) hz (bit_zero_eq_bitOfDir w)))⟩
  · next hop =>
    obtain ⟨hz, rfl⟩ := whenZero_ok.1 h
    exact ⟨rfl, .inl (congrArg Request.rn
      (append3_eq_of_fields (BitVec.eq_of_toNat_eq hop) hz (bit_zero_eq_ofBool w)))⟩
  · cases h

theorem carries_of_decodeBsb {w : BitVec 73} {i : Instr} (h : decodeBsb w = .ok i) :
    i.WellFormed ∧ (Request.bsb w).Carries i := by
  unfold decodeBsb at h
  split at h
  · next hop =>
    obtain ⟨hn, rfl⟩ := ite_ok_iff.1 h
    exact ⟨decide_eq_true hn,
      .inl (congrArg Request.bsb (append3_eq_of_fields (BitVec.eq_of_toNat_eq hop) rfl rfl))⟩
  · next hop =>
    obtain ⟨hz, h⟩ := ite_error_iff.1 h
    obtain ⟨hn, rfl⟩ := ite_ok_iff.1 h
    exact ⟨decide_eq_true hn,
      .inl (congrArg Request.bsb (append3_eq_of_fields (BitVec.eq_of_toNat_eq hop) rfl (not_not.1 hz)))⟩
  · next hop =>
    obtain ⟨hz, rfl⟩ := whenZero_ok.1 h
    exact ⟨rfl, .inl (congrArg Request.bsb
      (append_eq_of_fields (a := 2#2) (b := 0#71) (BitVec.eq_of_toNat_eq hop) hz))⟩
  · cases h

/-- A word that decodes is a word of what it decodes to, which is well formed. -/
theorem carries_of_decode {r : Request} {i : Instr} (h : decode r = .ok i) : i.WellFormed ∧ r.Carries i := by
  cases r with
  | host w => exact carries_of_decodeHost h
  | aft w => exact carries_of_decodeAft h
  | rn w => exact carries_of_decodeRn h
  | bsb w => exact carries_of_decodeBsb h

/-! ### The rows of the opcode table -/

theorem Row.selects_host {m p : BitVec 68} {r : Request} (h : (Row.host m p).selects r = true) :
    ∃ w, r = .host w ∧ w &&& m = p := by
  cases r with
  | host w => exact ⟨w, rfl, beq_iff_eq.1 h⟩
  | _ => cases h

theorem Row.selects_aft {m p : BitVec 32} {r : Request} (h : (Row.aft m p).selects r = true) :
    ∃ w, r = .aft w ∧ w &&& m = p := by
  cases r with
  | aft w => exact ⟨w, rfl, beq_iff_eq.1 h⟩
  | _ => cases h

theorem Row.selects_rn {m p : BitVec 10} {r : Request} (h : (Row.rn m p).selects r = true) :
    ∃ w, r = .rn w ∧ w &&& m = p := by
  cases r with
  | rn w => exact ⟨w, rfl, beq_iff_eq.1 h⟩
  | _ => cases h

theorem Row.selects_bsb {m p : BitVec 73} {r : Request} (h : (Row.bsb m p).selects r = true) :
    ∃ w, r = .bsb w ∧ w &&& m = p := by
  cases r with
  | bsb w => exact ⟨w, rfl, beq_iff_eq.1 h⟩
  | _ => cases h

theorem selects_encode (i : Instr) : i.row.selects (encode i) = true := by
  cases i with
  | encBegin n => exact Laws.RowMatch.encBegin n
  | encSym v => exact Laws.RowMatch.encSym v
  | encEnd => exact Laws.RowMatch.encEnd
  | decBegin => exact Laws.RowMatch.decBegin
  | decSym => exact Laws.RowMatch.decSym
  | decEnd => exact Laws.RowMatch.decEnd
  | abort => exact Laws.RowMatch.abort
  | tNew => exact Laws.RowMatch.tNew
  | tIend idx => exact Laws.RowMatch.tIend idx
  | tSym p => exact Laws.RowMatch.tSym p
  | tUpd s => exact Laws.RowMatch.tUpd s
  | narrow s => exact Laws.RowMatch.narrow s
  | renorm dir => exact Laws.RowMatch.renorm dir
  | bpf b => exact Laws.RowMatch.bpf b
  | writebits v n => exact Laws.RowMatch.writebits v n
  | readbits n => exact Laws.RowMatch.readbits n
  | flush => exact Laws.RowMatch.flush

/-- The words of an operation select its row. -/
theorem Request.Carries.selects {r : Request} {i : Instr} (h : r.Carries i) : i.row.selects r = true := by
  obtain rfl | ⟨rfl, w, rfl, hop⟩ := h
  · exact selects_encode i
  · have hw : 7#4 ++ w.extractLsb' 0 64 = w := append_eq_of_fields hop rfl
    show (w &&& (0xF#4 ++ 0#64) == 0x7#4 ++ 0#64) = true
    rw [beq_iff_eq, ← hw, Laws.RowMatch.and_append, BitVec.and_zero]
    rfl

/-- A word that selects the row of an operation is a word of an operation of that row: the bits the row's mask leaves
free are the operand. -/
theorem carries_of_selects {i : Instr} {r : Request} (h : i.row.selects r = true) :
    ∃ j : Instr, j.row = i.row ∧ r.Carries j := by
  cases i with
  | encBegin _ =>
    obtain ⟨w, rfl, hw⟩ := Row.selects_host h
    exact ⟨.encBegin (w.extractLsb' 0 64), rfl,
      .inl (congrArg Request.host (append_eq_of_fields (field_of_masked hw 64 4 rfl) rfl))⟩
  | encSym _ =>
    obtain ⟨w, rfl, hw⟩ := Row.selects_host h
    exact ⟨.encSym (w.extractLsb' 0 8), rfl, .inl (congrArg Request.host
      (append3_eq_of_fields (field_of_masked hw 64 4 rfl) (field_of_masked hw 8 56 rfl) rfl))⟩
  | encEnd | decBegin | decSym | decEnd =>
    obtain ⟨w, rfl, hw⟩ := Row.selects_host h
    exact ⟨_, rfl, .inl (congrArg Request.host
      (append_eq_of_fields (field_of_masked hw 64 4 rfl) (field_of_masked hw 0 64 rfl)))⟩
  | abort =>
    obtain ⟨w, rfl, hw⟩ := Row.selects_host h
    exact ⟨.abort, rfl, .inr ⟨rfl, w, rfl, field_of_masked hw 64 4 rfl⟩⟩
  | tNew =>
    obtain ⟨w, rfl, hw⟩ := Row.selects_aft h
    exact ⟨.tNew, rfl, .inl (congrArg Request.aft
      (append_eq_of_fields (field_of_masked hw 30 2 rfl) (field_of_masked hw 0 30 rfl)))⟩
  | tIend _ =>
    obtain ⟨w, rfl, hw⟩ := Row.selects_aft h
    exact ⟨.tIend (w.extractLsb' 0 9), rfl, .inl (congrArg Request.aft
      (append3_eq_of_fields (field_of_masked hw 30 2 rfl) (field_of_masked hw 9 21 rfl) rfl))⟩
  | tSym _ =>
    obtain ⟨w, rfl, hw⟩ := Row.selects_aft h
    exact ⟨.tSym (w.extractLsb' 0 30), rfl,
      .inl (congrArg Request.aft (append_eq_of_fields (field_of_masked hw 30 2 rfl) rfl))⟩
  | tUpd _ =>
    obtain ⟨w, rfl, hw⟩ := Row.selects_aft h
    exact ⟨.tUpd (w.extractLsb' 0 8), rfl, .inl (congrArg Request.aft
      (append3_eq_of_fields (field_of_masked hw 30 2 rfl) (field_of_masked hw 8 22 rfl) rfl))⟩
  | narrow _ =>
    obtain ⟨w, rfl, hw⟩ := Row.selects_rn h
    exact ⟨.narrow (w.extractLsb' 0 8), rfl,
      .inl (congrArg Request.rn (append_eq_of_fields (field_of_masked hw 8 2 rfl) rfl))⟩
  | renorm _ =>
    obtain ⟨w, rfl, hw⟩ := Row.selects_rn h
    exact ⟨.renorm (dirOfBit (w.getLsbD 0)), rfl, .inl (congrArg Request.rn (append3_eq_of_fields
      (field_of_masked hw 8 2 rfl) (field_of_masked hw 1 7 rfl) (bit_zero_eq_bitOfDir w)))⟩
  | bpf _ =>
    obtain ⟨w, rfl, hw⟩ := Row.selects_rn h
    exact ⟨.bpf (w.getLsbD 0), rfl, .inl (congrArg Request.rn (append3_eq_of_fields
      (field_of_masked hw 8 2 rfl) (field_of_masked hw 1 7 rfl) (bit_zero_eq_ofBool w)))⟩
  | writebits _ _ =>
    obtain ⟨w, rfl, hw⟩ := Row.selects_bsb h
    exact ⟨.writebits (w.extractLsb' 0 64) (w.extractLsb' 64 7), rfl,
      .inl (congrArg Request.bsb (append3_eq_of_fields (field_of_masked hw 71 2 rfl) rfl rfl))⟩
  | readbits _ =>
    obtain ⟨w, rfl, hw⟩ := Row.selects_bsb h
    exact ⟨.readbits (w.extractLsb' 64 7), rfl, .inl (congrArg Request.bsb
      (append3_eq_of_fields (field_of_masked hw 71 2 rfl) rfl (field_of_masked hw 0 64 rfl)))⟩
  | flush =>
    obtain ⟨w, rfl, hw⟩ := Row.selects_bsb h
    exact ⟨.flush, rfl, .inl (congrArg Request.bsb (append3_eq_of_fields (field_of_masked hw 71 2 rfl)
      (field_of_masked hw 64 7 rfl) (field_of_masked hw 0 64 rfl)))⟩

/-- Operands do not enter the row. -/
theorem row_mem_tableRows (i : Instr) : i.row ∈ tableRows := by
  cases i <;> simp [tableRows, Instr.row]

/-- To decode and to select a row in range are both to be a word of a well-formed operation (30_encoding R105, R107). -/
theorem decode_ok_iff_selects (r : Request) : (∃ i, decode r = .ok i) ↔ SelectsOperation r := by
  constructor
  · rintro ⟨i, hi⟩
    obtain ⟨hwf, hc⟩ := carries_of_decode hi
    exact ⟨⟨i.row, row_mem_tableRows i, hc.selects⟩, hc.operandInRange_iff.2 hwf⟩
  · rintro ⟨⟨row, hrow, hsel⟩, hrange⟩
    obtain ⟨i, -, rfl⟩ := List.mem_map.1 hrow
    obtain ⟨j, -, hc⟩ := carries_of_selects hsel
    exact ⟨j, hc.decode_eq (hc.operandInRange_iff.1 hrange)⟩

/-- Two rows agree on the bits both masks leave whole: what it takes for a word to select both. -/
def Row.agrees : Row → Row → Bool
  | .host m p, .host m' p' => p &&& m' == p' &&& m
  | .aft m p, .aft m' p' => p &&& m' == p' &&& m
  | .rn m p, .rn m' p' => p &&& m' == p' &&& m
  | .bsb m p, .bsb m' p' => p &&& m' == p' &&& m
  | _, _ => false

theorem Row.agrees_of_selects {a b : Row} {r : Request} (ha : a.selects r = true) (hb : b.selects r = true) :
    a.agrees b = true := by
  cases a with
  | host m p =>
    obtain ⟨w, rfl, hw⟩ := Row.selects_host ha
    cases b with
    | host m' p' => exact beq_iff_eq.2 (mask_overlap hw (beq_iff_eq.1 hb))
    | _ => cases hb
  | aft m p =>
    obtain ⟨w, rfl, hw⟩ := Row.selects_aft ha
    cases b with
    | aft m' p' => exact beq_iff_eq.2 (mask_overlap hw (beq_iff_eq.1 hb))
    | _ => cases hb
  | rn m p =>
    obtain ⟨w, rfl, hw⟩ := Row.selects_rn ha
    cases b with
    | rn m' p' => exact beq_iff_eq.2 (mask_overlap hw (beq_iff_eq.1 hb))
    | _ => cases hb
  | bsb m p =>
    obtain ⟨w, rfl, hw⟩ := Row.selects_bsb ha
    cases b with
    | bsb m' p' => exact beq_iff_eq.2 (mask_overlap hw (beq_iff_eq.1 hb))
    | _ => cases hb

theorem tableRows_agree_only_equal : ∀ a ∈ tableRows, ∀ b ∈ tableRows, a.agrees b = true → a = b := by
  decide +kernel

/-! ### Words that select no operation -/

theorem serve_of_not_selects {r : Request} (h : ¬SelectsOperation r) (s : State) : serve r s = illegalRequest r s := by
  cases hd : decode r with
  | ok i => exact absurd ((decode_ok_iff_selects r).1 ⟨i, hd⟩) h
  | error e => rw [serve, hd]

theorem illegalRequest_fault {s : State} (h : s.mode = .fault) (r : Request) :
    illegalRequest r s = .next (s.refuse (refusedResult r)) := by rw [illegalRequest, if_pos h]

theorem exec_fault {i : Instr} {s : State} (hi : i.isHost = true) (ha : i ≠ .abort) (hm : s.mode = .fault) :
    exec i s = .next (s.refuse (some 0)) := by rw [exec_eq, if_pos ⟨hi, ha, hm⟩]

/-! ### The statements -/

/-- Settles O1: the decoder finds in an operation's own word its `op`, zeros and its operands. -/
theorem decodeInvertsEncode : Obligations.DecodeInvertsEncode := fun _ => decode_encode

/-- Settles O2: a word is put together from the fields the decoder has tested. -/
theorem encodeInvertsDecode : Obligations.EncodeInvertsDecode := fun _ _ => carries_of_decode

/-- Settles O3: to decode and to select a row are both to be a word of an operation. -/
theorem decodeFollowsTheOpcodeTable : Obligations.DecodeFollowsTheOpcodeTable :=
  ⟨decode_ok_iff_selects, fun _ _ h => (carries_of_decode h).2.selects⟩

/-- Settles O4: rows that one word selects agree under both masks, which two rows of the table never do. -/
theorem opcodeRowsAreDisjoint : Obligations.OpcodeRowsAreDisjoint :=
  fun a ha b hb _ hra hrb => tableRows_agree_only_equal a ha b hb (Row.agrees_of_selects hra hrb)

/-- Settles O5, by decoding each word. -/
theorem specWordsDecode : Obligations.SpecWordsDecode := by
  unfold Obligations.SpecWordsDecode
  decide

/-- Settles O42: in `FAULT` a host command and a word without an operation come to the refusal. -/
theorem faultModeRefusesCommands : Obligations.FaultModeRefusesCommands := by
  refine fun s hm => ⟨fun i hi ha => exec_fault hi ha hm, fun w hw => ?_, fun r hr hport => ?_⟩
  · exact (serve_of_not_selects hw s).trans (illegalRequest_fault hm _)
  · have hres : refusedResult r = none := by
      cases r with
      | host w => exact absurd rfl (hport w)
      | aft w | rn w | bsb w => rfl
    rw [serve_of_not_selects hr, illegalRequest_fault hm, hres]
    rfl

end Sys2Proof
end

section
/-! SUPPORT. Proofs of the statements on the bit stream: `WRITEBITS`, `READBITS` and `FLUSH` issued directly, each from
what its transfer does. -/

namespace Sys2Proof.Machine

/-! ### How a unit operation ends -/

/-- A unit operation that runs through responds in every mode, `FAULT` included (30_encoding R106). -/
theorem exec_unit_done {i : Instr} {s t : State} {r : Option Count} (hi : i.isHost = false) (h : body i s = .done r t) :
    exec i s = .next (t.respond r) := by
  rw [exec_eq, if_neg (by simp [hi]), h, finish_done]

/-- An operation that raises outside `FAULT` has a next state that shows the fault. -/
theorem exec_faulted {i : Instr} {s t : State} {f : FaultCode} {g : Stage} (h : body i s = .raised f g t)
    (hm : s.mode ≠ .fault) : ∃ u, exec i s = .next u ∧ s.Faulted u f g := ⟨_, exec_raised h hm⟩

theorem writebits_done {v : Count} {n : BitVec 7} {s t : State} (h : bsWrite .none v n.toNat s = .done () t) :
    exec (.writebits v n) s = .next (t.respond none) :=
  exec_unit_done rfl (by rw [body, writebitsBody, h, Run.andThen_done])

theorem writebits_raised {v : Count} {n : BitVec 7} {s t : State} {f : FaultCode}
    (h : bsWrite .none v n.toNat s = .raised f .none t) : body (.writebits v n) s = .raised f .none t := by
  rw [body, writebitsBody, h, Run.andThen_raised]

theorem readbits_done {n : BitVec 7} {v : Count} {s t : State} (h : bsRead .none n.toNat s = .done v t) :
    exec (.readbits n) s = .next (t.respond (some v)) :=
  exec_unit_done rfl (by rw [body, readbitsBody, h, Run.andThen_done])

theorem readbits_raised {n : BitVec 7} {s t : State} {f : FaultCode} (h : bsRead .none n.toNat s = .raised f .none t) :
    body (.readbits n) s = .raised f .none t := by
  rw [body, readbitsBody, h, Run.andThen_raised]

/-! ### The bits of a transfer -/

/-- At most 64 stream bits fit the value they are read into (40_bit_stream R122). -/
theorem toNat_ofNat_natOfBits {b : Bits} (h : b.length ≤ 64) :
    (BitVec.ofNat 64 (natOfBits 0 b)).toNat = natOfBits 0 b := by
  have hlt : natOfBits 0 b < 2 ^ b.length := by simpa using natOfBits_lt 0 b
  rw [BitVec.toNat_ofNat, Nat.mod_eq_of_lt (hlt.trans_le (Nat.pow_le_pow_right (by decide) h))]

/-- A bit read is the stream bit as far past the read position (10_state R38). -/
theorem State.remaining_take_getElem (s : State) (n k : Nat) (h : k < (s.remaining.take n).length) :
    (s.remaining.take n)[k] = s.rdBits.getD (s.rdPos + k) false := by
  have hk : s.rdPos + k < s.rdBits.length := by simp at h; omega
  simp [State.remaining, hk]

/-- The value of the next `n` bits, the first the most significant (20_memory R62). -/
theorem State.read_value {s : State} {n : Nat} (h64 : n ≤ 64) (hr : n ≤ s.remaining.length) :
    (BitVec.ofNat 64 (natOfBits 0 (s.remaining.take n))).toNat < 2 ^ n ∧
      ∀ k, k < n → (BitVec.ofNat 64 (natOfBits 0 (s.remaining.take n))).getLsbD (n - 1 - k) =
        s.rdBits.getD (s.rdPos + k) false := by
  have hlen : (s.remaining.take n).length = n := List.length_take_of_le hr
  have hv := toNat_ofNat_natOfBits (hlen.le.trans h64)
  refine ⟨?_, fun k hk => ?_⟩
  · rw [hv]
    simpa [hlen] using natOfBits_lt 0 (s.remaining.take n)
  · have hk' : k < (s.remaining.take n).length := hlen.symm ▸ hk
    calc (BitVec.ofNat 64 (natOfBits 0 (s.remaining.take n))).getLsbD (n - 1 - k)
      _ = (natOfBits 0 (s.remaining.take n)).testBit ((s.remaining.take n).length - 1 - k) := by
        rw [BitVec.getLsbD, hv, hlen]
      _ = (s.remaining.take n)[k] := natOfBits_testBit _ k hk'
      _ = s.rdBits.getD (s.rdPos + k) false := s.remaining_take_getElem n k hk'

/-! ### Padding -/

theorem padLength_lt (p : Nat) : padLength p < 8 := Nat.mod_lt _ (by decide)

theorem add_padLength_mod (p : Nat) : (p + padLength p) % 8 = 0 := by unfold padLength; omega

/-! ### The statements -/

/-- Settles O21: a write that goes through appends the low bits, and one that fails leaves a front of them. -/
theorem writebitsAppendsTheLowBits : Obligations.WritebitsAppendsTheLowBits := by
  refine fun s v n => ⟨fun h64 hok => ⟨bitsOf v n.toNat, bitsOf_length v _, bitsOf_getElem v _, ?_⟩,
    fun h64 h0 hf hm => ?_, fun h64 hm => exec_faulted (writebits_raised (bsWrite_wide h64 _ v s)) hm⟩
  · by_cases h0 : n = 0
    · subst h0
      rw [writebits_done (bsWrite_zero _ v s)]
      simp [State.respond, bitsOf, FaultCode.bits]
    · rw [writebits_done (bsWrite_ok (BitVec.toNat_pos_of_ne_zero h0) h64 (hok.resolve_left h0) _ v), if_neg h0]
      rfl
  · obtain ⟨hexec, hfaulted⟩ := exec_raised (writebits_raised (bsWrite_fails (BitVec.toNat_pos_of_ne_zero h0) h64 hf _ v)) hm
    refine ⟨_, hexec, hfaulted, keptBits_prefix s _, ?_⟩
    have hfront : keptBits s _ <+: s.wrBits ++ bitsOf v n.toNat :=
      keptBits_front (s := s.afterTransfer.appendBits _) (List.prefix_append _ _)
    simpa using hfront.length_le

/-- Settles O22: a read that goes through answers the value of the next bits; its faults follow the order
of 60_exceptions R238. -/
theorem readbitsTakesTheNextBits : Obligations.ReadbitsTakesTheNextBits := by
  refine fun s n => ⟨fun h64 hok hleft => ?_,
    fun h64 hm => exec_faulted (readbits_raised (bsRead_wide h64 _ s)) hm,
    fun h64 h0 hf hm => exec_faulted (readbits_raised (bsRead_fails (BitVec.toNat_pos_of_ne_zero h0) h64 hf _)) hm,
    fun h64 h0 hf hshort hm => ?_⟩
  · by_cases h0 : n = 0
    · subst h0
      exact ⟨0, by decide, by simp, readbits_done (bsRead_zero _ s)⟩
    · have hr : n.toNat ≤ s.remaining.length := by
        rw [State.remaining_length]
        have := hleft.resolve_left h0
        omega
      obtain ⟨hlt, hbits⟩ := State.read_value h64 hr
      refine ⟨_, hlt, hbits, ?_⟩
      rw [readbits_done (bsRead_ok (BitVec.toNat_pos_of_ne_zero h0) h64 (hok.resolve_left h0) hr _), if_neg h0]
      rfl
  · have hr : s.remaining.length < n.toNat := by
      have := BitVec.toNat_pos_of_ne_zero h0
      rw [State.remaining_length]
      omega
    exact exec_faulted (readbits_raised (bsRead_short (BitVec.toNat_pos_of_ne_zero h0) h64 hf hr _)) hm

/-- Settles O23: the pad makes whole bytes of the written bits, so that unpacking the sink gives them back. -/
theorem flushPadsAndFillsTheSink : Obligations.FlushPadsAndFillsTheSink := by
  refine fun s => ⟨fun hf => ⟨padLength s.wrBits.length, padLength_lt _, add_padLength_mod _, ?_, ?_⟩,
    fun hf hm => ?_⟩
  · exact exec_unit_done (i := .flush) rfl (by rw [body, flushBody, bsFlush_ok hf, Run.andThen_done])
  · exact unpack_pack _ (by rw [List.length_append, List.length_replicate, add_padLength_mod])
  · exact exec_faulted (i := .flush) (by rw [body, flushBody, bsFlush_fails hf, Run.andThen_raised]) hm

end Sys2Proof.Machine
end

section
/-! SUPPORT. Proofs of the statements on the frequency table: `T_NEW`, `T_IEND`, `T_SYM` and `T_UPD` issued directly,
each from what it reads of the table or leaves in it. -/

namespace Sys2Proof.Machine

/-! ### Reading the table -/

/-- An entry within the index range that fits its register fits the result port too (41_frequency_table R142). -/
theorem Table.Fits.iv_toNat {cfg : Config} {t : Table} (h : t.Fits cfg) {i : Nat} (hi : i ≤ 256) :
    (BitVec.ofNat 64 (t.iv i)).toNat = t.iv i := by
  have hiv := h.interval i hi
  have hceil := ceiling_bounds cfg
  exact Nat.mod_eq_of_lt (by omega)

theorem tIend_done {idx : BitVec 9} (h : idx.toNat ≤ alphabetSize) (s : State) :
    exec (.tIend idx) s = .next (s.respond (some (BitVec.ofNat 64 (s.table.iv idx.toNat)))) :=
  exec_unit_done rfl (by rw [body, tIendBody, tableIntervalEnd, if_neg h.not_gt, Run.andThen_done])

theorem tIend_raised {idx : BitVec 9} (h : alphabetSize < idx.toNat) (s : State) :
    body (.tIend idx) s = .raised .tableRange .none s := by
  rw [body, tIendBody, tableIntervalEnd, if_pos h, Run.andThen_raised]

theorem tSym_done {p : BitVec 30} {s : State} {n : Nat} (hp : p.toNat < s.table.totalCount)
    (h : s.table.search p.toNat = some n) :
    exec (.tSym p) s = .next (s.respond (some ((BitVec.ofNat 8 n).setWidth 64))) :=
  exec_unit_done rfl (by rw [body, tSymBody, tableSymbolFor, if_neg hp.not_ge, h, Run.andThen_done])

theorem tSym_raised {p : BitVec 30} {s : State} (h : s.table.totalCount ≤ p.toNat) :
    body (.tSym p) s = .raised .tableRange .none s := by
  rw [body, tSymBody, tableSymbolFor, if_pos h, Run.andThen_raised]

/-- The ranges of two symbols have no position in common, since the entries do not decrease (41_frequency_table R144). -/
theorem Table.Valid.symbol_unique {cfg : Config} {t : Table} (h : t.Valid cfg) {p : Nat} {v w : Sym}
    (hv : t.iv v.toNat ≤ p ∧ p < t.iv (v.toNat + 1)) (hw : t.iv w.toNat ≤ p ∧ p < t.iv (w.toNat + 1)) : w = v := by
  have not_below : ∀ {a b : Sym}, p < t.iv (a.toNat + 1) → t.iv b.toNat ≤ p → ¬a.toNat < b.toNat :=
    fun {a b} ha hb hab => (ha.trans_le (h.iv_mono hab b.isLt.le)).not_ge hb
  have h1 := not_below hv.2 hw.1
  have h2 := not_below hw.2 hv.1
  exact BitVec.eq_of_toNat_eq (by omega)

/-! ### Updating the table -/

theorem highIndex_pos (v : Sym) : 0 < highIndex v := Nat.succ_pos _

theorem tUpd_done (v : Sym) (s : State) : exec (.tUpd v) s = .next ((s.updateTable v).respond none) :=
  exec_unit_done rfl rfl

theorem table_of_tUpd {v : Sym} {s t : State} (h : exec (.tUpd v) s = .next t) :
    t.table = s.table.update s.cfg s.tick v ∧ t.cfg = s.cfg := by
  rw [tUpd_done] at h
  cases h
  exact ⟨rfl, rfl⟩

theorem Table.update_below {cfg : Config} {t : Table} (h : t.totalCount + 1 < cfg.ceiling) (tick : Nat) (v : Sym) :
    t.update cfg tick v = t.increment cfg tick v := if_neg h.not_ge

theorem Table.update_rescales {cfg : Config} {t : Table} (h : cfg.ceiling ≤ t.totalCount + 1) (tick : Nat) (v : Sym) :
    t.update cfg tick v = (t.increment cfg tick v).rescale cfg tick := if_pos h

/-- The incremented counts of a table that may break its invariants: that the new count fits is enough. -/
theorem Table.increment_cnt_of_lt {cfg : Config} {t : Table} {v : Sym} (h : t.cnt (highIndex v) < cfg.ceiling)
    (tick : Nat) {i : Nat} (hi : i ≤ 256) :
    (t.increment cfg tick v).cnt i = if i = highIndex v then t.cnt i + 1 else t.cnt i := by
  have hceil := ceiling_bounds cfg
  rw [Table.increment, Table.cnt_entries, if_pos (by omega)]
  split
  · next hv => rw [hv, fitEntry_of_lt (by omega)]
  · rfl

theorem Table.increment_iv_zero (cfg : Config) (tick : Nat) (v : Sym) (t : Table) :
    (t.increment cfg tick v).iv 0 = t.iv 0 := by
  rw [Table.increment, Table.iv_entries, if_pos (by decide), if_neg (highIndex_pos v).not_ge]

theorem Table.Valid.cnt_lt_ceiling {cfg : Config} {t : Table} (h : t.Valid cfg) (v : Sym) :
    t.cnt (highIndex v) < cfg.ceiling :=
  (h.cnt_le v.isLt).trans_lt h.bounds.2

/-- A rebuilt entry is the one before it and its count, where that sum fits (41_frequency_table R148). -/
theorem Table.rescale_iv_succ {cfg : Config} {tick : Nat} {t : Table} {i : Nat} (hi : i < 256)
    (h : (t.rescale cfg tick).iv i + (t.rescale cfg tick).cnt (i + 1) < 2 ^ cfg.countBits) :
    (t.rescale cfg tick).iv (i + 1) = (t.rescale cfg tick).iv i + (t.rescale cfg tick).cnt (i + 1) := by
  rw [rescale_iv_eq _ _ _ hi.le] at h ⊢
  rw [rescale_iv_eq _ _ _ hi, rebuiltInterval, fitEntry_of_lt h]

section Rescale

variable {cfg : Config} {t : Table} {v : Sym} (hceil : cfg.ceiling ≤ t.totalCount + 1)
  (hfit : t.cnt (highIndex v) < cfg.ceiling) (tick : Nat)
include hceil

theorem Table.update_total_of_rescale : (t.update cfg tick v).totalCount = (t.update cfg tick v).iv 256 := by
  rw [update_rescales hceil, rescale_total]

theorem Table.update_iv_zero_of_rescale : (t.update cfg tick v).iv 0 = t.iv 0 := by
  rw [update_rescales hceil, rescale_iv_zero, increment_iv_zero]

theorem Table.update_iv_succ_of_rescale {i : Nat} (hi : i < 256)
    (h : (t.update cfg tick v).iv i + (t.update cfg tick v).cnt (i + 1) < 2 ^ cfg.countBits) :
    (t.update cfg tick v).iv (i + 1) = (t.update cfg tick v).iv i + (t.update cfg tick v).cnt (i + 1) := by
  rw [update_rescales hceil] at h ⊢
  exact rescale_iv_succ hi h

include hfit

theorem Table.update_cnt_zero_of_rescale : (t.update cfg tick v).cnt 0 = t.cnt 0 := by
  rw [update_rescales hceil, rescale_cnt_zero, increment_cnt_of_lt hfit _ (Nat.zero_le _),
    if_neg (highIndex_pos v).ne]

theorem Table.update_cnt_of_rescale {i : Nat} (h1 : 1 ≤ i) (hi : i ≤ 256) :
    (t.update cfg tick v).cnt i = halved (if i = highIndex v then t.cnt i + 1 else t.cnt i) := by
  rw [update_rescales hceil, rescale_cnt _ _ _ h1 hi, increment_cnt_of_lt hfit _ hi]

end Rescale

/-- Each of the 256 counts gives up at least half of itself but for the clamp, so the total is at most half of the ceiling
and 256 together (41_frequency_table R150). -/
theorem Table.AtMostCeiling.rescale_total_le {cfg : Config} {t : Table} (h : t.AtMostCeiling cfg) (tick : Nat) :
    (t.rescale cfg tick).totalCount ≤ (cfg.ceiling + 256) / 2 := by
  have hb := h.bounds
  have ht := h.total
  obtain ⟨-, htwice, -⟩ := h.rebuilt_le tick le_rfl (t.rescale cfg tick).cnt fun j h1 hj => rescale_cnt cfg tick t h1 hj
  rw [rescale_total, rescale_iv_eq _ _ _ le_rfl]
  omega

/-! ### The statements -/

/-- Settles O7: the fresh table is 0, then ones, with the index itself as running sum. -/
theorem tNewCreatesTheUniformTable : Obligations.TNewCreatesTheUniformTable :=
  fun s => ⟨exec_unit_done (i := .tNew) rfl rfl, (Table.fresh_valid s.cfg).zeroBase.1, Table.fresh_iv (Nat.zero_le _),
    fun _ h1 hi => ⟨Table.fresh_cnt h1 hi, Table.fresh_iv hi⟩, rfl, Table.fresh_valid s.cfg⟩

/-- Settles O8: the entry fits the result, and an index past the array is tested first. -/
theorem tIendReturnsTheIntervalEntry : Obligations.TIendReturnsTheIntervalEntry :=
  fun s _ hfits => ⟨fun hi => ⟨_, hfits.iv_toNat hi, tIend_done hi s⟩,
    fun hi hm => exec_faulted (tIend_raised hi s) hm⟩

/-- Settles O9: the search finds a symbol whose range contains the position, and no other range does. -/
theorem tSymReturnsTheContainingSymbol : Obligations.TSymReturnsTheContainingSymbol := by
  refine fun s p hvalid => ⟨fun hp => ?_, fun hp hm => exec_faulted (tSym_raised hp) hm⟩
  obtain ⟨n, hsearch, hn, hlo, hhi⟩ := hvalid.search hp
  have hv : s.table.iv (BitVec.ofNat 8 n).toNat ≤ p.toNat ∧ p.toNat < s.table.iv ((BitVec.ofNat 8 n).toNat + 1) := by
    rw [BitVec.toNat_ofNat, Nat.mod_eq_of_lt hn]
    exact ⟨hlo, hhi⟩
  exact ⟨_, hv.1, hv.2, fun w hwlo hwhi => hvalid.symbol_unique hv ⟨hwlo, hwhi⟩, tSym_done hp hsearch⟩

/-- Settles O10: below the ceiling the table is the incremented one; at the ceiling it is rescaled, and on a table that
meets its invariants every rebuilt sum fits. -/
theorem tUpdIncrementsAndRescales : Obligations.TUpdIncrementsAndRescales := by
  refine ⟨fun s v hvalid => ⟨_, tUpd_done v s, fun hbelow => ?_, fun hceil => ?_⟩,
    fun s v hceil hfit => ⟨_, tUpd_done v s, ?_⟩⟩
  · rw [State.updateTable_table, Table.update_below hbelow]
    exact ⟨rfl, fun i hi => Table.increment_cnt hvalid _ v hi, fun i hi => Table.increment_iv hvalid _ v hi⟩
  · have hnew := hvalid.update s.tick v
    exact ⟨hnew.zeroBase.1, hnew.zeroBase.2,
      fun i h1 hi => Table.update_cnt_of_rescale hceil (hvalid.cnt_lt_ceiling v) _ h1 hi, hnew.sums, hnew.total⟩
  · exact ⟨Table.update_cnt_zero_of_rescale hceil hfit _, Table.update_iv_zero_of_rescale hceil _,
      fun i h1 hi => Table.update_cnt_of_rescale hceil hfit _ h1 hi,
      fun i hi h => Table.update_iv_succ_of_rescale hceil _ hi h, Table.update_total_of_rescale hceil _⟩

/-- Settles O11: the updated table meets the invariants, and a rescale halves what stands above one for each symbol. -/
theorem tUpdKeepsTheTableInvariants : Obligations.TUpdKeepsTheTableInvariants := by
  intro s t v hvalid hexec
  obtain ⟨htable, hcfg⟩ := table_of_tUpd hexec
  have hnew := hvalid.update s.tick v
  rw [htable, hcfg]
  refine ⟨hnew, fun hceil => ⟨hnew.bounds.1, hnew.bounds.2, ?_⟩⟩
  rw [Table.update_rescales hceil]
  exact (Table.increment_atMostCeiling hvalid _ v).rescale_total_le _

/-- Settles O12: halving with the clamp is monotone, and the intervals of a table that meets its invariants are strictly
increasing. -/
theorem rescaleKeepsTheRanking : Obligations.RescaleKeepsTheRanking := by
  intro s t v i j hvalid hceil hi1 hi hj1 hj hexec hle
  have hcnt := hvalid.cnt_lt_ceiling v
  rw [(table_of_tUpd hexec).1]
  refine ⟨?_, fun a b hab hb => (hvalid.update s.tick v).iv_strict hab hb⟩
  rw [Table.update_cnt_of_rescale hceil hcnt _ hj1 hj, Table.update_cnt_of_rescale hceil hcnt _ hi1 hi]
  exact halved_mono hle

end Sys2Proof.Machine
end

section
/-! SUPPORT. Proofs of the statements on the renormalizer: `NARROW`, `BPF` and `RENORM` issued directly, each pass of the
loop from its branch. -/

namespace Sys2Proof.Machine

/-! ### How the renormalizer's operations end -/

theorem narrow_done {s : State} (h : s.l.toNat ≤ s.h.toNat) (v : Sym) :
    exec (.narrow v) s = .next ((s.narrowTo v).respond none) :=
  exec_unit_done rfl (by rw [body, narrowBody, narrowInterval_ok h, Run.andThen_done])

theorem narrow_raised {s : State} (h : s.h.toNat < s.l.toNat) (v : Sym) :
    body (.narrow v) s = .raised .intervalOverflow .narrow s := by
  rw [body, narrowBody, narrowInterval, if_pos h, Run.andThen_raised]

theorem bpf_done {b : Bool} {s t : State} (h : bitPlusFollow .none b s = .done () t) :
    exec (.bpf b) s = .next (t.respond none) :=
  exec_unit_done rfl (by rw [body, bpfBody, h, Run.andThen_done])

theorem bpf_raised {b : Bool} {s t : State} {f : FaultCode} (h : bitPlusFollow .none b s = .raised f .none t) :
    body (.bpf b) s = .raised f .none t := by
  rw [body, bpfBody, h, Run.andThen_raised]

theorem renorm_done {dir : Dir} {s t : State} (h : renormalize dir s = .done () t) :
    exec (.renorm dir) s = .next (t.respond none) :=
  exec_unit_done rfl (by rw [body, renormBody, h, Run.andThen_done])

theorem renorm_raised {dir : Dir} {s t : State} {f : FaultCode} {g : Stage} (h : renormalize dir s = .raised f g t) :
    body (.renorm dir) s = .raised f g t := by
  rw [body, renormBody, h, Run.andThen_raised]

/-- With no condition left `RENORM` only responds (42_renormalizer R165). -/
theorem renorm_wide (dir : Dir) {s : State} (h : s.Wide) : exec (.renorm dir) s = .next (s.respond none) :=
  renorm_done (renormalize_wide h)

/-- The loop's bound is never passed (42_renormalizer R169). -/
theorem renormalize_ne_stopped (dir : Dir) (s : State) (f : Fault) : renormalize dir s ≠ .stopped f := by
  intro h
  have hall := renormalize_all steady_true dir (s := s) trivial
  rw [h] at hall
  exact hall

/-- `RENORM` raises what its first pass raises. -/
theorem renormalize_raised_of_pass {dir : Dir} {s t : State} {f : FaultCode} {g : Stage}
    (hb : branchOf s.l.toNat s.h.toNat ≠ .done)
    (h : renormPass dir (branchOf s.l.toNat s.h.toNat) s = .raised f g t) : renormalize dir s = .raised f g t := by
  rw [renormalize, renormFuel, renormLoop_succ hb, h, Run.andThen_raised]

/-- `RENORM` that goes through is one pass and then `RENORM` (42_renormalizer R165). -/
theorem exec_renorm_pass {dir : Dir} {s t u : State} (hb : branchOf s.l.toNat s.h.toNat ≠ .done)
    (hp : renormPass dir (branchOf s.l.toNat s.h.toNat) s = .done () t) (h : renormalize dir t = .done () u) :
    exec (.renorm dir) s = exec (.renorm dir) t := by
  rw [renorm_done ((renormalize_pass hb hp).trans h), renorm_done h]

/-! ### Failing writes -/

theorem writeRepeated_fails (stage : Stage) (b : Bool) (k : Nat) {s : State} (h : ¬s.NextTransfersSucceed k) :
    ∃ u, writeRepeated stage b k s = .raised .ioError stage u := by
  induction k generalizing s with
  | zero => exact absurd (fun x hx => by simp at hx) h
  | succ k ih =>
    rw [writeRepeated]
    cases hf : s.transferFails with
    | true => exact ⟨_, by rw [bsWrite_fails (by decide) (by decide) hf, Run.andThen_raised]⟩
    | false =>
      rw [bsWrite_ok (by decide) (by decide) hf, Run.andThen_done]
      exact ih ((nextTransfersSucceed_tail hf rfl k).not.mp h)

/-- A group with a failing write raises `IO_ERROR`, at its own bit or at one of the follow-bits (42_renormalizer R164). -/
theorem bitPlusFollow_fails (stage : Stage) (b : Bool) {s : State} (h : ¬s.NextTransfersSucceed (s.bitsToFollow + 1)) :
    ∃ u, bitPlusFollow stage b s = .raised .ioError stage u := by
  rw [bitPlusFollow]
  cases hf : s.transferFails with
  | true =>
    obtain ⟨u, hu⟩ := writeRepeated_fails stage b 1 (s := s) fun hn => by simp [hn.first] at hf
    exact ⟨u, by rw [hu, Run.andThen_raised]⟩
  | false =>
    rw [writeRepeated_ok stage b 1 s (nextTransfersSucceed_one hf), Run.andThen_done]
    obtain ⟨u, hu⟩ := writeRepeated_fails stage (!b) s.bitsToFollow
      (s := { s with wrBits := s.wrBits ++ List.replicate 1 b, ioFails := s.ioFails.drop 1 })
      ((nextTransfersSucceed_tail hf (List.drop_one) _).not.mp h)
    exact ⟨u, by rw [hu, Run.andThen_raised]⟩

/-! ### Passes of `RENORM E` -/

/-- The pass of a branch, written out for the two branches that decide a bit. -/
theorem State.emitPass_decides {b : Branch} {bit : Bool} {s : State}
    (hb : emitted b s.bitsToFollow = bit :: List.replicate s.bitsToFollow (!bit))
    (hp : pendingAfter b s.bitsToFollow = 0) :
    s.emitPass b = { s with
      l := BitVec.ofNat 32 (2 * (s.l.toNat - b.offset))
      h := BitVec.ofNat 32 (2 * (s.h.toNat - b.offset) + 1)
      wrBits := s.wrBits ++ bit :: List.replicate s.bitsToFollow (!bit)
      bitsToFollow := 0
      ioFails := s.ioFails.drop (s.bitsToFollow + 1) } := by
  rw [State.emitPass, hb, hp, List.length_cons, List.length_replicate]

/-- From ordered bounds, while a condition holds, `RENORM E` is one pass and then `RENORM E` (42_renormalizer R165). -/
theorem exec_renorm_emitPass {s : State} {b : Branch} (hf : s.NoTransferFails) (hlh : s.l.toNat ≤ s.h.toNat)
    (hb : branchOf s.l.toNat s.h.toNat = b) (hd : b ≠ .done) :
    exec (.renorm .emit) s = exec (.renorm .emit) (s.emitPass b) := by
  subst hb
  obtain ⟨t, -, -, ht, -, -⟩ := renormalize_emit (s := s.emitPass (branchOf s.l.toNat s.h.toNat)) (hf.of_drop rfl)
    (State.emitPass_bounds hlh hd).1
  exact exec_renorm_pass hd (renormPass_emit hf hlh hd) ht

theorem noTransferFails_steady : Steady State.NoTransferFails where
  write _ _ h := h.of_drop (k := 1) List.drop_one.symm
  pending _ _ h := h
  read _ _ h := h.of_drop (k := 1) List.drop_one.symm
  bounds _ _ _ _ h := h

/-- Where no transfer fails `RENORM E` raises nothing but the overflow report, from any bounds (42_renormalizer R167). -/
theorem renormPass_emit_overflow {b : Branch} {s : State} (h : s.NoTransferFails) :
    (renormPass .emit b s).Raises fun f g => f = .intervalOverflow ∧ g = .renorm := by
  rw [renormPass, branchOutput_emit b s h, Run.andThen_done, shiftStep]
  split
  · exact ⟨rfl, rfl⟩
  · rw [shiftInput, Run.andThen_done]
    dsimp only
    split
    · exact ⟨rfl, rfl⟩
    · trivial

theorem renormLoop_emit_overflow (n : Nat) {s : State} (h : s.NoTransferFails) :
    (renormLoop .emit n s).Raises fun f g => f = .intervalOverflow ∧ g = .renorm := by
  induction n generalizing s with
  | zero => trivial
  | succ n ih =>
    by_cases hb : branchOf s.l.toNat s.h.toNat = .done
    · rw [renormLoop_done hb]; trivial
    · rw [renormLoop_succ hb]
      refine (renormPass_emit_overflow h).andThen fun _ t ht => ih ?_
      have hall := renormPass_all noTransferFails_steady .emit (branchOf s.l.toNat s.h.toNat) h
      rw [ht] at hall
      exact hall

/-! ### Passes of `RENORM C` -/

theorem State.remaining_headD (s : State) : s.remaining.headD false = s.nextBit := by
  rw [State.remaining, State.nextBit, List.headD_eq_head?_getD, List.head?_drop, List.getD_eq_getElem?_getD]

/-- The state after one pass of `RENORM C` that subtracts `off` (42_renormalizer R165). -/
def State.consumeShift (off : Nat) (s : State) : State :=
  { s with
    l := BitVec.ofNat 32 (2 * (s.l.toNat - off))
    h := BitVec.ofNat 32 (2 * (s.h.toNat - off) + 1)
    value := BitVec.ofNat 32 (2 * (s.value.toNat - off) + s.nextBit.toNat)
    rdPos := s.rdPos + 1
    ioFails := s.ioFails.tail }

theorem State.consumePass_eq (b : Branch) (s : State) : s.consumePass b = s.consumeShift b.offset := by
  rw [State.consumePass, State.remaining_headD, State.consumeShift]

/-- One pass that subtracts `off`, from any bounds and `value` (42_renormalizer R165, R167, R168). The shifted `h` fits
in every branch. -/
theorem State.ShiftsBy.pass {s : State} {off : Nat} (h : s.ShiftsBy off) :
    branchOf s.l.toNat s.h.toNat ≠ .done ∧
      renormPass .consume (branchOf s.l.toNat s.h.toNat) s =
        if s.value.toNat < off then .raised .intervalOverflow .renorm s
        else if s.transferFails then .raised .ioError .renorm (s.takeBits 1)
        else if s.rdBits.length ≤ s.rdPos then .raised .shortRead .renorm (s.takeBits 1)
        else if top < 2 * (s.l.toNat - off) ∨ top < 2 * (s.value.toNat - off) + s.nextBit.toNat then
          .raised .intervalOverflow .renorm { s.afterTransfer with rdPos := s.rdPos + 1 }
        else .done () (s.consumeShift off) := by
  have hh : 2 * (s.h.toNat - off) + 1 ≤ top := by
    have := toNat_le_top s.h
    unfold State.ShiftsBy at h
    unfold half firstQuart thirdQuart top at *
    omega
  obtain ⟨hb, ho⟩ := (s.shiftsBy_iff off).mp h
  refine ⟨hb, ?_⟩
  rw [renormPass_consume_eq, State.consumePass_eq, State.remaining_headD, ← ho]
  dsimp only
  simp only [show ¬top < 2 * (s.h.toNat - off) + 1 by omega, false_or]

/-- Where a condition holds, `RENORM C` raises what its first pass raises. -/
theorem State.ShiftsBy.renorm_faulted {s t : State} {off : Nat} {f : FaultCode} {g : Stage} (h : s.ShiftsBy off)
    (hp : renormPass .consume (branchOf s.l.toNat s.h.toNat) s = .raised f g t) (hm : s.mode ≠ .fault) :
    ∃ u, exec (.renorm .consume) s = .next u ∧ s.Faulted u f g :=
  exec_faulted (renorm_raised (renormalize_raised_of_pass h.pass.1 hp)) hm

/-- The result of a successful unit operation without one (30_encoding R104; log 9). -/
theorem State.respond_none (s : State) : s.respond none = { s with response := some { status := 0, result := none } } :=
  rfl

/-- A window inside the interval stays there, so `RENORM C` is one pass and then `RENORM C` (42_renormalizer R171). -/
theorem exec_renorm_consumeShift {s : State} {off : Nat} (hf : s.NoTransferFails) (hv : s.ValueInside)
    (hr : s.rdPos + 32 ≤ s.rdBits.length) (h : s.ShiftsBy off) :
    exec (.renorm .consume) s = exec (.renorm .consume) (s.consumeShift off) := by
  obtain ⟨hb, ho⟩ := (s.shiftsBy_iff off).mp h
  have hp : renormPass .consume (branchOf s.l.toNat s.h.toNat) s = .done () (s.consumeShift off) := by
    rw [renormPass_consume hv hb, hf.transferFails, if_neg (by decide), if_neg (by omega), State.consumePass_eq, ← ho]
  obtain ⟨t, -, ht, -, -⟩ := renormalize_consume hf hv hr
  exact exec_renorm_pass hb hp ((renormalize_pass hb hp).symm.trans ht)

theorem SameRun.refl (s : State) : SameRun s s := ⟨rfl, rfl, rfl, rfl, rfl⟩

/-- A state's fault shows one code and one stage. -/
theorem State.Faulted.unique {s s' t : State} {f f' : FaultCode} {g g' : Stage} (h : s.Faulted t f g)
    (h' : s'.Faulted t f' g') : f = f' ∧ g = g' := by
  have hr := h.record.symm.trans h'.record
  injection hr with hf _ hg
  exact ⟨hf, hg⟩

/-- One pass that goes through, and then what the rest of the loop completes or raises (42_renormalizer R165). -/
theorem State.ShiftsBy.renorm_rest {s t : State} {off : Nat} (h : s.ShiftsBy off) (hm : s.mode ≠ .fault)
    (hp : renormPass .consume (branchOf s.l.toNat s.h.toNat) s = .done () (s.consumeShift off))
    (ht : exec (.renorm .consume) (s.consumeShift off) = .next t) :
    (t.mode ≠ .fault → exec (.renorm .consume) s = .next t) ∧
      ∀ code stage, s.Faulted t code stage → ∃ u, exec (.renorm .consume) s = .next u ∧ s.Faulted u code stage := by
  have hpass : renormalize .consume s = renormalize .consume (s.consumeShift off) := renormalize_pass h.pass.1 hp
  cases hr : renormalize .consume (s.consumeShift off) with
  | stopped f => exact absurd hr (renormalize_ne_stopped _ _ f)
  | done u w =>
    rw [renorm_done hr] at ht
    injection ht with ht
    subst ht
    refine ⟨fun _ => renorm_done (hpass.trans hr), fun code stage hfault => ?_⟩
    have hmode := renormalize_sameRun (SameRun.refl _) hr
    exact absurd (hmode.mode.symm.trans hfault.mode) hm
  | raised f g w =>
    obtain ⟨hnext, hfaulted⟩ := exec_raised (renorm_raised hr) hm
    rw [hnext] at ht
    injection ht with ht
    subst ht
    refine ⟨fun hmode => absurd hfaulted.mode hmode, fun code stage hfault => ?_⟩
    obtain ⟨rfl, rfl⟩ := hfaulted.unique hfault
    exact exec_faulted (renorm_raised (hpass.trans hr)) hm

/-! ### The statements -/

/-- Settles O13: the formulas do not wrap in a table that meets its invariants, and floor division keeps the subinterval of
a symbol inside an interval at least as wide as the total. -/
theorem narrowMapsTheSymbolToItsSubinterval : Obligations.NarrowMapsTheSymbolToItsSubinterval := by
  refine fun s v hvalid => ⟨fun hlh h1 => ?_, fun hlh hm => exec_faulted (narrow_raised hlh v) hm⟩
  obtain ⟨hl, hh⟩ := State.narrowed_values hvalid hlh v h1
  refine ⟨s.narrowedL v, s.narrowedH v, narrow_done hlh v, hl, hh, fun hwide => ?_⟩
  obtain ⟨-, -, hordered, hinside⟩ := State.narrowed hvalid hlh hwide v
  exact ⟨by omega, hordered, hinside⟩

/-- Settles O14: each transfer of the group succeeds, or the first that fails raises. -/
theorem bpfWritesTheBitAndTheFollowBits : Obligations.BpfWritesTheBitAndTheFollowBits := by
  refine fun s b => ⟨fun h => bpf_done (bitPlusFollow_ok _ b s h), fun h hm => ?_⟩
  obtain ⟨u, hu⟩ := bitPlusFollow_fails .none b h
  exact exec_faulted (bpf_raised hu) hm

/-- Settles O15: each clause names the branch, whose pass `RENORM E` makes first. -/
theorem renormEmitTakesTheFirstBranchThatHolds : Obligations.RenormEmitTakesTheFirstBranchThatHolds := by
  refine fun s hf hlh => ⟨fun hh => ?_, fun hl => ?_, fun hl hh hq ht => ?_, renorm_wide .emit⟩
  · rw [exec_renorm_emitPass hf hlh (b := .e2) (if_pos hh) (by decide), State.emitPass_decides (bit := false) rfl rfl]
    rfl
  · rw [exec_renorm_emitPass hf hlh (b := .e1) (by rw [branchOf, if_neg (by omega), if_pos hl]) (by decide),
      State.emitPass_decides (bit := true) rfl rfl]
    rfl
  · rw [exec_renorm_emitPass hf hlh (b := .e3)
      (by rw [branchOf, if_neg (by omega), if_neg (by omega), if_pos ⟨hq, ht⟩]) (by decide)]
    simp only [State.emitPass, emitted, pendingAfter, Branch.offset, List.append_nil, List.length_nil, List.drop_zero]

/-- Settles O16: a pass of `RENORM C` from a window inside the interval, and one from anywhere whose shifted values fit. -/
theorem renormConsumeMirrorsTheBranches : Obligations.RenormConsumeMirrorsTheBranches := by
  refine ⟨fun s hf hv hr => ⟨fun off hoff => exec_renorm_consumeShift hf hv hr ?_, renorm_wide .consume⟩, ?_,
    fun s => renorm_wide .consume⟩
  · have hlh := hv.1.trans hv.2
    unfold State.ShiftsBy
    omega
  · intro s t off hm hs hoff hf hr hl hval ht
    refine hs.renorm_rest hm ?_ ht
    rw [hs.pass.2, if_neg (by omega), hf, if_neg (by decide), if_neg (by omega), if_neg (by omega)]

/-- Settles O17: the whole loop from ordered bounds. -/
theorem renormEmitEndsWide : Obligations.RenormEmitEndsWide := by
  intro s hf hlh
  obtain ⟨t, k, bits, ht, hrun, hk⟩ := renormalize_emit hf hlh
  refine ⟨t.respond none, k, bits, renorm_done ht, ?_, { hrun.wide with }, hk, hrun.width, hrun.count⟩
  rw [State.respond_none]
  conv_lhs => rw [hrun.frame]

/-- Settles O18: the whole loop from a window inside the interval. -/
theorem renormConsumeEndsWide : Obligations.RenormConsumeEndsWide := by
  intro s hf hv hr
  obtain ⟨t, k, ht, hrun, hk⟩ := renormalize_consume hf hv hr
  refine ⟨t.respond none, k, renorm_done ht, ?_, { hrun.wide with }, hrun.inside, hk, hrun.width⟩
  rw [State.respond_none]
  conv_lhs => rw [hrun.frame]

/-- Settles O19: from crossed bounds the loop does not go through, and with no failing transfer it has one fault to
raise. -/
theorem crossedBoundsReportOverflow : Obligations.CrossedBoundsReportOverflow := by
  intro s hf hlh hm
  obtain ⟨f, g, t, ht, -⟩ := renormLoop_crossed steady_true .emit 32 (s := s) trivial hlh (by simp) le_rfl
  have hraises := renormLoop_emit_overflow 33 hf
  rw [ht] at hraises
  obtain ⟨rfl, rfl⟩ := hraises
  exact exec_faulted (renorm_raised ht) hm

/-- Settles O20: the guard before the read, and the check of the shifted `l` and `value` after it. -/
theorem valueBelowTheOffsetReportsOverflow : Obligations.ValueBelowTheOffsetReportsOverflow := by
  refine fun s off hm hs => ⟨fun hlow => hs.renorm_faulted (t := s) ?_ hm, fun hoff hf hr hbig =>
    hs.renorm_faulted (t := { s.afterTransfer with rdPos := s.rdPos + 1 }) ?_ hm⟩
  · rw [hs.pass.2, if_pos hlow]
  · rw [hs.pass.2, if_neg (by omega), hf, if_neg (by decide), if_neg (by omega), if_pos hbig]

/-- Settles O48: every operation's pseudocode ends, its loop included. -/
theorem everyOperationAnswersANextState : Obligations.EveryOperationAnswersANextState := by
  intro i s
  obtain ⟨t, ht, -⟩ := exec_advances i s
  exact ⟨t, ht⟩

end Sys2Proof.Machine
end

section
/-! SUPPORT. Proofs of the statements on the shifts of a symbol: what `RENORM`, `ENC_SYM` and `DEC_SYM` do as their inputs
vary, and that both directions move alike. -/

namespace Sys2Proof.Machine

/-! ### A symbol as its shifts, with something before and after them -/

/-- What an operation with shifts does before them: `NARROW` of a symbol command's symbol, nothing for `RENORM` issued
directly. -/
def State.beforeShifts (v : Option Sym) (s : State) : State :=
  match v with
  | some v => s.narrowTo v
  | none => s

/-- What it does after them: `T_UPD` and the count of a symbol command. -/
def State.afterShifts (v : Option Sym) (s : State) : State :=
  match v with
  | some v => (s.updateTable v).countSymbol
  | none => s

/-- The same state with another source and other transfer inputs. -/
def State.withInputs (s : State) (source : Bits) (fails : List Bool) : State :=
  { s with rdBits := source, ioFails := fails }

theorem State.beforeShifts_withInputs (v : Option Sym) (s : State) (b : Bits) (f : List Bool) :
    (s.withInputs b f).beforeShifts v = (s.beforeShifts v).withInputs b f := by cases v <;> rfl

section Streams
variable (v : Option Sym) (s : State)
@[simp] theorem State.beforeShifts_rdPos : (s.beforeShifts v).rdPos = s.rdPos := by cases v <;> rfl
@[simp] theorem State.beforeShifts_rdBits : (s.beforeShifts v).rdBits = s.rdBits := by cases v <;> rfl
@[simp] theorem State.beforeShifts_wrBits : (s.beforeShifts v).wrBits = s.wrBits := by cases v <;> rfl
@[simp] theorem State.beforeShifts_ioFails : (s.beforeShifts v).ioFails = s.ioFails := by cases v <;> rfl
@[simp] theorem State.afterShifts_rdPos : (s.afterShifts v).rdPos = s.rdPos := by cases v <;> rfl
@[simp] theorem State.afterShifts_wrBits : (s.afterShifts v).wrBits = s.wrBits := by cases v <;> rfl
@[simp] theorem State.beforeShifts_nextTransfersSucceed (k : Nat) :
    (s.beforeShifts v).NextTransfersSucceed k ↔ s.NextTransfersSucceed k := by cases v <;> exact Iff.rfl
end Streams

/-- Whatever the inputs, the operation `i` begun at `s` shifts in direction `dir`, with the symbol `v` narrowed before and
counted after, and answers `r`. -/
def ShiftsAs (i : Instr) (dir : Dir) (v : Option Sym) (r : Option Count) (s : State) : Prop :=
  ∀ (b : Bits) (f : List Bool), body i (s.withInputs b f) =
    (renormalize dir ((s.beforeShifts v).withInputs b f)).andThen fun _ t => .done r (t.afterShifts v)

theorem renorm_shiftsAs (dir : Dir) (s : State) : ShiftsAs (.renorm dir) dir none none s := fun _ _ => rfl

theorem encSym_shiftsAs {v : Sym} {s : State} (hm : s.mode = .enc) (hn : s.symIdx ≠ s.nTotal)
    (hlh : s.l.toNat ≤ s.h.toNat) : ShiftsAs (.encSym v) .emit (some v) (some 0) s := by
  intro b f
  have hm' : ¬(s.withInputs b f).mode ≠ .enc := not_not.mpr hm
  have hn' : (s.withInputs b f).symIdx ≠ (s.withInputs b f).nTotal := hn
  rw [body, encSymBody, if_neg hm', if_neg hn', narrowInterval_ok (s := s.withInputs b f) hlh, Run.andThen_done]
  rfl

/-- The search reads none of the inputs. -/
theorem searchSymbol_withInputs {v : Sym} {s : State} (h : searchSymbol s = .done v s) (b : Bits) (f : List Bool) :
    searchSymbol (s.withInputs b f) = .done v (s.withInputs b f) := by
  have hsearch : (s.withInputs b f).table.search (s.withInputs b f).position = s.table.search s.position := rfl
  unfold searchSymbol tableSymbolFor at h ⊢
  split_ifs at h with hout htotal
  rw [if_neg (by exact hout), if_neg (by exact htotal), hsearch]
  cases hfound : s.table.search s.position with
  | some n => rw [hfound] at h; cases h; rfl
  | none => rw [hfound] at h; cases h; rfl

theorem searchSymbol_inside {v : Sym} {s t : State} (h : searchSymbol s = .done v t) : s.ValueInside := by
  unfold searchSymbol at h
  split_ifs at h with hout
  exact ⟨by omega, by omega⟩

theorem decSym_shiftsAs {v : Sym} {s : State} (hm : s.mode = .dec) (hn : s.symIdx ≠ s.nTotal)
    (hs : searchSymbol s = .done v s) : ShiftsAs .decSym .consume (some v) (some (v.setWidth 64)) s := by
  intro b f
  obtain ⟨hlow, hhigh⟩ := searchSymbol_inside hs
  have hm' : ¬(s.withInputs b f).mode ≠ .dec := not_not.mpr hm
  have hn' : (s.withInputs b f).symIdx ≠ (s.withInputs b f).nTotal := hn
  rw [body, decSymBody, if_neg hm', if_neg hn', searchSymbol_withInputs hs, Run.andThen_done,
    narrowInterval_ok (s := s.withInputs b f) (hlow.trans hhigh), Run.andThen_done]
  rfl

/-- `ENC_SYM` that goes through began at ordered bounds (42_renormalizer R161). -/
theorem encSymBody_ordered {v : Sym} {s t : State} {r : Option Count} (h : encSymBody v s = .done r t) :
    s.l.toNat ≤ s.h.toNat := by
  by_contra hlh
  obtain ⟨hm, hn, -⟩ := encSymBody_done h
  rw [encSymBody, if_neg (not_not.mpr hm), if_neg hn, narrowInterval, if_pos (by omega)] at h
  cases h

/-- The direction in which an operation shifts; none: it makes no shift. -/
def shiftDir : Instr → Option Dir
  | .renorm dir => some dir
  | .encSym _ => some .emit
  | .decSym => some .consume
  | _ => none

/-- Each of the four operations that goes through is its shifts with something before and after them. -/
theorem shiftsAs_of_done {i : Instr} {dir : Dir} (hi : shiftDir i = some dir) {s t : State} {r : Option Count}
    (h : body i s = .done r t) : ∃ v, ShiftsAs i dir v r s := by
  cases i with
  | renorm d =>
    cases hi
    obtain ⟨_, u, -, hr⟩ := Run.andThen_eq_done.mp h
    cases hr
    exact ⟨none, renorm_shiftsAs dir s⟩
  | encSym v =>
    cases hi
    obtain ⟨hm, hn, -⟩ := encSymBody_done h
    have hs := encSym_shiftsAs (v := v) hm hn (encSymBody_ordered h)
    obtain ⟨_, u, -, hr⟩ := Run.andThen_eq_done.mp ((hs s.rdBits s.ioFails).symm.trans h)
    cases hr
    exact ⟨some v, hs⟩
  | decSym =>
    cases hi
    obtain ⟨hm, hn, v, -, hsearch, -, -⟩ := decSymBody_done h
    have hs := decSym_shiftsAs hm hn hsearch
    obtain ⟨_, u, -, hr⟩ := Run.andThen_eq_done.mp ((hs s.rdBits s.ioFails).symm.trans h)
    cases hr
    exact ⟨some v, hs⟩
  | _ => cases hi

/-- An operation that ends outside `FAULT` has run through. -/
theorem exec_through {i : Instr} {s t : State} (hm : s.mode ≠ .fault) (h : exec i s = .next t) (ht : t.mode ≠ .fault) :
    ∃ r u, body i s = .done r u ∧ t = u.respond r := by
  rcases exec_cases h with ⟨hf, -⟩ | hdone | ⟨f, g, u, -, rfl⟩
  · exact absurd hf hm
  · exact hdone
  · exact absurd rfl ht

/-- An operation with shifts that goes through on inputs of its own: its shifts went through there. -/
theorem shifts_through {i : Instr} {dir : Dir} (hi : shiftDir i = some dir) {s t : State} (hm : s.mode ≠ .fault)
    {b : Bits} {f : List Bool} (h : exec i (s.withInputs b f) = .next t) (ht : t.mode ≠ .fault) :
    ∃ v r u, ShiftsAs i dir v r s ∧ renormalize dir ((s.beforeShifts v).withInputs b f) = .done () u ∧
      t = (u.afterShifts v).respond r := by
  obtain ⟨r, w, hbody, rfl⟩ := exec_through (s := s.withInputs b f) hm h ht
  obtain ⟨v, hs⟩ := shiftsAs_of_done hi hbody
  have hs' : ShiftsAs i dir v r s := fun b' f' => (hs b' f').trans (by rw [State.beforeShifts_withInputs]; rfl)
  obtain ⟨_, u, hu, hw⟩ := Run.andThen_eq_done.mp ((hs' b f).symm.trans hbody)
  injection hw with _ hw
  exact ⟨v, r, u, hs', hu, by rw [hw]⟩

section ShiftsAs

variable {i : Instr} {dir : Dir} {v : Option Sym} {r : Option Count} {s : State} (hs : ShiftsAs i dir v r s)
include hs

theorem ShiftsAs.body_eq :
    body i s = (renormalize dir (s.beforeShifts v)).andThen fun _ t => .done r (t.afterShifts v) := by
  have hin : (s.beforeShifts v).withInputs s.rdBits s.ioFails = s.beforeShifts v := by cases v <;> rfl
  have hbody := hs s.rdBits s.ioFails
  rwa [hin] at hbody

theorem ShiftsAs.done {u : State} (hm : s.mode ≠ .fault) (h : renormalize dir (s.beforeShifts v) = .done () u) :
    exec i s = .next ((u.afterShifts v).respond r) :=
  exec_done (by rw [hs.body_eq, h, Run.andThen_done]) hm

theorem ShiftsAs.raised {u : State} {f : FaultCode} {g : Stage} (hm : s.mode ≠ .fault)
    (h : renormalize dir (s.beforeShifts v) = .raised f g u) : ∃ t, exec i s = .next t ∧ s.Faulted t f g :=
  exec_faulted (by rw [hs.body_eq, h, Run.andThen_raised]) hm

end ShiftsAs

/-! ### The same operation on other inputs -/

theorem State.NextTransfersSucceed.mono {s : State} {j k : Nat} (h : s.NextTransfersSucceed k) (hjk : j ≤ k) :
    s.NextTransfersSucceed j :=
  fun x hx => h x ((List.take_sublist_take_left hjk).subset hx)

/-- An operation that shifts bits in, and goes through with `more` bits behind the source's and no failing transfer: it
does the same on its own inputs, or finds no bit left, or comes to a transfer that fails (60_exceptions R238). -/
theorem exec_fed {i : Instr} (hi : shiftDir i = some .consume) {s t : State} {more : Bits} (hm : s.mode ≠ .fault)
    (hpos : s.rdPos ≤ s.rdBits.length) (h : exec i (s.withInputs (s.rdBits ++ more) []) = .next t)
    (ht : t.mode ≠ .fault) :
    (t.rdPos ≤ s.rdBits.length ∧ s.NextTransfersSucceed (t.rdPos - s.rdPos) ∧
      exec i s = .next (t.withInputs s.rdBits (s.ioFails.drop (t.rdPos - s.rdPos)))) ∨
    (s.rdBits.length < t.rdPos ∧ s.NextTransfersSucceed (s.rdBits.length - s.rdPos + 1) ∧
      ∃ u, exec i s = .next u ∧ s.Faulted u .shortRead .renorm) ∨
    (¬s.NextTransfersSucceed (min (t.rdPos - s.rdPos) (s.rdBits.length - s.rdPos + 1)) ∧
      ∃ u, exec i s = .next u ∧ s.Faulted u .ioError .renorm) := by
  obtain ⟨v, r, u, hs, hu, rfl⟩ := shifts_through hi hm h ht
  have hin : (s.beforeShifts v).withInputs (s.rdBits ++ more) [] = ((s.beforeShifts v).withMore more).unfailing := by
    cases v <;> rfl
  rw [hin] at hu
  have hfed := (renormLoop_fed renormFuel (s := s.beforeShifts v) (by simpa using hpos) hu).outcome
  simp only [State.beforeShifts_rdPos, State.beforeShifts_rdBits, State.beforeShifts_ioFails,
    State.beforeShifts_nextTransfersSucceed] at hfed
  simp only [State.respond_rdPos, State.afterShifts_rdPos]
  rcases hfed with ⟨hle, hnext, w, hw, rfl, hbits, hfails⟩ | ⟨hlt, hnext, w, hw⟩ | ⟨hnext, w, hw⟩
  · refine .inl ⟨hle, hnext, ?_⟩
    rw [hs.done hm hw, ← hbits, ← hfails]
    cases v <;> rfl
  · exact .inr (.inl ⟨hlt, hnext, hs.raised hm hw⟩)
  · exact .inr (.inr ⟨hnext, hs.raised hm hw⟩)

/-- An operation with shifts that goes through where no transfer fails: on its own transfers it does the same, or comes to
one that fails (60_exceptions R222). -/
theorem exec_charged {i : Instr} {dir : Dir} (hi : shiftDir i = some dir) {s t : State} (hm : s.mode ≠ .fault)
    (h : exec i s.unfailing = .next t) (ht : t.mode ≠ .fault) :
    (s.NextTransfersSucceed (transfers s t) ∧
      exec i s = .next { t with ioFails := s.ioFails.drop (transfers s t) }) ∨
    (¬s.NextTransfersSucceed (transfers s t) ∧ ∃ u, exec i s = .next u ∧ s.Faulted u .ioError .renorm) := by
  obtain ⟨v, r, u, hs, hu, rfl⟩ := shifts_through (b := s.rdBits) hi hm h ht
  have hin : (s.beforeShifts v).withInputs s.rdBits [] = (s.beforeShifts v).unfailing := by cases v <;> rfl
  have htr : transfers (s.beforeShifts v) u = transfers s ((u.afterShifts v).respond r) := by simp [transfers]
  rw [hin] at hu
  have hcharged := (renormLoop_charged dir renormFuel hu).outcome
  rw [htr, State.beforeShifts_nextTransfersSucceed, State.beforeShifts_ioFails] at hcharged
  rcases hcharged with ⟨hnext, w, hw, rfl, hfails⟩ | ⟨hnext, w, hw⟩
  · refine .inl ⟨hnext, ?_⟩
    rw [hs.done hm hw, ← hfails]
    cases v <;> rfl
  · exact .inr ⟨hnext, hs.raised hm hw⟩

/-- A branch that decides a bit raises where a transfer of its group fails (42_renormalizer R164, R165). -/
theorem renorm_emit_group_fails {s : State} (hb : branchOf s.l.toNat s.h.toNat = .e2 ∨ branchOf s.l.toNat s.h.toNat = .e1)
    (h : ¬s.NextTransfersSucceed (s.bitsToFollow + 1)) : ∃ u, renormalize .emit s = .raised .ioError .renorm u := by
  have hout : ∃ u, branchOutput .emit (branchOf s.l.toNat s.h.toNat) s = .raised .ioError .renorm u := by
    rcases hb with hb | hb <;> rw [hb] <;> exact bitPlusFollow_fails .renorm _ h
  obtain ⟨u, hu⟩ := hout
  exact ⟨u, renormalize_raised_of_pass (by rcases hb with hb | hb <;> rw [hb] <;> decide)
    (by rw [renormPass, hu, Run.andThen_raised])⟩

/-! ### Both sides of a symbol -/

/-- Between symbols the interval is at least as wide as the total (42_renormalizer R170). -/
theorem State.Wide.denom_le_delta {s : State} (hw : s.Wide) (ht : s.table.Valid s.cfg) : s.denom ≤ s.delta := by
  have hdenom := ht.denom_le
  have hdelta := hw.quarter.1
  omega

/-- From equal bounds and tables both sides narrow to equal bounds (42_renormalizer R172). -/
theorem State.narrowTo_mirrored {e d : State} (hvalid : e.table.Valid e.cfg) (hwide : e.Wide) (hcfg : e.cfg = d.cfg)
    (hl : e.l = d.l) (hh : e.h = d.h) (ht : e.table = d.table) (v : Sym) :
    (e.narrowTo v).l = (d.narrowTo v).l ∧ (e.narrowTo v).h = (d.narrowTo v).h := by
  have hwide' : d.Wide := d.wide_iff.mpr (by rw [← hl, ← hh]; exact e.wide_iff.mp hwide)
  have hvalid' : d.table.Valid d.cfg := by rwa [← ht, ← hcfg]
  have hscaled : e.scaled = d.scaled := by
    funext bound
    simp only [State.scaled, State.delta, State.denom, hl, hh, ht]
  obtain ⟨hel, heh, -⟩ := State.narrowed hvalid hwide.quarter.2 (hwide.denom_le_delta hvalid) v
  obtain ⟨hdl, hdh, -⟩ := State.narrowed hvalid' hwide'.quarter.2 (hwide'.denom_le_delta hvalid') v
  rw [hscaled, ht, hl] at hel heh
  exact ⟨BitVec.eq_of_toNat_eq (hel.trans hdl.symm),
    BitVec.eq_of_toNat_eq (Nat.succ_injective (heh.trans hdh.symm))⟩

/-- `ENC_SYM` that goes through: its shifts, and the table after them. -/
theorem encSym_through {v : Sym} {s t : State} (hm : s.mode ≠ .fault) (h : exec (.encSym v) s = .next t)
    (ht : t.mode ≠ .fault) :
    ∃ r u, renormalize .emit (s.narrowTo v) = .done () u ∧ t = (u.afterShifts (some v)).respond r := by
  obtain ⟨r, w, hbody, rfl⟩ := exec_through hm h ht
  obtain ⟨-, -, u, hu, rfl⟩ := encSymBody_done hbody
  exact ⟨r, u, hu, rfl⟩

/-- `DEC_SYM` that goes through and answers `v`: its shifts, and the table after them. -/
theorem decSym_through {v : Sym} {s t : State} (hm : s.mode ≠ .fault) (h : exec .decSym s = .next t)
    (ht : t.mode ≠ .fault) (hr : t.response = some { status := 0, result := some (v.setWidth 64) }) :
    ∃ r u, renormalize .consume (s.narrowTo v) = .done () u ∧ t = (u.afterShifts (some v)).respond r := by
  obtain ⟨_, _, hbody, -⟩ := exec_through hm h ht
  obtain ⟨hmode, hn, v', u, hsearch, hu, -⟩ := decSymBody_done hbody
  rw [(decSym_shiftsAs hmode hn hsearch).done hm hu] at h
  injection h with h
  subst h
  injection hr with hr
  injection hr with _ hr
  injection hr with hr
  have hv : v' = v := by
    simpa using congrArg (BitVec.setWidth 8) hr
  subst hv
  exact ⟨_, u, hu, rfl⟩

/-- Below the symbol count of the run the count is not reached. -/
theorem State.ne_of_symIdx_lt {s : State} (h : s.symIdx.toNat < s.nTotal.toNat) : s.symIdx ≠ s.nTotal :=
  fun e => by rw [e] at h; exact lt_irrefl _ h

/-! ### The statements -/

/-- Settles O30: the narrowed bounds are ordered, from which `RENORM E` raises nothing but `IO_ERROR`. -/
theorem encSymFaultsOnlyOnIo : Obligations.EncSymFaultsOnlyOnIo := by
  intro s t v hinv hm hn he ht
  have hrun : s.running = true := s.running_iff.mpr (.inl hm)
  have hnf : s.mode ≠ .fault := by rw [hm]; decide
  have hs := encSym_shiftsAs (v := v) hm (State.ne_of_symIdx_lt hn) (hinv.wide hrun).quarter.2
  have hraises := renormLoop_emit_raises renormFuel ((hinv.wide hrun).narrow_ordered (hinv.table hrun) v)
  cases hr : renormalize .emit (s.narrowTo v) with
  | stopped f => exact absurd hr (renormalize_ne_stopped _ _ f)
  | done a u =>
    rw [hs.done hnf hr] at he
    injection he with he
    have hmode := (renormalize_sameRun (s.narrowTo_sameRun v) hr).mode
    rw [← he] at ht
    exact absurd (hmode.symm.trans ht) hnf
  | raised f g u =>
    rw [show renormLoop .emit renormFuel (s.narrowTo v) = .raised f g u from hr] at hraises
    obtain ⟨rfl, rfl⟩ := hraises
    obtain ⟨w, hw, hfaulted⟩ := hs.raised hnf hr
    rw [hw] at he
    injection he with he
    exact he ▸ hfaulted

/-- Settles O38: both sides narrow alike, both directions of the loop move the bounds alike, and `T_UPD` of a table that
meets its invariants depends on nothing but the table. -/
theorem encoderAndDecoderStayMirrored : Obligations.EncoderAndDecoderStayMirrored := by
  intro e d te td v he hd hem hdm _ _ hcfg hl hh ht hexe htem hexd htdm hresp
  have hrun : e.running = true := e.running_iff.mpr (.inl hem)
  have hvalid := he.table hrun
  obtain ⟨_, ue, hue, rfl⟩ := encSym_through (by rw [hem]; decide) hexe (by rw [htem]; decide)
  obtain ⟨_, ud, hud, rfl⟩ := decSym_through (by rw [hdm]; decide) hexd (by rw [htdm]; decide) hresp
  obtain ⟨hnl, hnh⟩ := State.narrowTo_mirrored hvalid (he.wide hrun) hcfg hl hh ht v
  obtain ⟨hul, huh, hshifts⟩ := renormLoop_mirrored renormFuel hnl hnh hue hud
  refine ⟨hul, huh, ?_, hshifts⟩
  have hse := renormalize_sameRun (e.narrowTo_sameRun v) hue
  have hsd := renormalize_sameRun (d.narrowTo_sameRun v) hud
  calc ue.table.update ue.cfg ue.tick v = e.table.update e.cfg ue.tick v := by rw [hse.table, hse.cfg]
    _ = e.table.update e.cfg ud.tick v := hvalid.update_tick _ _ v
    _ = ud.table.update ud.cfg ud.tick v := by rw [hsd.table, hsd.cfg, ht, hcfg]

/-- Settles O57: with the further bits the operation goes through, so on its own source it comes to the first bit past the
end or does the same. -/
theorem runningOutOfBitsRaisesShortRead : Obligations.RunningOutOfBitsRaisesShortRead := by
  refine ⟨fun s t i more hi hm hpos h ht => ?_, fun s off hm hs hoff hf hr =>
    hs.renorm_faulted (t := s.takeBits 1) ?_ hm⟩
  · have hdir : shiftDir i = some .consume := by rcases hi with rfl | rfl <;> rfl
    rcases exec_fed hdir hm hpos h ht with ⟨hle, -, hsame⟩ | ⟨hlt, -, hshort⟩ | ⟨hfails, -⟩
    · exact ⟨fun _ _ => hsame, fun hlt => absurd hle hlt.not_ge⟩
    · exact ⟨fun hle => absurd hle hlt.not_ge, fun _ _ => hshort⟩
    · exact ⟨fun _ hn => absurd (hn.mono (min_le_left _ _)) hfails, fun _ hn => absurd (hn.mono (min_le_right _ _)) hfails⟩
  · rw [hs.pass.2, if_neg (by omega), hf, if_neg (by decide), if_pos hr]

/-- Settles O58: without failing transfers the operation goes through, so each transfer it makes succeeds or is the
fault. -/
theorem aFailingTransferOfAShiftRaisesIoError : Obligations.AFailingTransferOfAShiftRaisesIoError := by
  refine ⟨fun s t i hi hm h ht => ?_, fun s t i more hi hm hpos h ht hfails => ?_, fun s hm hb hfails => ?_,
    fun s off hm hs hoff hf => hs.renorm_faulted (t := s.takeBits 1) ?_ hm⟩
  · obtain ⟨dir, hdir⟩ : ∃ dir, shiftDir i = some dir := by
      rcases hi with rfl | rfl | ⟨v, rfl⟩ | rfl <;> exact ⟨_, rfl⟩
    rcases exec_charged hdir hm h ht with ⟨hnext, hsame⟩ | ⟨hnext, hio⟩
    · exact ⟨fun _ => hsame, fun hn => absurd hnext hn⟩
    · exact ⟨fun hn => absurd hn hnext, fun _ => hio⟩
  · have hdir : shiftDir i = some .consume := by rcases hi with rfl | rfl <;> rfl
    rcases exec_fed hdir hm hpos h ht with ⟨-, hnext, -⟩ | ⟨-, hnext, -⟩ | ⟨-, hio⟩
    · exact absurd (hnext.mono (min_le_left _ _)) hfails
    · exact absurd (hnext.mono (min_le_right _ _)) hfails
    · exact hio
  · have hbranch : branchOf s.l.toNat s.h.toNat = .e2 ∨ branchOf s.l.toNat s.h.toNat = .e1 := by
      rcases branchOf_cases s.l.toNat s.h.toNat with ⟨e2, -⟩ | ⟨e1, -⟩ | ⟨-, hmiddle⟩ | ⟨-, hwide⟩
      · exact .inl e2
      · exact .inr e1
      · omega
      · omega
    obtain ⟨u, hu⟩ := renorm_emit_group_fails hbranch hfails
    exact exec_faulted (renorm_raised hu) hm
  · rw [hs.pass.2, if_neg (by omega), hf, if_pos rfl]

end Sys2Proof.Machine
end

section
/-! SUPPORT. Proofs of the statements on the encoder: `ENC_BEGIN`, `ENC_SYM` and `ENC_END`, each from the transfers and the
unit operations it is made of. -/

namespace Sys2Proof.Machine

/-! ### `ENC_BEGIN` -/

/-- The state in which `ENC_BEGIN n` writes its header (43_encoder R181). -/
def State.encodeBegun (n : Count) (s : State) : State :=
  { s with
    mode := .enc, nTotal := n, symIdx := 0, table := Table.fresh
    l := 0, h := 0xFFFFFFFF, bitsToFollow := 0 }

theorem encBeginBody_idle {s : State} (hm : s.mode = .idle) (n : Count) :
    encBeginBody n s = (bsWrite .header n headerBits (s.encodeBegun n)).andThen fun _ t => .done (some 0) t :=
  if_neg (not_not.mpr hm)

/-! ### `ENC_SYM` -/

/-- `NARROW v` that ends outside `FAULT` began at ordered bounds (42_renormalizer R161). -/
theorem narrow_through {v : Sym} {s t : State} (hm : s.mode ≠ .fault) (h : exec (.narrow v) s = .next t)
    (ht : t.mode ≠ .fault) : s.l.toNat ≤ s.h.toNat ∧ t = (s.narrowTo v).respond none := by
  obtain ⟨_, _, hbody, rfl⟩ := exec_through hm h ht
  obtain ⟨_, w, hw, hr⟩ := Run.andThen_eq_done.mp hbody
  cases hr
  refine ⟨?_, by rw [narrowInterval_done hw]⟩
  by_contra hlh
  rw [narrowInterval, if_pos (not_le.mp hlh)] at hw
  cases hw

/-- `RENORM` that ends outside `FAULT` went through. -/
theorem renorm_through {dir : Dir} {s t : State} (hm : s.mode ≠ .fault) (h : exec (.renorm dir) s = .next t)
    (ht : t.mode ≠ .fault) : ∃ u, renormalize dir s = .done () u ∧ t = u.respond none := by
  obtain ⟨_, u, hbody, rfl⟩ := exec_through hm h ht
  obtain ⟨_, _, hu, hr⟩ := Run.andThen_eq_done.mp hbody
  cases hr
  exact ⟨u, hu, rfl⟩

/-- `RENORM` goes through after a response as it does before it. -/
theorem renormalize_respond_done {dir : Dir} {s u : State} {r : Option Count}
    (h : renormalize dir (s.respond r) = .done () u) :
    ∃ w, renormalize dir s = .done () w ∧ u = w.respond r := by
  have hw : (renormalize dir s).withResponse (s.respond r).response = .done () u :=
    (renormLoop_withResponse dir renormFuel s _).symm.trans h
  cases hr : renormalize dir s with
  | stopped f => rw [hr] at hw; cases hw
  | raised f g w => rw [hr] at hw; cases hw
  | done a w =>
    rw [hr] at hw
    injection hw with _ hw
    exact ⟨w, rfl, hw.symm⟩

/-- Below the symbol count of the run the count of completed symbols is one more (43_encoder R182). -/
theorem State.countSymbol_eq {s : State} (h : s.symIdx.toNat < s.nTotal.toNat) :
    s.countSymbol = { s with symIdx := s.symIdx + 1 } := by
  have hn := s.nTotal.isLt
  rw [State.countSymbol, if_pos (by omega)]

/-- The state after `ENC_SYM v` begun at `s`, whose shifts come to `u` (43_encoder R182). -/
def State.symbolEncoded (s : State) (v : Sym) (u : State) : State :=
  { u.updateTable v with symIdx := s.symIdx + 1, response := some { status := 0, result := some 0 } }

/-- `ENC_SYM v` whose shifts go through, with a symbol left (43_encoder R182). -/
theorem encSym_done {v : Sym} {s u : State} (hm : s.mode = .enc) (hn : s.symIdx.toNat < s.nTotal.toNat)
    (hlh : s.l.toNat ≤ s.h.toNat) (hu : renormalize .emit (s.narrowTo v) = .done () u) :
    exec (.encSym v) s = .next (s.symbolEncoded v u) := by
  have hs := encSym_shiftsAs (v := v) hm (State.ne_of_symIdx_lt hn) hlh
  have hrun := renormalize_sameRun (s.narrowTo_sameRun v) hu
  have hcount : (u.updateTable v).countSymbol = { u.updateTable v with symIdx := s.symIdx + 1 } := by
    rw [State.countSymbol_eq (by simpa [hrun.symIdx, hrun.nTotal] using hn), State.updateTable_symIdx, hrun.symIdx]
  rw [hs.done (by rw [hm]; decide) hu, State.afterShifts, hcount]
  rfl

/-! ### `ENC_END` -/

/-- One more transfer succeeds if the one after the first `k` does. -/
theorem nextTransfersSucceed_succ {s u : State} {k : Nat} (hu : u.ioFails = s.ioFails.drop k) :
    s.NextTransfersSucceed (k + 1) ↔ s.NextTransfersSucceed k ∧ u.transferFails = false := by
  rw [nextTransfersSucceed_add]
  refine and_congr_right fun _ => ⟨fun h => (h u hu).first, fun h w hw => nextTransfersSucceed_one ?_⟩
  rwa [State.transferFails, hw, ← hu]

/-- The termination of a run: the group of the quarter bit, then `l` as 32 bits (43_encoder R183). -/
def terminate (s : State) : Run Unit :=
  (bitPlusFollow .terminate (quarterBit s) { s with bitsToFollow := s.bitsToFollow + 1 }).andThen fun _ t =>
    bsWrite .terminate (t.l.setWidth 64) intervalBits t

theorem encEndBody_eq {s : State} (hm : s.mode = .enc) (hn : s.symIdx = s.nTotal) :
    encEndBody s =
      (terminate s).andThen fun _ t => (bsFlush .flush t).andThen fun _ t =>
        .done (some 0) { t.forgetRun with mode := .idle } := by
  rw [encEndBody, if_neg (not_not.mpr hm), if_neg (not_not.mpr hn), terminate, Run.andThen_assoc]

/-- The state after the group of the quarter bit (43_encoder R183). -/
def State.afterGroup (s : State) : State :=
  { s with
    wrBits := s.wrBits ++ quarterBit s :: List.replicate (s.bitsToFollow + 1) (!quarterBit s)
    bitsToFollow := 0
    ioFails := s.ioFails.drop (s.bitsToFollow + 2) }

/-- The state after the whole termination. -/
def State.terminated (s : State) : State :=
  s.afterGroup.afterTransfer.appendBits (bitsOf (s.l.setWidth 64) intervalBits)

theorem terminate_of_group {s : State} (h : s.NextTransfersSucceed (s.bitsToFollow + 2)) :
    terminate s = bsWrite .terminate (s.l.setWidth 64) intervalBits s.afterGroup := by
  rw [terminate, bitPlusFollow_ok .terminate _ { s with bitsToFollow := s.bitsToFollow + 1 } h, Run.andThen_done]
  rfl

theorem terminate_ok {s : State} (h : s.NextTransfersSucceed (s.bitsToFollow + 3)) :
    terminate s = .done () s.terminated := by
  obtain ⟨hgroup, hl⟩ := (nextTransfersSucceed_succ (u := s.afterGroup) rfl).mp h
  rw [terminate_of_group hgroup, bsWrite_ok (by decide) (by decide) hl, State.terminated]

/-- A failing transfer of the termination is one of the group or that of `l` (43_encoder R183, 60_exceptions R222). -/
theorem terminate_fails {s : State} (h : ¬s.NextTransfersSucceed (s.bitsToFollow + 3)) :
    ∃ u, terminate s = .raised .ioError .terminate u := by
  by_cases hgroup : s.NextTransfersSucceed (s.bitsToFollow + 2)
  · have hl : s.afterGroup.transferFails = true := by
      rw [nextTransfersSucceed_succ (u := s.afterGroup) rfl] at h
      simpa [hgroup] using h
    exact ⟨_, by rw [terminate_of_group hgroup, bsWrite_fails (by decide) (by decide) hl]⟩
  · obtain ⟨u, hu⟩ := bitPlusFollow_fails .terminate (quarterBit s)
      (s := { s with bitsToFollow := s.bitsToFollow + 1 }) hgroup
    exact ⟨u, by rw [terminate, hu, Run.andThen_raised]⟩

theorem State.terminated_ioFails (s : State) : s.terminated.ioFails = s.ioFails.drop (s.bitsToFollow + 3) := by
  simp [State.terminated, State.afterGroup]

/-- The state after `FLUSH` that goes through (40_bit_stream R123). -/
def State.flushed (s : State) : State :=
  { s.afterTransfer with
    wrBits := s.wrBits ++ List.replicate (padLength s.wrBits.length) padBit
    sink := pack (s.wrBits ++ List.replicate (padLength s.wrBits.length) padBit) }

/-- `ENC_END` whose transfers succeed (43_encoder R183). -/
theorem encEnd_done {s : State} (hm : s.mode = .enc) (hn : s.symIdx = s.nTotal)
    (h : s.NextTransfersSucceed (s.bitsToFollow + 4)) :
    exec .encEnd s = .next (State.respond { s.terminated.flushed.forgetRun with mode := .idle } (some 0)) := by
  obtain ⟨hterm, hflush⟩ := (nextTransfersSucceed_succ s.terminated_ioFails).mp h
  have hbody : body .encEnd s = .done (some 0) { s.terminated.flushed.forgetRun with mode := .idle } := by
    rw [body, encEndBody_eq hm hn, terminate_ok hterm, Run.andThen_done, bsFlush_ok hflush, Run.andThen_done]
    rfl
  exact exec_done hbody (by rw [hm]; decide)

/-! ### The statements -/

/-- Settles O25: the header's one transfer succeeds or raises. -/
theorem encBeginStartsAnEncodeRun : Obligations.EncBeginStartsAnEncodeRun := by
  intro s n hm
  have hnf : s.mode ≠ .fault := by rw [hm]; decide
  refine ⟨fun hf => ⟨bitsOf n 64, bitsOf_length _ _, bitsOf_getElem n 64, ?_⟩, fun hf => ?_⟩
  · exact exec_done (i := .encBegin n) (by
      rw [body, encBeginBody_idle hm, bsWrite_ok (s := s.encodeBegun n) (by decide) (by decide) hf,
        Run.andThen_done]) hnf
  · exact exec_faulted (i := .encBegin n) (by
      rw [body, encBeginBody_idle hm, bsWrite_fails (s := s.encodeBegun n) (by decide) (by decide) hf,
        Run.andThen_raised]) hnf

/-- Settles O26: the three operations leave the state they leave within `ENC_SYM`, but for the responses in between, which
`RENORM` does not look at. -/
theorem encSymIsNarrowRenormUpdate : Obligations.EncSymIsNarrowRenormUpdate := by
  intro s a b c v hm hn ha ham hb hbm hc
  obtain ⟨hlh, rfl⟩ := narrow_through (by rw [hm]; decide) ha (by rw [ham]; decide)
  obtain ⟨_, hu, rfl⟩ := renorm_through (by rw [ham]; decide) hb (by rw [hbm]; decide)
  obtain ⟨w, hw, rfl⟩ := renormalize_respond_done hu
  rw [tUpd_done] at hc
  injection hc with hc
  rw [encSym_done hm hn hlh hw, ← hc]
  rfl

/-- Settles O27: `NARROW` leaves ordered bounds, from which `RENORM E` goes through. -/
theorem encSymCompletes : Obligations.EncSymCompletes := by
  intro s v hinv hm hn hf
  have hrunning : s.running = true := s.running_iff.mpr (.inl hm)
  have hwide := hinv.wide hrunning
  obtain ⟨u, k, bits, hu, hrun, hk⟩ := renormalize_emit (s := s.narrowTo v) hf
    (hwide.narrow_ordered (hinv.table hrunning) v)
  have hexec := encSym_done hm hn hwide.quarter.2 hu
  have htable : (s.symbolEncoded v u).table = s.table.update s.cfg s.tick v := by
    rw [State.symbolEncoded, hrun.frame]
    rfl
  refine ⟨_, k, bits, hexec, ?_, hinv.exec rfl hexec, hk, hrun.count, _, tUpd_done v s, htable⟩
  rw [htable]
  conv_lhs => rw [State.symbolEncoded, hrun.frame]
  rfl

/-- Settles O28: the group, the 32 bits of `l` and the flush, one after the other. -/
theorem encEndTerminatesTheStream : Obligations.EncEndTerminatesTheStream := by
  intro s hm hn h
  refine ⟨_, quarterBit s, bitsOf (s.l.setWidth 64) 32, padLength s.terminated.wrBits.length, encEnd_done hm hn h,
    ?_, bitsOf_length _ _, fun k hk => ?_, padLength_lt _, ?_, rfl, rfl, rfl, rfl, rfl, rfl, rfl, rfl, rfl, ?_, rfl⟩
  · simp [quarterBit]
  · rw [bitsOf_getElem, BitVec.getLsbD_setWidth, decide_eq_true (by omega), Bool.true_and]
  · simpa [State.flushed] using add_padLength_mod s.terminated.wrBits.length
  · simp [State.flushed, State.terminated_ioFails]

/-- Settles O29: the failing transfer is one of the termination, or that of the flush after it. -/
theorem encEndReportsTheStageOfAFailingTransfer : Obligations.EncEndReportsTheStageOfAFailingTransfer := by
  intro s hm hn
  have hnf : s.mode ≠ .fault := by rw [hm]; decide
  refine ⟨fun h => ?_, fun hterm h => ?_⟩
  · obtain ⟨u, hu⟩ := terminate_fails h
    exact exec_faulted (i := .encEnd) (by rw [body, encEndBody_eq hm hn, hu, Run.andThen_raised]) hnf
  · have hflush : s.terminated.transferFails = true := by
      rw [nextTransfersSucceed_succ s.terminated_ioFails] at h
      simpa [hterm] using h
    exact exec_faulted (i := .encEnd) (by
      rw [body, encEndBody_eq hm hn, terminate_ok hterm, Run.andThen_done, bsFlush_fails hflush,
        Run.andThen_raised]) hnf

end Sys2Proof.Machine
end

section
/-! SUPPORT. Proofs of the statements on the decoder: `DEC_BEGIN` from its two reads, `DEC_SYM` from its search and its
shifts, `DEC_END`. -/

namespace Sys2Proof.Machine

/-! ### The faults an operation shows -/

/-- An operation other than `ABORT` that enters `FAULT` shows a fault that its pseudocode can raise (60_exceptions R230). -/
theorem exec_enters_raised {C : FaultCode → Stage → Prop} {i : Instr} {s t : State} (hi : i ≠ .abort)
    (hC : (body i s).Raises C) (hm : s.mode ≠ .fault) (h : exec i s = .next t) (ht : t.mode = .fault) :
    ∃ f g, C f g ∧ s.Faulted t f g := by
  rcases exec_cases h with ⟨hf, -⟩ | ⟨r, u, hb, rfl⟩ | ⟨f, g, u, hb, rfl⟩
  · exact absurd hf hm
  · exact absurd ((body_done_mode_fault hb hi).mp ht) hm
  · rw [hb] at hC
    exact ⟨f, g, hC, (exec_raised hb hm).2⟩

/-! ### `DEC_BEGIN` -/

/-- The value of the next `n` bits of the source (40_bit_stream R122). -/
def State.nextBits (n : Nat) (s : State) : Count := BitVec.ofNat 64 (natOfBits 0 (s.remaining.take n))

/-- The state in which `DEC_BEGIN` reads its header (44_decoder R201). -/
def State.decodeBegun (s : State) : State :=
  { s with mode := .dec, symIdx := 0, table := Table.fresh, l := 0, h := 0xFFFFFFFF }

/-- The state in which it reads its window (44_decoder R201). -/
def State.headerRead (s : State) : State :=
  { s.decodeBegun with
    nTotal := s.nextBits headerBits, rdPos := s.rdPos + headerBits, ioFails := s.ioFails.tail }

theorem State.le_remaining_length {s : State} {n : Nat} (h : s.rdPos + n ≤ s.rdBits.length) :
    n ≤ s.remaining.length := by
  rw [State.remaining_length]
  omega

theorem State.remaining_length_lt {s : State} {n : Nat} (h0 : 0 < n) (h : s.rdBits.length < s.rdPos + n) :
    s.remaining.length < n := by
  rw [State.remaining_length]
  omega

/-- A read of a legal width raises nothing but `SHORT_READ` or `IO_ERROR` in the caller's stage (40_bit_stream R122). -/
theorem bsRead_raises_stream {n : Nat} (h0 : 0 < n) (h64 : n ≤ 64) (stage : Stage) (s : State) :
    (bsRead stage n s).Raises fun f g => (f = .shortRead ∨ f = .ioError) ∧ g = stage := by
  cases hf : s.transferFails with
  | true => rw [bsRead_fails h0 h64 hf]; exact ⟨.inr rfl, rfl⟩
  | false =>
    rcases lt_or_ge s.remaining.length n with hr | hr
    · rw [bsRead_short h0 h64 hf hr]; exact ⟨.inl rfl, rfl⟩
    · rw [bsRead_ok h0 h64 hf hr]; trivial

theorem decBeginBody_idle {s : State} (hm : s.mode = .idle) :
    decBeginBody s =
      (bsRead .header headerBits s.decodeBegun).andThen fun n t =>
        (bsRead .window intervalBits { t with nTotal := n }).andThen fun w t =>
          .done (some n) { t with value := w.setWidth 32 } :=
  if_neg (not_not.mpr hm)

/-- Each of the two reads raises in its own stage (44_decoder R201, R206). -/
theorem decBegin_raises_stream {s : State} (hm : s.mode = .idle) :
    (body .decBegin s).Raises fun f g => (f = .shortRead ∨ f = .ioError) ∧ (g = .header ∨ g = .window) := by
  rw [body, decBeginBody_idle hm]
  refine ((bsRead_raises_stream (by decide) (by decide) .header _).imp fun _ _ h => ⟨h.1, .inl h.2⟩).andThen
    fun n t _ => ?_
  exact ((bsRead_raises_stream (by decide) (by decide) .window _).imp fun _ _ h => ⟨h.1, .inr h.2⟩).andThen
    fun _ _ _ => trivial

theorem decBegin_header_faulted {s t : State} {f : FaultCode} (hm : s.mode = .idle)
    (h : bsRead .header headerBits s.decodeBegun = .raised f .header t) :
    ∃ u, exec .decBegin s = .next u ∧ s.Faulted u f .header :=
  exec_faulted (i := .decBegin) (by rw [body, decBeginBody_idle hm, h, Run.andThen_raised]) (by rw [hm]; decide)

section HeaderRead

variable {s : State} (hm : s.mode = .idle) (hf : s.transferFails = false) (hr : s.rdPos + 64 ≤ s.rdBits.length)
include hm hf hr

/-- With the header read `DEC_BEGIN` is left with its window (44_decoder R201). -/
theorem decBegin_header_done :
    body .decBegin s = (bsRead .window intervalBits s.headerRead).andThen fun w t =>
      .done (some (s.nextBits headerBits)) { t with value := w.setWidth 32 } := by
  rw [body, decBeginBody_idle hm,
    bsRead_ok (n := headerBits) (s := s.decodeBegun) (by decide) (by decide) hf (State.le_remaining_length hr),
    Run.andThen_done]
  rfl

theorem decBegin_window_faulted {t : State} {f : FaultCode}
    (h : bsRead .window intervalBits s.headerRead = .raised f .window t) :
    ∃ u, exec .decBegin s = .next u ∧ s.Faulted u f .window :=
  exec_faulted (by rw [decBegin_header_done hm hf hr, h, Run.andThen_raised]) (by rw [hm]; decide)

end HeaderRead

/-! ### `DEC_SYM` -/

/-- A symbol found is found whatever the stage that asks (41_frequency_table R144). -/
theorem tableSymbolFor_done_stage {g : Stage} {p : Nat} {v : Sym} {s t : State} (h : tableSymbolFor g p s = .done v t)
    (g' : Stage) : tableSymbolFor g' p s = .done v t := by
  unfold tableSymbolFor at h ⊢
  split_ifs at h with htotal
  rwa [if_neg htotal]

/-- The decoder's search is `T_SYM` of the position (44_decoder R202). -/
theorem tSym_position {p : BitVec 30} {v : Sym} {s : State} (hp : p.toNat = s.position)
    (h : searchSymbol s = .done v s) : exec (.tSym p) s = .next (s.respond (some (v.setWidth 64))) := by
  unfold searchSymbol at h
  split_ifs at h
  refine exec_unit_done rfl ?_
  rw [body, tSymBody, hp, tableSymbolFor_done_stage h, Run.andThen_done]

theorem setWidth_sym_injective {v w : Sym} (h : v.setWidth 64 = w.setWidth 64) : v = w := by
  simpa using congrArg (BitVec.setWidth 8) h

/-- With a symbol left, what follows the shifts is `T_UPD` and one more symbol completed (44_decoder R202). -/
theorem SameRun.afterShifts {s u : State} (h : SameRun s u) (hn : s.symIdx.toNat < s.nTotal.toNat) (v : Sym) :
    u.afterShifts (some v) = { u.updateTable v with symIdx := s.symIdx + 1 } := by
  have hleft : (u.updateTable v).symIdx.toNat < (u.updateTable v).nTotal.toNat := by
    rwa [State.updateTable_symIdx, State.updateTable_nTotal, h.symIdx, h.nTotal]
  rw [State.afterShifts, State.countSymbol_eq hleft, State.updateTable_symIdx, h.symIdx]

/-- The state after `DEC_SYM` begun at `s`, which found `v` and whose shifts come to `u` (44_decoder R202). -/
def State.symbolDecoded (s : State) (v : Sym) (u : State) : State :=
  { u.updateTable v with symIdx := s.symIdx + 1, response := some { status := 0, result := some (v.setWidth 64) } }

/-- `DEC_SYM` whose search and shifts go through, with a symbol left (44_decoder R202). -/
theorem decSym_done {v : Sym} {s u : State} (hm : s.mode = .dec) (hn : s.symIdx.toNat < s.nTotal.toNat)
    (hs : searchSymbol s = .done v s) (hu : renormalize .consume (s.narrowTo v) = .done () u) :
    exec .decSym s = .next (s.symbolDecoded v u) := by
  rw [(decSym_shiftsAs hm (State.ne_of_symIdx_lt hn) hs).done (by rw [hm]; decide) hu,
    (renormalize_sameRun (s.narrowTo_sameRun v) hu).afterShifts hn]
  rfl

/-- In a decode run the search finds the symbol of the position, whose interval holds the window (44_decoder R202,
R205). -/
theorem State.RunInv.search {s : State} (h : s.RunInv) (hm : s.mode = .dec) :
    ∃ v : Sym, searchSymbol s = .done v s ∧ (s.narrowTo v).ValueInside ∧
      s.table.iv v.toNat ≤ s.position ∧ s.position < s.table.iv (v.toNat + 1) := by
  have hrunning : s.running = true := s.running_iff.mpr (.inr hm)
  have hvalid := h.table hrunning
  obtain ⟨v, hs, hlow, hhigh⟩ := (h.value hm).search hvalid
  exact ⟨v, hs, (h.value hm).narrow (h.wide hrunning) hvalid hlow hhigh, hlow, hhigh⟩

/-- In a decode run with a symbol left `DEC_SYM` raises nothing but the faults of its reads (44_decoder R206). -/
theorem decSym_raises_stream {s : State} (h : s.RunInv) (hm : s.mode = .dec) (hn : s.symIdx ≠ s.nTotal) :
    (body .decSym s).Raises fun f g => (f = .shortRead ∨ f = .ioError) ∧ g = .renorm := by
  obtain ⟨v, hs, hin, -⟩ := h.search hm
  rw [(decSym_shiftsAs hm hn hs).body_eq]
  exact (renormLoop_consume_raises renormFuel hin).andThen fun _ _ _ => trivial

/-! ### The statements -/

/-- Settles O37: `DEC_END` forgets the run and makes no transfer. -/
theorem decEndEndsTheRun : Obligations.DecEndEndsTheRun := by
  intro s hm hn
  have hbody : body .decEnd s = .done (some 0) { s.forgetRun with mode := .idle } := by
    rw [body, decEndBody, if_neg (not_not.mpr hm), if_neg (not_not.mpr hn)]
  exact ⟨_, exec_done hbody (by rw [hm]; decide), rfl, rfl, rfl, rfl, rfl, rfl, rfl, rfl, rfl, rfl, rfl⟩

/-- Settles O59: the guard of the search comes before the position. -/
theorem valueOutsideTheIntervalReportsSearchOverflow : Obligations.ValueOutsideTheIntervalReportsSearchOverflow := by
  intro s hm hn hout
  refine exec_faulted (i := .decSym) (t := s) ?_ (by rw [hm]; decide)
  rw [body, decSymBody, if_neg (not_not.mpr hm), if_neg hn, searchSymbol, if_pos hout, Run.andThen_raised]

/-- Settles O31: the header is the value of the first 64 bits, the window that of the next 32. -/
theorem decBeginReadsHeaderAndWindow : Obligations.DecBeginReadsHeaderAndWindow := by
  intro s hm hok hr
  have hleft : intervalBits ≤ s.headerRead.remaining.length :=
    State.le_remaining_length (show s.rdPos + 64 + 32 ≤ s.rdBits.length from hr)
  obtain ⟨-, hheader⟩ := State.read_value (s := s) (n := 64) le_rfl (State.le_remaining_length (by omega))
  obtain ⟨-, hwindow⟩ := State.read_value (n := intervalBits) (by decide) hleft
  refine ⟨s.nextBits headerBits, (s.headerRead.nextBits intervalBits).setWidth 32, hheader, fun k hk => ?_, ?_⟩
  · rw [BitVec.getLsbD_setWidth, decide_eq_true (by omega), Bool.true_and]
    exact hwindow k hk
  · have hbody := decBegin_header_done hm hok.first (by omega)
    rw [bsRead_ok (by decide) (by decide) (hok.rest s.headerRead rfl).first hleft, Run.andThen_done] at hbody
    rw [exec_done hbody (by rw [hm]; decide), ← List.drop_drop (i := 1) (j := 1), List.drop_one, List.drop_one]
    rfl

/-- Settles O32: the header's read ends too soon, or the window's after it. -/
theorem decBeginOnAShortStreamRaisesShortRead : Obligations.DecBeginOnAShortStreamRaisesShortRead := by
  intro s hm hok
  refine ⟨fun hshort => ?_, fun hr hshort => ?_⟩
  · have hheader : s.decodeBegun.remaining.length < headerBits := State.remaining_length_lt (by decide) hshort
    exact decBegin_header_faulted hm (bsRead_short (s := s.decodeBegun) (by decide) (by decide) hok.first hheader _)
  · have hwindow : s.headerRead.remaining.length < intervalBits := State.remaining_length_lt (by decide) hshort
    exact decBegin_window_faulted hm hok.first hr
      (bsRead_short (by decide) (by decide) (hok.rest s.headerRead rfl).first hwindow _)

/-- Settles O33: the failing transfer is the header's, or the window's after it. -/
theorem decBeginReportsTheStageOfAFailingTransfer : Obligations.DecBeginReportsTheStageOfAFailingTransfer := by
  intro s hm
  refine ⟨fun hf => decBegin_header_faulted hm
    (bsRead_fails (s := s.decodeBegun) (by decide) (by decide) hf _), fun hf hr hfails => ?_⟩
  have hwindow : s.headerRead.transferFails = true := by
    by_contra hsucceeds
    exact hfails ((nextTransfersSucceed_tail hf (u := s.headerRead) rfl 1).mpr
      (nextTransfersSucceed_one (Bool.eq_false_of_not_eq_true hsucceeds)))
  exact decBegin_window_faulted hm hf hr (bsRead_fails (by decide) (by decide) hwindow _)

/-- Settles O34: the search is `T_SYM` of the position, and the three operations after it leave the state they leave within
`DEC_SYM`, but for the responses in between, which `RENORM` does not look at. -/
theorem decSymIsSearchNarrowRenormUpdate : Obligations.DecSymIsSearchNarrowRenormUpdate := by
  intro s r a b c p v hm hn hv hvalid hp hr hresponse ha ham hb hbm hc
  obtain ⟨w, hs, -⟩ := hv.search hvalid
  rw [tSym_position (hp.trans (hv.position hvalid).1.symm) hs] at hr
  injection hr with hr
  subst hr
  obtain rfl := setWidth_sym_injective (Option.some.inj (Response.mk.inj (Option.some.inj hresponse)).2)
  obtain ⟨-, rfl⟩ := narrow_through (by rw [hm]; decide) ha (by rw [ham]; decide)
  obtain ⟨_, hresponded, rfl⟩ := renorm_through (by rw [ham]; decide) hb (by rw [hbm]; decide)
  obtain ⟨u, hu, rfl⟩ := renormalize_respond_done hresponded
  rw [tUpd_done] at hc
  injection hc with hc
  rw [decSym_done hm hn hs hu, ← hc]
  rfl

/-- Settles O35: the search finds the symbol of the position, and `RENORM C` goes through with the window inside that
symbol's interval. -/
theorem decSymCompletes : Obligations.DecSymCompletes := by
  intro s hinv hm hn hf hr
  have hrunning : s.running = true := s.running_iff.mpr (.inr hm)
  obtain ⟨v, hs, hin, hlow, hhigh⟩ := hinv.search hm
  obtain ⟨u, k, hu, hrun, hk⟩ := renormalize_consume (s := s.narrowTo v) hf hin hr
  have hexec := decSym_done hm hn hs hu
  have htable : (s.symbolDecoded v u).table = s.table.update s.cfg s.tick v := by
    rw [State.symbolDecoded, hrun.frame]
    rfl
  refine ⟨_, v, k, _, hexec, ((hinv.value hm).position (hinv.table hrunning)).1, hlow, hhigh, ?_, hinv.exec rfl hexec, hk,
    _, tUpd_done v s, htable⟩
  rw [htable]
  conv_lhs => rw [State.symbolDecoded, hrun.frame]
  rfl

/-- Settles O36: what the two commands can raise is what their reads raise. -/
theorem decodingFaultsOnlyOnTheStream : Obligations.DecodingFaultsOnlyOnTheStream := by
  intro s t
  refine ⟨fun hm he ht => ?_, fun hinv hm hn he ht => ?_⟩
  · obtain ⟨f, g, ⟨hf, hg⟩, hfaulted⟩ :=
      exec_enters_raised (by decide) (decBegin_raises_stream hm) (by rw [hm]; decide) he ht
    exact ⟨f, g, hf, hg, hfaulted⟩
  · obtain ⟨f, g, ⟨hf, rfl⟩, hfaulted⟩ :=
      exec_enters_raised (by decide) (decSym_raises_stream hinv hm (State.ne_of_symIdx_lt hn)) (by rw [hm]; decide) he ht
    rcases hf with rfl | rfl
    · exact .inl hfaulted
    · exact .inr hfaulted

end Sys2Proof.Machine
end

section
/-! SUPPORT. Proofs of the statements on run control: which operations change the mode, and `ABORT`. -/

namespace Sys2Proof.Machine

/-! ### What `ABORT` leaves -/

theorem exec_abort_idle {s : State} (hm : s.mode = .idle) :
    exec .abort s = .next (s.clearFault.respond (some 0)) := by
  rw [exec, execAbort, abortBody, if_pos hm, finish_done]

theorem exec_abort_run {s : State} (hm : s.mode ≠ .idle) :
    exec .abort s = .next (s.forgetRun.clearFault.respond (some 0)) := by
  rw [exec, execAbort, abortBody, if_neg hm, finish_done]

/-- In `IDLE` with no fault standing there is nothing to clear (45_run_control R211). -/
theorem State.FaultInv.clearFault_eq {s : State} (h : s.FaultInv) (hm : s.mode = .idle) : s.clearFault = s := by
  have hclear : s.fault = FaultRecord.clear := h.clear (by rw [hm]; decide)
  rw [State.clearFault, ← hm, ← hclear]

/-! ### The statements -/

/-- Settles O39: in `IDLE` only mode and record are written, with the values they hold; in every other mode the run is
forgotten too, which no stream and no input belongs to. -/
theorem abortReturnsToIdle : Obligations.AbortReturnsToIdle := by
  intro s
  by_cases hm : s.mode = .idle
  · refine ⟨_, exec_abort_idle hm, rfl, rfl, rfl, rfl, rfl, rfl, rfl, rfl, rfl, rfl, rfl, rfl, rfl, fun _ hinv => ?_⟩
    rw [hinv.clearFault_eq hm]
    rfl
  · exact ⟨_, exec_abort_run hm, rfl, rfl, rfl, rfl, rfl, rfl, rfl, rfl, rfl, rfl, rfl, rfl, rfl,
      fun hidle => absurd hidle hm⟩

/-- Settles O45: a refusal keeps the mode, a fault enters `FAULT`, and an operation that runs through was in the mode it
needs and leaves the one the table leads to. -/
theorem modeChangesOnlyByRunControl : Obligations.ModeChangesOnlyByRunControl := by
  intro i s t h
  rcases exec_cases h with ⟨-, rfl⟩ | ⟨r, u, hb, rfl⟩ | ⟨f, g, u, -, rfl⟩
  · exact .inl rfl
  · obtain ⟨⟨hafter, -⟩, hbefore⟩ := body_mode hb
    rw [State.respond_mode, hafter]
    cases i with
    | encBegin n => exact .inr (.inr (.inl ⟨⟨n, rfl⟩, hbefore .idle rfl, rfl⟩))
    | decBegin => exact .inr (.inr (.inr (.inl ⟨rfl, hbefore .idle rfl, rfl⟩)))
    | encEnd => exact .inr (.inr (.inr (.inr (.inl ⟨rfl, hbefore .enc rfl, rfl⟩))))
    | decEnd => exact .inr (.inr (.inr (.inr (.inr (.inl ⟨rfl, hbefore .dec rfl, rfl⟩)))))
    | abort => exact .inr (.inr (.inr (.inr (.inr (.inr ⟨rfl, rfl⟩)))))
    | _ => exact .inl rfl
  · exact .inr (.inl rfl)

end Sys2Proof.Machine
end

section
/-! SUPPORT. Proofs of the statements on the causes of the faults of stage `COMMAND`, and on the first fault, which
stands. -/

namespace Sys2Proof.Machine

/-! ### What raises before anything is done -/

theorem illegalRequest_raised {s : State} (hm : s.mode ≠ .fault) (r : Request) :
    illegalRequest r s = .next (s.takeFault s .illegalCmd .command) := by
  rw [illegalRequest, if_neg hm, finish_raised]

/-- The mode is the first thing a host command tests (60_exceptions R226, R238). -/
theorem body_badMode {i : Instr} {m : Mode} {s : State} (hi : modeBefore i = some m) (hm : s.mode ≠ m) :
    body i s = .raised .badMode .command s := by
  cases i with
  | encBegin n => cases hi; rw [body, encBeginBody, if_pos hm]
  | encSym v => cases hi; rw [body, encSymBody, if_pos hm]
  | encEnd => cases hi; rw [body, encEndBody, if_pos hm]
  | decBegin => cases hi; rw [body, decBeginBody, if_pos hm]
  | decSym => cases hi; rw [body, decSymBody, if_pos hm]
  | decEnd => cases hi; rw [body, decEndBody, if_pos hm]
  | _ => cases hi

/-- Of an operation that raises where it began, no bit is written (60_exceptions R230; log 4). -/
theorem exec_raised_unwritten {i : Instr} {s : State} {f : FaultCode} {g : Stage} (h : body i s = .raised f g s)
    (hm : s.mode ≠ .fault) : ∃ t, exec i s = .next t ∧ s.Faulted t f g ∧ t.wrBits = s.wrBits :=
  have ⟨hexec, hfaulted⟩ := exec_raised h hm
  ⟨_, hexec, hfaulted, keptBits_of_unwritten rfl⟩

/-! ### The statements -/

/-- Settles O6: the word is not decoded, and nothing is refused outside `FAULT`. -/
theorem unselectedWordRaisesIllegalCmd : Obligations.UnselectedWordRaisesIllegalCmd :=
  fun r s hr hm => ⟨_, (serve_of_not_selects hr s).trans (illegalRequest_raised hm r), takeFault_faulted hm _ _⟩

/-- Settles O40: each command is in a mode other than the one it runs through in. -/
theorem commandInTheWrongModeRaisesBadMode : Obligations.CommandInTheWrongModeRaisesBadMode := by
  intro s i hnf hcmd
  have hbody : body i s = .raised .badMode .command s := by
    rcases hcmd with ⟨⟨n, rfl⟩, hm⟩ | ⟨rfl, hm⟩ | ⟨⟨v, rfl⟩, hm⟩ | ⟨rfl, hm⟩ | ⟨rfl, hm⟩ | ⟨rfl, hm⟩ <;>
      exact body_badMode rfl hm
  exact exec_faulted hbody hnf

/-- Settles O44: a refusal changes only the response, an operation that runs through keeps mode and record, and one that
raises enters `FAULT` again with the record that stands. -/
theorem firstFaultStands : Obligations.FirstFaultStands := by
  intro i s t hm hi h
  rcases exec_cases h with ⟨-, rfl⟩ | ⟨r, u, hb, rfl⟩ | ⟨f, g, u, hb, rfl⟩
  · exact ⟨hm, rfl⟩
  · have hrecord : u.fault = recordAfter i s.fault := (body_mode hb).1.2
    rw [recordAfter, if_neg hi] at hrecord
    exact ⟨(body_done_mode_fault hb hi).mpr hm, hrecord⟩
  · exact ⟨rfl, takeFault_stands hb hm⟩

/-- Settles O41: with the mode right, the count is tested before anything is done. -/
theorem wrongSymbolCountRaisesCountMismatch : Obligations.WrongSymbolCountRaisesCountMismatch := by
  rintro s i (⟨⟨v, rfl⟩, hm, hn⟩ | ⟨rfl, hm, hn⟩ | ⟨rfl, hm, hn⟩ | ⟨rfl, hm, hn⟩)
  · exact exec_raised_unwritten (by rw [body, encSymBody, if_neg (not_not.mpr hm), if_pos hn]) (by rw [hm]; decide)
  · exact exec_raised_unwritten (by rw [body, decSymBody, if_neg (not_not.mpr hm), if_pos hn]) (by rw [hm]; decide)
  · exact exec_raised_unwritten (by rw [body, encEndBody, if_neg (not_not.mpr hm), if_pos hn]) (by rw [hm]; decide)
  · exact exec_raised_unwritten (by rw [body, decEndBody, if_neg (not_not.mpr hm), if_pos hn]) (by rw [hm]; decide)

end Sys2Proof.Machine
end

section
/-! SUPPORT. Proofs of the statements on reset, at a command boundary and in the middle of a command, and on attached
streams. -/

namespace Sys2Proof.Machine

/-! ### How far a word comes in its pseudocode -/

/-- The host command port carries host commands only (30_encoding R101, R106). -/
theorem isHost_of_decode_host {w : BitVec 68} {i : Instr} (h : decode (.host w) = .ok i) : i.isHost = true := by
  obtain ⟨-, hw | ⟨rfl, -⟩⟩ := carries_of_decode h
  · cases i
    case tNew | tIend | tSym | tUpd | narrow | renorm | bpf | writebits | readbits | flush => cases hw
    all_goals rfl
  · rfl

theorem progress_of_decode {r : Request} {i : Instr} (h : decode r = .ok i) (s : State) :
    progress r s = if i.isHost = true ∧ i ≠ .abort ∧ s.mode = .fault then .done none s else body i s := by
  simp [progress, h, refusable, and_assoc]

theorem progress_of_reject {r : Request} {e : Reject} (h : decode r = .error e) (s : State) :
    progress r s = .done none s := by
  rw [progress, h]

/-! ### What a word answers that does not begin -/

theorem State.refuse_advances (s : State) (x : Option Count) : Advances s (s.refuse x) :=
  { Advances.refl s with }

/-- A word that selects no operation is refused or raises where it stands (30_encoding R107). -/
theorem illegalRequest_advances (r : Request) (s : State) : ∃ u, illegalRequest r s = .next u ∧ Advances s u := by
  by_cases hm : s.mode = .fault
  · exact ⟨_, illegalRequest_fault hm r, s.refuse_advances _⟩
  · exact ⟨_, illegalRequest_raised hm r, (Advances.refl s).takeFault rfl _ _⟩

/-! ### A word cut off, beside the same word served to its end -/

/-- The word `r`, begun at `s`, would come to `v` in its pseudocode, where reset cuts it off, and answers `u` when it is
served to its end (70_reset R260). -/
inductive CutAt (r : Request) (s : State) : State → State → Prop
  /-- the word is refused or selects no operation -/
  | notBegun {u : State} (answer : Advances s u) : CutAt r s s u
  /-- the pseudocode of its operation runs through; in `FAULT` no host command but `ABORT` gets so far -/
  | done {i : Instr} {x : Option Count} {v : State} (decoded : decode r = .ok i)
      (served : i.isHost = true → s.mode = .fault → i = .abort) (ends : body i s = .done x v) : CutAt r s v (v.respond x)
  /-- the pseudocode of its operation raises -/
  | raised {i : Instr} {f : FaultCode} {g : Stage} {v : State} (decoded : decode r = .ok i)
      (served : i.isHost = true → s.mode = .fault → i = .abort) (ends : body i s = .raised f g v) :
      CutAt r s v (s.takeFault v f g)

theorem resetDuring_cutAt (r : Request) (s : State) :
    ∃ v u, handle (.resetDuring r) s = .next (s.cutOff v) ∧ serve r s = .next u ∧ CutAt r s v u := by
  cases hd : decode r with
  | error e =>
    obtain ⟨u, hu, ha⟩ := illegalRequest_advances r s
    exact ⟨s, u, by rw [handle, progress_of_reject hd], by rw [serve, hd, hu], .notBegun ha⟩
  | ok i =>
    rw [handle, progress_of_decode hd, serve_of_decode hd, exec_eq]
    split_ifs with hr
    · exact ⟨s, _, rfl, rfl, .notBegun (s.refuse_advances _)⟩
    · have hserved : i.isHost = true → s.mode = .fault → i = .abort := by tauto
      have ha := body_advances i s
      cases hb : body i s with
      | done x v => exact ⟨v, _, rfl, rfl, .done hd hserved hb⟩
      | raised f g v => exact ⟨v, _, rfl, rfl, .raised hd hserved hb⟩
      | stopped f => rw [hb] at ha; exact ha.elim

theorem FaultCode.bits_ne_zero {f : FaultCode} (h : f ≠ .none) : f.bits ≠ 0 := by
  cases f with
  | none => exact absurd rfl h
  | _ => decide

theorem keptReads_of_unread {s v : State} (h : v.rdPos = s.rdPos) : keptReads s v = s.rdPos := by
  simp [keptReads, h]

section CutAt
variable {r : Request} {s v u : State}

/-- What holds where a word begins, and of every operation it can be served as, holds where it is cut off. -/
theorem CutAt.of_body {P : State → Prop} (h : CutAt r s v u) (h0 : P s)
    (hb : ∀ i, decode r = .ok i → (i.isHost = true → s.mode = .fault → i = .abort) → (body i s).All P) : P v := by
  cases h with
  | notBegun _ => exact h0
  | done hd hserved ends => have ha := hb _ hd hserved; rw [ends] at ha; exact ha
  | raised hd hserved ends => have ha := hb _ hd hserved; rw [ends] at ha; exact ha

theorem CutAt.advances (h : CutAt r s v u) : Advances s v :=
  h.of_body (Advances.refl s) fun i _ _ => body_advances i s

/-- The bits that stay are a front of those the word leaves when it is served to its end (70_reset R260; log 3, 22). -/
theorem CutAt.bits_front (h : CutAt r s v u) : keptBits s v <+: u.wrBits := by
  have hv := h.advances
  cases h with
  | notBegun answer => rw [keptBits_of_unwritten rfl]; exact answer.bits
  | done _ _ _ => exact keptBits_front hv.bits
  | raised _ _ _ => exact List.prefix_rfl

/-- Where the word would succeed, no more has been read than it would read; a fault raised is not a success. -/
theorem CutAt.reads_le (h : CutAt r s v u) {x : Option Count}
    (hx : u.response = some { status := 0, result := x }) : keptReads s v ≤ u.rdPos := by
  have hv := h.advances
  cases h with
  | notBegun answer => exact (keptReads_le hv.position).trans answer.position
  | done _ _ _ => exact keptReads_le hv.position
  | raised _ _ ends =>
    have hstatus := congrArg Response.status (Option.some.inj hx)
    exact absurd hstatus (FaultCode.bits_ne_zero (body_raised_raisable ends).1)

theorem CutAt.unread (h : CutAt r s v u) (hr : ∀ i, decode r = .ok i → reads i = false) : v.rdPos = s.rdPos :=
  h.of_body (P := fun t => t.rdPos = s.rdPos) rfl fun i hd _ => body_readsNone (hr i hd) s

/-- In `FAULT` a word on the host port is refused or is `ABORT`, which touches no stream (45_run_control R211, R212). -/
theorem CutAt.untouched_of_fault {w : BitVec 68} (h : CutAt (.host w) s v u) (hm : s.mode = .fault) :
    v.rdPos = s.rdPos ∧ v.wrBits = s.wrBits := by
  refine h.of_body (P := fun t => t.rdPos = s.rdPos ∧ t.wrBits = s.wrBits) ⟨rfl, rfl⟩ fun i hd hserved => ?_
  obtain rfl : i = .abort := hserved (isHost_of_decode_host hd) hm
  rw [body, abortBody]
  split_ifs <;> exact ⟨rfl, rfl⟩

end CutAt

theorem reads_eq_false {i : Instr} (h : i ≠ .decBegin ∧ i ≠ .decSym ∧ i ≠ .renorm .consume ∧ ∀ n, i ≠ .readbits n) :
    reads i = false := by
  obtain ⟨hbegin, hsym, hrenorm, hreadbits⟩ := h
  cases i with
  | decBegin => exact absurd rfl hbegin
  | decSym => exact absurd rfl hsym
  | readbits n => exact absurd rfl (hreadbits n)
  | renorm dir =>
    cases dir with
    | emit => rfl
    | consume => exact absurd rfl hrenorm
  | _ => rfl

/-! ### The statements -/

/-- Settles O51: of a cut-off word's bits a free front stays and a free number has been read, none of either where its
pseudocode does not begin. -/
theorem resetReturnsToIdleAndKeepsTheStreams : Obligations.ResetReturnsToIdleAndKeepsTheStreams := by
  refine fun s => ⟨⟨_, rfl, rfl, rfl, rfl, rfl, rfl, rfl, rfl, rfl⟩, fun r => ?_⟩
  obtain ⟨v, u, hreset, hserve, hcut⟩ := resetDuring_cutAt r s
  refine ⟨_, u, hreset, hserve, rfl, rfl, rfl, keptBits_prefix s v, hcut.bits_front, rfl, rfl, le_keptReads s v, rfl,
    fun x hx => hcut.reads_le hx, fun hr => ?_, ?_⟩
  · exact keptReads_of_unread (hcut.unread fun i hd => reads_eq_false (hr i hd))
  · rintro hm ⟨w, rfl⟩
    obtain ⟨hread, hwritten⟩ := hcut.untouched_of_fault hm
    exact ⟨keptReads_of_unread hread, keptBits_of_unwritten hwritten⟩

/-- Settles O52: whether a run goes on is all that attaching a stream asks. -/
theorem attachedStreamsAreFresh : Obligations.AttachedStreamsAreFresh := by
  refine fun s bytes => ⟨fun hidle => ⟨?_, ?_⟩, fun hrun => ⟨?_, ?_⟩⟩
  · rw [handle, hidle]; rfl
  · rw [handle, hidle]; rfl
  · rw [handle, if_pos hrun]
  · rw [handle, if_pos hrun]

end Sys2Proof.Machine
end
